-- ==== Sys2Proof/Word.lean ====
section
/-! DEFINITION. The word types of DLCORE: 32-bit register values, binary32 patterns, 64-bit port words. -/

namespace Sys2Proof

/-- A 32-bit register value (10_state.md section 2: "Every register is 32 bits wide"). -/
abbrev Word := BitVec 32

/-- A 32-bit pattern read as an IEEE 754 binary32 number (00_scope.md R13). The arithmetic on it is in
Machine/Float.lean. -/
abbrev F32 := BitVec 32

/-- A 64-bit word of a port: a control-port command word (30_encoding.md R90) or a sample-port beat (R92). -/
abbrev PortWord := BitVec 64

end Sys2Proof
end

