-- ==== Sys2Proof/Machine/Float.lean ====
section
/-! DEFINITION. Binary32 arithmetic (40_numerics.md R120 to R127): every finite number is an integer multiple of 2^-149, so
each operation is computed exactly on integers and rounded once. The rounded operations are marked irreducible so that no proof
unfolds them by accident; the kernel evaluates them all the same. -/

namespace Sys2Proof.Machine

/-- `+0`. -/
def posZero : F32 := 0x00000000

/-- `-0`. -/
def negZero : F32 := 0x80000000

/-- `1.0`. -/
def oneF : F32 := 0x3F800000

/-- `0.5`. -/
def halfF : F32 := 0x3F000000

/-- The canonical quiet NaN, the result of every operation whose IEEE result is NaN (40_numerics.md R124). -/
def canonicalNaN : F32 := 0x7FC00000

/-- The sign, bit 31 (40_numerics.md R120): true for negative. -/
def signF (a : F32) : Bool := decide (2 ^ 31 ≤ a.toNat)

/-- Bits 30:0: the biased exponent in bits 30:23 and the fraction in bits 22:0, as one number. Patterns with larger
exponent and fraction name larger magnitudes. -/
def absPat (a : F32) : Nat := a.toNat % 2 ^ 31

/-- The pattern, in bits 30:0, of infinity: exponent 0xFF, fraction 0. -/
def infPat : Nat := 0x7F800000

/-- Exponent 0xFF with a nonzero fraction (40_numerics.md R120). -/
def isNaNF (a : F32) : Bool := decide (infPat < absPat a)

/-- `+inf` or `-inf`. -/
def isInfF (a : F32) : Bool := decide (absPat a = infPat)

/-- Neither NaN nor an infinity. -/
def isFiniteF (a : F32) : Bool := decide (absPat a < infPat)

/-- `+0` or `-0`. -/
def isZeroF (a : F32) : Bool := decide (absPat a = 0)

/-- The magnitude named by bits 30:0, as a multiple of 2^-149: a subnormal is its fraction, a normal number has the
hidden bit and its exponent's weight (40_numerics.md R120, bias 127). -/
def magOfPat (n : Nat) : Nat :=
  if n / 2 ^ 23 = 0 then n % 2 ^ 23 else (2 ^ 23 + n % 2 ^ 23) * 2 ^ (n / 2 ^ 23 - 1)

/-- The magnitude of a finite number in units of 2^-149. On an infinity it is 2^277, above every finite number, which is
what the comparisons need. -/
def magF (a : F32) : Nat := magOfPat (absPat a)

/-- The value of a number in units of 2^-149. -/
def valF (a : F32) : Int := if signF a then -(magF a : Int) else (magF a : Int)

/-- One 1.0 in units of 2^-149. -/
@[irreducible] def unitF : Nat := 2 ^ 149

/-- `num / den` rounded to the nearest integer, ties to the even one (40_numerics.md R121). -/
def roundEven (num den : Nat) : Nat :=
  if 2 * (num % den) < den then num / den
  else if den < 2 * (num % den) then num / den + 1
  else num / den + (num / den) % 2

/-- The weight, as a power of two over 2^-149, of the last place of a magnitude `num / den` (in units of 2^-149): 0 below the
second binade, where the spacing is 2^-149, and one more for each binade above. -/
def ulpExp (num den : Nat) : Nat := Nat.log2 (num / den) - 23

/-- Bits 30:0 of the magnitude `num / den` (in units of 2^-149) rounded to nearest, ties to even, as if the exponent had no upper
bound (40_numerics.md R121, gradual underflow included). -/
def roundPat (num den : Nat) : Nat :=
  ulpExp num den * 2 ^ 23 + roundEven num (den * 2 ^ ulpExp num den)

/-- A pattern from a sign and rounded bits 30:0; a magnitude beyond the largest finite value is an infinity (40_numerics.md R121). -/
def packF (neg : Bool) (n : Nat) : F32 :=
  BitVec.ofNat 32 ((if neg then 2 ^ 31 else 0) + min n infPat)

/-- The exact value `v / den` (in units of 2^-149), not zero, rounded to binary32. -/
@[irreducible] def roundF (neg : Bool) (num den : Nat) : F32 := packF neg (roundPat num den)

/-- `a ⊕ b` (40_numerics.md R121 to R124): the exact sum rounded once; `inf + (-inf)` and NaN operands give the canonical NaN; an
exact zero sum is `-0` only when both operands are negative. -/
@[irreducible] def addF (a b : F32) : F32 :=
  if isNaNF a || isNaNF b then canonicalNaN
  else if isInfF a then (if isInfF b && signF a != signF b then canonicalNaN else a)
  else if isInfF b then b
  else if valF a + valF b = 0 then (if signF a && signF b then negZero else posZero)
  else roundF (decide (valF a + valF b < 0)) (valF a + valF b).natAbs 1

/-- The number with its sign bit inverted. -/
def negF (a : F32) : F32 := a ^^^ 0x80000000

/-- `a ⊖ b`: the sum of `a` and the negated `b`, which is the IEEE subtraction (40_numerics.md R121, R122). -/
def subF (a b : F32) : F32 := addF a (negF b)

/-- `a ⊗ b` (40_numerics.md R121 to R124): the exact product rounded once; zero times infinity and NaN operands give the canonical
NaN; the sign is the exclusive-or of the operands' signs, for zero results too. -/
@[irreducible] def mulF (a b : F32) : F32 :=
  if isNaNF a || isNaNF b then canonicalNaN
  else if isInfF a || isInfF b then
    (if isZeroF a || isZeroF b then canonicalNaN else packF (signF a != signF b) infPat)
  else roundF (signF a != signF b) (magF a * magF b) unitF

/-- `a ⊘ b` (40_numerics.md R121, R122). The datapath divides only RATE by SRF; the cases of a zero, infinite or NaN operand follow
IEEE 754 (log 18). -/
@[irreducible] def divF (a b : F32) : F32 :=
  if isNaNF a || isNaNF b then canonicalNaN
  else if isInfF a then (if isInfF b then canonicalNaN else packF (signF a != signF b) infPat)
  else if isInfF b then packF (signF a != signF b) 0
  else if isZeroF b then (if isZeroF a then canonicalNaN else packF (signF a != signF b) infPat)
  else roundF (signF a != signF b) (magF a * unitF) (magF b)

/-- `a < b`, false when either is NaN, `-0 = +0` (40_numerics.md R125). -/
def ltF (a b : F32) : Bool := !isNaNF a && !isNaNF b && decide (valF a < valF b)

/-- `a <= b` (40_numerics.md R125). -/
def leF (a b : F32) : Bool := !isNaNF a && !isNaNF b && decide (valF a ≤ valF b)

/-- `a >= b` (40_numerics.md R125). -/
def geF (a b : F32) : Bool := leF b a

/-- `toF32(n)`: the binary32 number equal to the integer `n`, exact for `n < 2^24`, the only integers the rule defines it for
(00_scope.md R13, 40_numerics.md R127; log 13). -/
def toF32 (n : Nat) : F32 := roundF false (n * unitF) 1

/-- `floor(x)` of a finite `x >= 0`: the greatest integer `<= x` (40_numerics.md R127); `none` elsewhere, where the rule
does not define it. -/
def floorF (a : F32) : Option Nat :=
  if isFiniteF a && (!signF a || isZeroF a) then some (magF a / unitF) else none

end Sys2Proof.Machine
end

