-- ==== Sys2Proof/Config.lean ====
section
/-! DEFINITION. What an implementation fixes (00_scope.md R10) and the free values the spec leaves open. -/

namespace Sys2Proof

/-- The two channels, Left and Right (00_scope.md R3; `NCH` is fixed at 2). -/
inductive Channel where
  | left
  | right
  deriving DecidableEq, Repr

/-- The named parameters of 00_scope.md R10, the configuration argument of every operation that reads one.
The reference values are `Machine.params` (Machine/Params.lean). -/
structure Config.Params where
  /-- `SR_MIN`, the smallest sample rate PREPARE accepts, Hz -/
  srMin : Nat
  /-- `SR_MAX`, the largest sample rate PREPARE accepts, Hz -/
  srMax : Nat
  /-- `MD_NUM`: `maxDelaySeconds = MD_NUM / MD_DEN` -/
  mdNum : Nat
  /-- `MD_DEN` -/
  mdDen : Nat
  /-- `DL_DEPTH`, words of delay memory per channel -/
  dlDepth : Nat
  /-- `SIN_ERR` in ulps is `sinErrNum / sinErrDen` -/
  sinErrNum : Nat
  /-- see `sinErrNum` -/
  sinErrDen : Nat
  /-- Which of the results that 40_numerics.md R131 permits the block's `SinCycle` gives (U3, U10): a
  function of `t` alone. `Machine.sinCycle` uses it only within the bounds of R131. -/
  sinChoice : F32 → F32

/-- The constraints 00_scope.md R10 puts between the parameters, and `SIN_ERR` a fraction. -/
def Config.Params.valid (p : Config.Params) : Bool :=
  decide (1 ≤ p.srMin) && decide (p.srMin ≤ p.srMax) && decide (p.srMax < 2 ^ 24) && decide (p.dlDepth < 2 ^ 24)
    && decide (1 ≤ p.mdNum) && decide (1 ≤ p.mdDen) && decide (1 ≤ p.sinErrDen)

/-- FREE VALUE (logs 7, 8; 93 U3, U10): the waveform value the block's `SinCycle` gives at a point `t` that is
not a quadrant point. Nothing is known of it; `Machine.sinCycle` keeps it within 40_numerics.md R131. -/
opaque Config.sinFree : F32 → F32

/-- FREE VALUE (log 8): the numerator of `SIN_ERR`, which 00_scope.md R10 leaves `OPEN`. -/
opaque Config.sinErrNum : Nat

/-- FREE VALUE (log 8): one less than the denominator of `SIN_ERR`. -/
opaque Config.sinErrDenPred : Nat

/-- FREE VALUE (logs 2, 3; 10_state.md R40, 70_reset_and_hazards.md R312, 93 U5): the delay-memory word of a
channel at an index after the hardware reset with the given number, before any PREPARE or CLEAR zeroes it. -/
opaque Config.powerOnWord : Nat → Channel → Nat → F32

end Sys2Proof
end

