-- ==== Sys2Proof/Machine/Ports.lean ====
section
/-! DEFINITION. The block's boundary: what arrives at the three inputs and what a control-port transaction gives back
(20_memory.md R64). -/

namespace Sys2Proof.Machine

/-- One transaction presented to the block (20_memory.md R64, R70; 70_reset_and_hazards.md R310): a command word on
the control port, a beat on the sample port, or an assertion of RST. The port it arrives on, never its bits, tells a
word's format (30_encoding.md R93). -/
inductive Transaction where
  | cp (w : PortWord)
  | sp (beat : PortWord)
  | rst
  deriving DecidableEq, Repr

/-- What a control-port transaction gets back (20_memory.md R64): a 32-bit read response, or an acknowledge. -/
inductive CpReply where
  | resp (v : Word)
  | ack
  deriving DecidableEq, Repr

/-- The command words among some transactions, in order: the control port's issue order. -/
def cpWords : List Transaction → List PortWord
  | [] => []
  | .cp w :: ts => w :: cpWords ts
  | .sp _ :: ts => cpWords ts
  | .rst :: ts => cpWords ts

/-- The beats among some transactions, in order: the sample port's issue order. -/
def spBeats : List Transaction → List PortWord
  | [] => []
  | .cp _ :: ts => spBeats ts
  | .sp b :: ts => b :: spBeats ts
  | .rst :: ts => spBeats ts

end Sys2Proof.Machine
end

