-- ==== Sys2Proof/Machine/State.lean ====
section
/-! DEFINITION. The state of the block (10_state.md), the reasons the model can stop, and the state after reset (R43, R310). -/

namespace Sys2Proof.Machine

/-- The two topologies: bit 0 of `MODE`, whose other bits read as 0 (10_state.md R37; log 16). -/
inductive Mode where
  | chorus
  | flanger
  deriving DecidableEq, Repr

/-- A delay memory: (index, word) pairs, indices strictly rising, no word equal to what an unlisted index reads as
(20_memory.md R63: the smallest unit of access is one 32-bit word; log 1). -/
abbrev Memory := List (Nat × F32)

/-- Reasons the model stops with a fault. The block itself never stops (60_exceptions.md R280): each of these is a
precondition of an internal function that every state meeting the invariant of Safety.lean meets (log 12). -/
inductive Fault where
  /-- Raised by MemRead and MemWrite: the index is at or above `DL_DEPTH`, so there is no such word (10_state.md R39). Safe. -/
  | noSuchWord (x : Channel) (i : Nat)
  /-- Raised by MemRead and MemWrite: the index is at or above `C`, outside their precondition (20_memory.md R61, R62). Safe. -/
  | outsideCapacity (x : Channel) (i : Nat)
  /-- Raised by DL_READ_INTERP: the read position is not a finite number `>= 0`, outside the domain of floor
  (40_numerics.md R127). Safe. -/
  | readPosition (r : F32)
  deriving DecidableEq, Repr

/-- Reasons the model refuses an instruction. -/
inductive Refusal where
  /-- Raised by `exec` for an instruction that has no meaning in the model yet. Safe. No arm raises it. -/
  | notModelled (mnemonic : String)
  deriving DecidableEq, Repr

/-- The state of the block, and the model's record of its ports. INVENTORY.md lists each field with its rule. -/
structure State where
  /-- `STATUS.READY` (10_state.md R24) -/
  ready : Bool
  /-- `STATUS.ERR_PREP` (R24) -/
  errPrep : Bool
  /-- `STATUS.ERR_NRDY` (R24) -/
  errNrdy : Bool
  /-- `STATUS.ERR_ACC` (R24) -/
  errAcc : Bool
  /-- `SRATE` (R25) -/
  srate : Word
  /-- `MAXBLK` (R26) -/
  maxblk : Word
  /-- `SR_ACT` (R27) -/
  srAct : Word
  /-- `CAPACITY`, the capacity `C` (R28) -/
  capacity : Word
  /-- `DRYWET` (R32) -/
  dryWet : F32
  /-- `DEPTH` (R33) -/
  depth : F32
  /-- `RATE` (R34) -/
  rate : F32
  /-- `PHASEOFF` (R35) -/
  phaseOff : F32
  /-- `FEEDBACK` (R36) -/
  feedback : F32
  /-- `MODE` (R37) -/
  mode : Mode
  /-- `WH`, read as `WHEAD` (R29) -/
  wh : Word
  /-- `PH`, read as `PHASE` (R30) -/
  ph : F32
  /-- `FBL` (R31) -/
  fbl : F32
  /-- `FBR` (R31) -/
  fbr : F32
  /-- `BUF_L` (R39) -/
  bufL : Memory
  /-- `BUF_R` (R39) -/
  bufR : Memory
  /-- The model's own: PREPARE and CLEAR have zeroed the words below this since the last hardware reset (R40; log 2). -/
  zeroed : Nat
  /-- The model's own: a count of hardware resets, which names the free contents of the memories (R312; log 3). -/
  resets : Nat
  /-- The transactions presented and not yet performed, in the order `<T` of 20_memory.md R70 (log 4). -/
  pending : List Transaction
  /-- What the control port has returned, oldest first (20_memory.md R64, R71; log 6). -/
  cpOut : List CpReply
  /-- The output beats the sample port has returned, oldest first (20_memory.md R64, R71; log 6). -/
  spOut : List PortWord
  deriving DecidableEq, Repr

/-- The state after the power-on reset (10_state.md R43, 70_reset_and_hazards.md R310). -/
def State.reset : State where
  ready := false
  errPrep := false
  errNrdy := false
  errAcc := false
  srate := 0x00000000
  maxblk := 0x00000000
  srAct := 0x00000000
  capacity := 0x00000000
  dryWet := 0x3F000000
  depth := 0x3F000000
  rate := 0x41200000
  phaseOff := 0x00000000
  feedback := 0x3F000000
  mode := .chorus
  wh := 0x00000000
  ph := 0x00000000
  fbl := 0x00000000
  fbr := 0x00000000
  bufL := []
  bufR := []
  zeroed := 0
  resets := 0
  pending := []
  cpOut := []
  spOut := []

end Sys2Proof.Machine
end

