-- ==== Sys2Proof/Machine/Ops.lean ====
section
/-! DEFINITION. The shared operations on memory, ports and status: MemRead and MemWrite (20_memory.md R61, R62), the zeroing of
words, `raise` (60_exceptions.md R282), `resp`, `out` (00_scope.md R15), ILLEGAL (R283) and the hardware reset (R310). -/

namespace Sys2Proof.Machine

/-! ### One delay memory as a list of cells -/

/-- The word listed at an index, if one is. -/
def Memory.lookup : Memory → Nat → Option F32
  | [], _ => none
  | (j, v) :: m, i => if j = i then some v else Memory.lookup m i

/-- The cells with the word at index `i` set to `v`, keeping the indices rising. -/
def Memory.put : Memory → Nat → F32 → Memory
  | [], i, v => [(i, v)]
  | (j, w) :: m, i, v =>
    if i < j then (i, v) :: (j, w) :: m
    else if i = j then (i, v) :: m
    else (j, w) :: Memory.put m i v

/-- The cells without the one at index `i`. -/
def Memory.drop (m : Memory) (i : Nat) : Memory := m.filter fun c => c.1 != i

/-- A write of `v` at index `i`, where an unlisted index `j` reads as `unlisted j`: the value an unlisted index reads as
is not listed. -/
def Memory.write (unlisted : Nat → F32) (m : Memory) (i : Nat) (v : F32) : Memory :=
  if v = unlisted i then Memory.drop m i else Memory.put m i v

/-- The cells once the words below `c` read `+0` unlisted: those below `c` go. -/
def Memory.zeroBelow (m : Memory) (c : Nat) : Memory := m.filter fun e => decide (c ≤ e.1)

/-- Indices strictly rising. -/
def Memory.rising : Memory → Bool
  | [] => true
  | [_] => true
  | a :: b :: m => decide (a.1 < b.1) && Memory.rising (b :: m)

/-- The canonical form: indices strictly rising, no cell equal to what its index reads as unlisted. -/
def Memory.wf (unlisted : Nat → F32) (m : Memory) : Bool :=
  Memory.rising m && m.all fun c => c.2 != unlisted c.1

/-! ### The delay memories in the state -/

/-- A channel's delay memory. -/
def State.buf (s : State) : Channel → Memory
  | .left => s.bufL
  | .right => s.bufR

/-- What an unlisted word of a channel reads as: `+0` where PREPARE or CLEAR has zeroed it since the last hardware reset, and
otherwise a free value (10_state.md R40, 70_reset_and_hazards.md R312; log 2). -/
def unlistedWord (s : State) (x : Channel) (i : Nat) : F32 :=
  if i < s.zeroed then posZero else Config.powerOnWord s.resets x i

/-- The word `BUF_X[i]`. -/
def wordAt (s : State) (x : Channel) (i : Nat) : F32 :=
  (Memory.lookup (s.buf x) i).getD (unlistedWord s x i)

/-- `C`, the capacity in words (10_state.md R28). -/
def capacityNat (s : State) : Nat := s.capacity.toNat

/-- Whether MemRead and MemWrite may access word `i` of channel `x`; otherwise the fault that says why (20_memory.md R60 to R62). -/
def accessFault (p : Config.Params) (s : State) (x : Channel) (i : Nat) : Option Fault :=
  if p.dlDepth ≤ i then some (.noSuchWord x i)
  else if capacityNat s ≤ i then some (.outsideCapacity x i)
  else none

/-- A result that a fault takes the place of, where there is one. -/
def resultUnless {α : Type} (v : α) : Option Fault → Except Fault α
  | none => .ok v
  | some e => .error e

/-- A result, then what is done with it; a fault ends both. -/
def andThen {α β : Type} (a : Except Fault α) (f : α → Except Fault β) : Except Fault β :=
  match a with
  | .ok v => f v
  | .error e => .error e

/-- `MemRead_X(i)` (20_memory.md R61). -/
def memRead (p : Config.Params) (x : Channel) (i : Nat) (s : State) : Except Fault F32 :=
  resultUnless (wordAt s x i) (accessFault p s x i)

/-- The state with `BUF_X[i]` set to `v` and no other word changed (20_memory.md R62, R63). -/
def State.setWord (x : Channel) (i : Nat) (v : F32) (s : State) : State :=
  match x with
  | .left => { s with bufL := Memory.write (unlistedWord s .left) s.bufL i v }
  | .right => { s with bufR := Memory.write (unlistedWord s .right) s.bufR i v }

/-- `MemWrite_X(i, v)` (20_memory.md R62). -/
def memWrite (p : Config.Params) (x : Channel) (i : Nat) (v : F32) (s : State) : Except Fault State :=
  resultUnless (s.setWord x i v) (accessFault p s x i)

/-- `for i in [0, c): BUF_L[i] <- +0; BUF_R[i] <- +0` (41_delay_line.md R155, 44_control.md R241). -/
def State.zeroWords (c : Nat) (s : State) : State :=
  { s with
    bufL := Memory.zeroBelow s.bufL c
    bufR := Memory.zeroBelow s.bufR c
    zeroed := max s.zeroed c }

/-- Both delay memories are in canonical form. -/
def memWf (s : State) : Bool :=
  Memory.wf (unlistedWord s .left) s.bufL && Memory.wf (unlistedWord s .right) s.bufR

/-! ### Errors and replies -/

/-- The three error causes, named by their STATUS bit (60_exceptions.md R286). -/
inductive ErrorBit where
  | prep
  | nrdy
  | acc
  deriving DecidableEq, Repr

/-- `raise ERR_X`: sets the sticky bit and changes nothing else (60_exceptions.md R282). -/
def State.raise (e : ErrorBit) (s : State) : State :=
  match e with
  | .prep => { s with errPrep := true }
  | .nrdy => { s with errNrdy := true }
  | .acc => { s with errAcc := true }

/-- The return of a control-port transaction's reply (20_memory.md R64, R71). -/
def State.reply (r : CpReply) (s : State) : State :=
  { s with cpOut := s.cpOut ++ [r] }

/-- `out <- (l, r)`: one output beat, R in bits 63:32 and L in bits 31:0 (00_scope.md R15, 30_encoding.md R92). -/
def State.emit (l r : F32) (s : State) : State :=
  { s with spOut := s.spOut ++ [r ++ l] }

/-- `ILLEGAL(w)` (60_exceptions.md R283): raises ERR_ACC; an illegal read is answered with 0, any other illegal word acknowledged. -/
def performIllegal (w : PortWord) (s : State) : State :=
  State.reply (if w.extractLsb' 56 8 = (0x01 : BitVec 8) then .resp 0x00000000 else .ack) (s.raise .acc)

/-- `RESET` (70_reset_and_hazards.md R310): every register takes its reset value; the delay memories are not written and their contents
become unspecified, a fresh free value (R312); what the ports have returned stays returned and what is ordered after the
reset stays pending (log 20). -/
def hardwareReset (s : State) : State :=
  { State.reset with
    resets := s.resets + 1
    pending := s.pending
    cpOut := s.cpOut
    spOut := s.spOut }

end Sys2Proof.Machine
end

