-- ==== Sys2Proof/Machine/DelayLine.lean ====
section
/-! DEFINITION. The delay line (41_delay_line.md): DL_WRITE, DL_ADVANCE, DL_READ_INTERP, DL_CLEAR. -/

namespace Sys2Proof.Machine

/-- `CF = toF32(C)` (10_state.md R28). -/
def capacityF (s : State) : F32 := toF32 (capacityNat s)

/-- `DL_WRITE(X, v)`: stores at the write head and does not move it (41_delay_line.md R150). -/
def dlWrite (p : Config.Params) (x : Channel) (v : F32) (s : State) : Except Fault State :=
  memWrite p x s.wh.toNat v s

/-- `(i + 1) mod C` (40_numerics.md R128). -/
def nextIndex (s : State) (i : Nat) : Nat := (i + 1) % capacityNat s

/-- `DL_ADVANCE`: `WH <- (WH + 1) mod C` (41_delay_line.md R151). -/
def dlAdvance (s : State) : State := { s with wh := BitVec.ofNat 32 (nextIndex s s.wh.toNat) }

/-- The read position `r` of a delay `d`: `WH - d`, plus `CF` when negative (41_delay_line.md R152). -/
def readPosition (d : F32) (s : State) : F32 :=
  if ltF (subF (toF32 s.wh.toNat) d) posZero then addF (subF (toF32 s.wh.toNat) d) (capacityF s)
  else subF (toF32 s.wh.toNat) d

/-- The older index of a read whose position has integer part `n`, with the guard for `n = C` (41_delay_line.md R152, 90_conflicts.md C5). -/
def olderIndex (s : State) (n : Nat) : Nat := if n = capacityNat s then 0 else n

/-- The linear interpolation of two words (41_delay_line.md R152). -/
def interpolate (frac u v : F32) : F32 := addF (mulF (subF oneF frac) u) (mulF frac v)

/-- The integer part of a read position, where floor is defined (40_numerics.md R127; log 12). -/
def positionFloor (r : F32) : Option Nat → Except Fault Nat
  | some n => .ok n
  | none => .error (.readPosition r)

/-- The read at a position with integer part `n`: the words at the older index and the one after it, interpolated
(41_delay_line.md R152). -/
def readAround (p : Config.Params) (x : Channel) (r : F32) (n : Nat) (s : State) : Except Fault F32 :=
  andThen (memRead p x (olderIndex s n) s) fun u =>
    andThen (memRead p x (nextIndex s (olderIndex s n)) s) fun v =>
      .ok (interpolate (subF r (toF32 n)) u v)

/-- `DL_READ_INTERP(X, d)` (41_delay_line.md R152). -/
def dlReadInterp (p : Config.Params) (x : Channel) (d : F32) (s : State) : Except Fault F32 :=
  andThen (positionFloor (readPosition d s) (floorF (readPosition d s))) fun n => readAround p x (readPosition d s) n s

/-- `DL_CLEAR`: words `0 .. C-1` of both memories and the write head (41_delay_line.md R155). -/
def dlClear (s : State) : State := { s.zeroWords (capacityNat s) with wh := 0 }

end Sys2Proof.Machine
end

