-- ==== Sys2Proof/Machine/Flags.lean ====
section
/-! DEFINITION. The only flags of the block: the four STATUS bits (10_state.md R24, R41). -/

namespace Sys2Proof.Machine

/-- `STATUS` as a 32-bit value: bit 0 `READY`, bit 1 `ERR_PREP`, bit 2 `ERR_NRDY`, bit 3 `ERR_ACC`, bits 31:4 zero
(10_state.md R24, 44_control.md R223). -/
def statusWord (s : State) : Word :=
  (0 : BitVec 28) ++ BitVec.ofBool s.errAcc ++ BitVec.ofBool s.errNrdy ++ BitVec.ofBool s.errPrep ++ BitVec.ofBool s.ready

/-- The three sticky error bits cleared; `READY` kept (44_control.md R244). -/
def State.clearErrors (s : State) : State :=
  { s with errPrep := false, errNrdy := false, errAcc := false }

end Sys2Proof.Machine
end

