-- ==== Sys2Proof/Machine/Registers.lean ====
section
/-! DEFINITION. The control space: its registers, their addresses and access kinds (30_encoding.md R96; 10_state.md
section 2). -/

namespace Sys2Proof.Machine

/-- The 17 registers of the control space (30_encoding.md R96). -/
inductive Reg where
  | id | ctrl | status | srate | maxblk | srAct | capacity
  | dryWet | depth | rate | phaseOff | feedback | mode
  | whead | phase | fbl | fbr
  deriving DecidableEq, Repr

/-- Access kinds (10_state.md section 2): read-only, write-only, read-write, write-any-read-legal. -/
inductive Access where
  | ro | wo | rw | warl
  deriving DecidableEq, Repr

/-- The byte address of a register (30_encoding.md R96). -/
def regAddr : Reg → BitVec 8
  | .id => 0x00
  | .ctrl => 0x04
  | .status => 0x08
  | .srate => 0x0C
  | .maxblk => 0x10
  | .srAct => 0x14
  | .capacity => 0x18
  | .dryWet => 0x20
  | .depth => 0x24
  | .rate => 0x28
  | .phaseOff => 0x2C
  | .feedback => 0x30
  | .mode => 0x34
  | .whead => 0x40
  | .phase => 0x44
  | .fbl => 0x48
  | .fbr => 0x4C

/-- The access kind of a register (30_encoding.md R96). -/
def regAccess : Reg → Access
  | .id | .status | .srAct | .capacity | .whead | .phase | .fbl | .fbr => .ro
  | .ctrl => .wo
  | .srate | .maxblk => .rw
  | .dryWet | .depth | .rate | .phaseOff | .feedback | .mode => .warl

/-- The registers, in the order of 30_encoding.md R96. -/
def allRegs : List Reg :=
  [.id, .ctrl, .status, .srate, .maxblk, .srAct, .capacity, .dryWet, .depth, .rate, .phaseOff, .feedback, .mode,
   .whead, .phase, .fbl, .fbr]

/-- The register at a byte address; `none` for a reserved or misaligned one (30_encoding.md R96, 20_memory.md R69). -/
def regAt (addr : BitVec 8) : Option Reg :=
  allRegs.find? fun r => regAddr r == addr

end Sys2Proof.Machine
end

