-- ==== Sys2Proof/Machine/Operands.lean ====
section
/-! DEFINITION. Operand forms: the value a register read returns (44_control.md R220), the parameter clamp (40_numerics.md R135), the
`MODE` operand (10_state.md R37) and the byte view of a bridge (20_memory.md R66). -/

namespace Sys2Proof.Machine

/-- `MODE` as a register value (44_control.md R233). -/
def modeWord : Mode → Word
  | .chorus => 0x00000000
  | .flanger => 0x00000001

/-- The topology a `MODE` write stores: only the exact value 1 selects Flanger (10_state.md R37, 44_control.md R253). -/
def modeOf (data : Word) : Mode := if data = 0x00000001 then .flanger else .chorus

/-- `value(reg)`: the 32-bit value a read of the register returns (44_control.md R220 to R237). `ID` is hard-wired (10_state.md R22) and
`CTRL` reads as 0 (R23). -/
def regValue (r : Reg) (s : State) : Word :=
  match r with
  | .id => 0x444C5931
  | .ctrl => 0x00000000
  | .status => statusWord s
  | .srate => s.srate
  | .maxblk => s.maxblk
  | .srAct => s.srAct
  | .capacity => s.capacity
  | .dryWet => s.dryWet
  | .depth => s.depth
  | .rate => s.rate
  | .phaseOff => s.phaseOff
  | .feedback => s.feedback
  | .mode => modeWord s.mode
  | .whead => s.wh
  | .phase => s.ph
  | .fbl => s.fbl
  | .fbr => s.fbr

/-- The five clamped parameters (40_numerics.md R135). -/
inductive Param where
  | dryWet | depth | rate | phaseOff | feedback
  deriving DecidableEq, Repr

/-- `LO_P` (10_state.md R32 to R36). -/
def paramLo : Param → F32
  | .dryWet => 0x00000000
  | .depth => 0x00000000
  | .rate => 0x3DCCCCCD
  | .phaseOff => 0x00000000
  | .feedback => 0x00000000

/-- `HI_P` (10_state.md R32 to R36). -/
def paramHi : Param → F32
  | .dryWet => 0x3F800000
  | .depth => 0x3F800000
  | .rate => 0x41A00000
  | .phaseOff => 0x3F800000
  | .feedback => 0x3F7AE148

/-- `DEFAULT_P` (10_state.md R32 to R36). -/
def paramDefault : Param → F32
  | .dryWet => 0x3F000000
  | .depth => 0x3F000000
  | .rate => 0x41200000
  | .phaseOff => 0x00000000
  | .feedback => 0x3F000000

/-- `Clamp_P(b)` (40_numerics.md R135). -/
def clampParam (q : Param) (b : F32) : F32 :=
  if isNaNF b then paramDefault q
  else if leF b (paramLo q) then paramLo q
  else if geF b (paramHi q) then paramHi q
  else b

/-- The byte that a little-endian bridge shows at a byte address of the control space: byte `a + k` of the register at word
address `a` is bits `8k+7 : 8k` (20_memory.md R66); `none` where no register is (R69). -/
def bridgeByte (addr : BitVec 8) (s : State) : Option (BitVec 8) :=
  (regAt (addr - (addr &&& 3))).map fun r => (regValue r s).extractLsb' (8 * (addr &&& 3).toNat) 8

end Sys2Proof.Machine
end

