-- ==== Sys2Proof/Machine/Params.lean ====
section
/-! DEFINITION. The parameter values of the reference configuration (00_scope.md R10), the machine of Machine/Core.lean. -/

namespace Sys2Proof.Machine

/-- The reference configuration (00_scope.md R10, decisions D6, D12, D13). `SIN_ERR` is OPEN there and stays a free value, and
so does the choice of `SinCycle` within R131 (40_numerics.md R132; logs 7, 8, 11). -/
def params : Config.Params where
  srMin := 1000
  srMax := 384000
  mdNum := 1
  mdDen := 20
  dlDepth := 32768
  sinErrNum := Config.sinErrNum
  sinErrDen := Config.sinErrDenPred + 1
  sinChoice := Config.sinFree

end Sys2Proof.Machine
end

