-- ==== Sys2Proof/Machine/Control.lean ====
section
/-! DEFINITION. The meanings of NOP and the CTRL commands (44_control.md sections 2 and 3). -/

namespace Sys2Proof.Machine

/-- The completion of a control-port transaction that returns no value (20_memory.md R64, R71). -/
def acknowledge (s : State) : Host.Outcome State Fault Refusal := .next (s.reply .ack)

/-- `ceil_div(a, b)` (00_scope.md R12). -/
def ceilDiv (a b : Nat) : Nat := (a + b - 1) / b

/-- The capacity PREPARE computes for a sample rate (44_control.md R241). -/
def prepareCapacity (p : Config.Params) (sr : Nat) : Nat := ceilDiv (sr * p.mdNum) p.mdDen

/-- PREPARE's validity test `ok` (44_control.md R241): the rate is in range, the memories can hold the capacity, and the capacity
covers the largest mapped delay with margin. -/
def prepareOk (p : Config.Params) (sr : Nat) : Bool :=
  decide (p.srMin ≤ sr) && decide (sr ≤ p.srMax)
    && decide (prepareCapacity p sr ≤ p.dlDepth)
    && decide (ceilDiv (3 * sr) 100 + 2 ≤ prepareCapacity p sr)

/-- `WH <- 0; PH <- +0; FBL <- +0; FBR <- +0` (44_control.md R241, R242). -/
def zeroTransient (s : State) : State := { s with wh := 0, ph := posZero, fbl := posZero, fbr := posZero }

/-- The success branch of `CMD_PREPARE` (44_control.md R241). -/
def prepareSuccess (p : Config.Params) (s : State) : State :=
  { s.zeroWords (prepareCapacity p s.srate.toNat) with
    srAct := s.srate
    capacity := BitVec.ofNat 32 (prepareCapacity p s.srate.toNat)
    ready := true }

/-- The failure branch of `CMD_PREPARE` (44_control.md R241, 60_exceptions.md R285). -/
def prepareFailure (s : State) : State :=
  State.raise .prep { s with srAct := 0, capacity := 0, ready := false }

/-- `CMD_PREPARE` under any parameters, less the acknowledge (44_control.md R241). -/
def prepare (p : Config.Params) (s : State) : State :=
  if prepareOk p s.srate.toNat then prepareSuccess p (zeroTransient s) else prepareFailure (zeroTransient s)

/-- `CMD_CLEAR`, less the acknowledge: DL_CLEAR, then phase and feedback (44_control.md R242). -/
def clear (s : State) : State := { dlClear s with ph := posZero, fbl := posZero, fbr := posZero }

/-- `CMD_DEFAULTS`, less the acknowledge (44_control.md R243). -/
def restoreDefaults (s : State) : State :=
  { s with
    dryWet := paramDefault .dryWet
    depth := paramDefault .depth
    rate := paramDefault .rate
    phaseOff := paramDefault .phaseOff
    feedback := paramDefault .feedback
    mode := .chorus }

/-- `NOP` (44_control.md R238): the block acknowledges the word. -/
def execNop (s : State) : Host.Outcome State Fault Refusal := acknowledge s

/-- `CMD_NONE` (44_control.md R245): acknowledged; behaves as NOP but is a different word. -/
def execCmdNone (s : State) : Host.Outcome State Fault Refusal := acknowledge s

/-- `CMD_PREPARE` (44_control.md R241). -/
def execCmdPrepare (s : State) : Host.Outcome State Fault Refusal := acknowledge (prepare params s)

/-- `CMD_CLEAR` (44_control.md R242). -/
def execCmdClear (s : State) : Host.Outcome State Fault Refusal := acknowledge (clear s)

/-- `CMD_DEFAULTS` (44_control.md R243). -/
def execCmdDefaults (s : State) : Host.Outcome State Fault Refusal := acknowledge (restoreDefaults s)

/-- `CMD_ERRCLR` (44_control.md R244). -/
def execCmdErrclr (s : State) : Host.Outcome State Fault Refusal := acknowledge s.clearErrors

end Sys2Proof.Machine
end

