-- ==== Sys2Proof/Machine/Reads.lean ====
section
/-! DEFINITION. The meanings of the register reads (44_control.md section 1). -/

namespace Sys2Proof.Machine

/-- `RD_<reg>`: responds with the register's value and changes no state of the block (44_control.md R220). -/
def readReg (r : Reg) (s : State) : Host.Outcome State Fault Refusal := .next (s.reply (.resp (regValue r s)))

/-- 44_control.md R221. -/
def execRdId (s : State) : Host.Outcome State Fault Refusal := readReg .id s

/-- 44_control.md R222. -/
def execRdCtrl (s : State) : Host.Outcome State Fault Refusal := readReg .ctrl s

/-- 44_control.md R223. -/
def execRdStatus (s : State) : Host.Outcome State Fault Refusal := readReg .status s

/-- 44_control.md R224. -/
def execRdSrate (s : State) : Host.Outcome State Fault Refusal := readReg .srate s

/-- 44_control.md R225. -/
def execRdMaxblk (s : State) : Host.Outcome State Fault Refusal := readReg .maxblk s

/-- 44_control.md R226. -/
def execRdSrAct (s : State) : Host.Outcome State Fault Refusal := readReg .srAct s

/-- 44_control.md R227. -/
def execRdCapacity (s : State) : Host.Outcome State Fault Refusal := readReg .capacity s

/-- 44_control.md R228. -/
def execRdDrywet (s : State) : Host.Outcome State Fault Refusal := readReg .dryWet s

/-- 44_control.md R229. -/
def execRdDepth (s : State) : Host.Outcome State Fault Refusal := readReg .depth s

/-- 44_control.md R230. -/
def execRdRate (s : State) : Host.Outcome State Fault Refusal := readReg .rate s

/-- 44_control.md R231. -/
def execRdPhaseoff (s : State) : Host.Outcome State Fault Refusal := readReg .phaseOff s

/-- 44_control.md R232. -/
def execRdFeedback (s : State) : Host.Outcome State Fault Refusal := readReg .feedback s

/-- 44_control.md R233. -/
def execRdMode (s : State) : Host.Outcome State Fault Refusal := readReg .mode s

/-- 44_control.md R234. -/
def execRdWhead (s : State) : Host.Outcome State Fault Refusal := readReg .whead s

/-- 44_control.md R235. -/
def execRdPhase (s : State) : Host.Outcome State Fault Refusal := readReg .phase s

/-- 44_control.md R236. -/
def execRdFbl (s : State) : Host.Outcome State Fault Refusal := readReg .fbl s

/-- 44_control.md R237. -/
def execRdFbr (s : State) : Host.Outcome State Fault Refusal := readReg .fbr s

end Sys2Proof.Machine
end

