-- ==== Sys2Proof/Machine/Sine.lean ====
section
/-! DEFINITION. The LFO waveform SinCycle (40_numerics.md R131, R132): exact at the quadrant points, elsewhere a free value of
`t` kept within the bounds the rule guarantees. The sine those bounds refer to is computed in fixed point. -/

namespace Sys2Proof.Machine

/-- Bits after the binary point of the fixed-point sine. -/
def sineBits : Nat := 250

/-- `floor(2π · 2^sineBits)`. -/
def twoPiFixed : Nat :=
  11367861777867697633757341961804058207918543041512263436211629722435590452068

/-- The Taylor series of the sine in fixed point, from the term `x^(2k-1)/(2k-1)!` on: `x2` is the square of the angle,
`term` the current term; `fuel` bounds the number of terms. -/
def sineSeries : (fuel k x2 term : Nat) → Int
  | 0, _, _, _ => 0
  | fuel + 1, k, x2, term =>
    (term : Int) - sineSeries fuel (k + 1) x2 (term * x2 / 2 ^ sineBits / ((2 * k) * (2 * k + 1)))

/-- The fixed-point sine of `2π · u / 2^149` for `u <= 2^147`, a quarter cycle; a sine is at most 1. -/
def quarterSine (u : Nat) : Nat :=
  min (sineSeries 40 1 (twoPiFixed * u / unitF * (twoPiFixed * u / unitF) / 2 ^ sineBits) (twoPiFixed * u / unitF)).toNat
    (2 ^ sineBits)

/-- The magnitude of `sin(2π · m · 2^-149)` in fixed point: the half cycle is folded onto the first quarter (log 9). -/
def sineMag (m : Nat) : Nat :=
  if m % 2 ^ 148 ≤ 2 ^ 147 then quarterSine (m % 2 ^ 148) else quarterSine (2 ^ 148 - m % 2 ^ 148)

/-- Whether `sin(2π · m · 2^-149)` lies in a negative half cycle. -/
def sineNeg (m : Nat) : Bool := decide (2 ^ 148 ≤ m % 2 ^ 149)

/-- What the fixed-point sine is divided by to count units of 2^-149. -/
def sineDen : Nat := 2 ^ (sineBits - 149)

/-- The sine rounded to nearest, ties to even: what `SinCycle` is in the reference configuration `SIN_ERR = 0.5`
(40_numerics.md R131 property 3). -/
def sineRounded (m : Nat) : F32 := packF (sineNeg m) (roundPat (sineMag m) sineDen)

/-- How far the fixed-point sine may be from the exact one, in its last place: ample, since its error is below 2^8 (log 9). -/
def sineSlack : Nat := 2 ^ 20

/-- The fixed-point sine of `m · 2^-149` cycles, signed. -/
def sineFixed (m : Nat) : Int := if sineNeg m then -(sineMag m : Int) else (sineMag m : Int)

/-- Whether 40_numerics.md R131 properties 2 and 3 may permit `v` as `SinCycle` at `m · 2^-149`: in `[-1, 1]`, and at most `SIN_ERR`
units in the last place of the exact value away from it. The exact value is known to within the slack, which is counted in `v`'s favour
in the distance and in the unit alike, so that nothing R131 permits is refused (log 9). -/
def sinePermitted (p : Config.Params) (m : Nat) (v : F32) : Bool :=
  decide (absPat v ≤ absPat oneF)
    && decide ((valF v * sineDen - sineFixed m).natAbs * p.sinErrDen
        ≤ p.sinErrNum * (2 ^ ulpExp (sineMag m + sineSlack) sineDen * sineDen) + p.sinErrDen * sineSlack)

/-- `SinCycle(k/4)` (40_numerics.md R131 property 1). -/
def quadrantSine (k : Nat) : F32 :=
  if k % 4 = 1 then oneF else if k % 4 = 3 then negF oneF else posZero

/-- Whether `t` is in `[0, 2]`, the domain 40_numerics.md R131 speaks of. -/
def inSineDomain (t : F32) : Bool := leF posZero t && leF t 0x40000000

/-- `SinCycle(t)` (40_numerics.md R131): at a quadrant point the exact value; elsewhere in `[0, 2]` the configuration's choice where
R131 permits it, and otherwise the correctly rounded sine, which R131 permits whenever `SIN_ERR` is at least 0.5; outside
`[0, 2]`, where R131 says nothing, the configuration's choice (log 10). It depends on `t` alone. -/
@[irreducible] def sinCycle (p : Config.Params) (t : F32) : F32 :=
  if inSineDomain t then
    if magF t % 2 ^ 147 = 0 then quadrantSine (magF t / 2 ^ 147)
    else if sinePermitted p (magF t) (p.sinChoice t) then p.sinChoice t
    else sineRounded (magF t)
  else p.sinChoice t

end Sys2Proof.Machine
end

