-- ==== Sys2Proof/Machine/Oscillator.lean ====
section
/-! DEFINITION. The modulation oscillator (42_oscillator.md): LFO_VALUE, LFO_INC, LFO_ADVANCE. -/

namespace Sys2Proof.Machine

/-- `SRF = toF32(SR_ACT)` (10_state.md R27). -/
def sampleRateF (s : State) : F32 := toF32 s.srAct.toNat

/-- `LFO_VALUE(off)` (42_oscillator.md R170). -/
def lfoValue (p : Config.Params) (off : F32) (s : State) : F32 := sinCycle p (addF s.ph off)

/-- `LFO_INC`: `RATE ⊘ SRF` (42_oscillator.md R171). -/
def lfoInc (rate : F32) (s : State) : F32 := divF rate (sampleRateF s)

/-- The phase after `ph` with increment `inc`: the wrap test is `>= 1.0` (42_oscillator.md R172, 90_conflicts.md C3). -/
def nextPhase (ph inc : F32) : F32 :=
  if geF (addF ph inc) oneF then subF (addF ph inc) oneF else addF ph inc

/-- `LFO_ADVANCE(inc)` (42_oscillator.md R172). -/
def lfoAdvance (inc : F32) (s : State) : State := { s with ph := nextPhase s.ph inc }

end Sys2Proof.Machine
end

