-- ==== Sys2Proof/Machine/Engine.lean ====
section
/-! DEFINITION. The datapath functions of the sample engine (43_sample_engine.md R190 to R196): the modulation-time mapper, the
feedback accumulator, the mixer. -/

namespace Sys2Proof.Machine

/-- `LO_M`, the topology's low bound in seconds (43_sample_engine.md R190). -/
def mapLo : Mode → F32
  | .chorus => 0x3BA3D70A
  | .flanger => 0x3A83126F

/-- `W_M`, the topology's width in seconds (43_sample_engine.md R190). -/
def mapWidth : Mode → F32
  | .chorus => 0x3CCCCCCC
  | .flanger => 0x3B83126E

/-- `a`, the scaled LFO value plus one: `(lfo ⊗ depth) ⊕ 1.0` (43_sample_engine.md R191, steps 1 and 2). With `depth = 0` it is 1.0 whatever
`lfo` is, as R191's corner case says, and is answered so without looking at `lfo` (log 23). The two forms agree for every
finite `lfo`, the only values `SinCycle` has. -/
def mapSum (lfo depth : F32) : F32 := if isZeroF depth then oneF else addF (mulF lfo depth) oneF

/-- The delay in seconds that `MAP_DELAY` maps an LFO value to (43_sample_engine.md R191, steps 1 and 2). -/
def mapSeconds (lfo depth : F32) (mode : Mode) : F32 :=
  addF (mapLo mode) (mulF (mulF (mapSum lfo depth) halfF) (mapWidth mode))

/-- `MAP_DELAY(lfo, depth, mode)`, in samples (43_sample_engine.md R191). -/
def mapDelay (lfo depth : F32) (mode : Mode) (s : State) : F32 :=
  mulF (mapSeconds lfo depth mode) (sampleRateF s)

/-- `FB_X`: `FBL` for the left channel, `FBR` for the right (43_sample_engine.md R194). -/
def feedbackOf (x : Channel) (s : State) : F32 :=
  match x with
  | .left => s.fbl
  | .right => s.fbr

/-- `FB_UPDATE(X, y, k)`: `FB_X <- y ⊗ k` (43_sample_engine.md R194). -/
def fbUpdate (x : Channel) (y k : F32) (s : State) : State :=
  match x with
  | .left => { s with fbl := mulF y k }
  | .right => { s with fbr := mulF y k }

/-- `MIX(in, y, dw)` (43_sample_engine.md R195). -/
def mix (input y dw : F32) : F32 := addF (mulF input (subF oneF dw)) (mulF y dw)

/-- `WRITE_VALUE(X, in)`: `in ⊕ FB_X` (43_sample_engine.md R196). -/
def writeValue (x : Channel) (input : F32) (s : State) : F32 := addF input (feedbackOf x s)

/-- The parameter values a sample step uses, each read once at its start (43_sample_engine.md R200 step 0, 10_state.md R42). It lives within
one operation and is no state. -/
structure Snapshot where
  dryWet : F32
  depth : F32
  rate : F32
  phaseOff : F32
  feedback : F32
  mode : Mode
  deriving DecidableEq, Repr

/-- The snapshot of step 0 (43_sample_engine.md R200). -/
def snapshot (s : State) : Snapshot where
  dryWet := s.dryWet
  depth := s.depth
  rate := s.rate
  phaseOff := s.phaseOff
  feedback := s.feedback
  mode := s.mode

end Sys2Proof.Machine
end

