-- ==== Sys2Proof/Machine/Sample.lean ====
section
/-! DEFINITION. The meaning of SAMPLE (43_sample_engine.md R200). -/

namespace Sys2Proof.Machine

/-- The phase advance and the two writes of a prepared step: steps 4 and 5 of 43_sample_engine.md R200. -/
def sampleWrites (p : Config.Params) (q : Snapshot) (inL inR : F32) (s : State) : Except Fault State :=
  andThen (dlWrite p .left (writeValue .left inL s) (lfoAdvance (lfoInc q.rate s) s)) fun s1 =>
    dlWrite p .right (writeValue .right inR s1) s1

/-- Steps 7 to 9 of 43_sample_engine.md R200: feedback, write-head advance, output. -/
def sampleFinish (q : Snapshot) (inL inR yL yR : F32) (s : State) : State :=
  State.emit (mix inL yL q.dryWet) (mix inR yR q.dryWet)
    (dlAdvance (fbUpdate .right yR q.feedback (fbUpdate .left yL q.feedback s)))

/-- Steps 6 to 9 of 43_sample_engine.md R200, with the delays of step 3. -/
def sampleReads (p : Config.Params) (q : Snapshot) (inL inR dL dR : F32) (s : State) : Except Fault State :=
  andThen (dlReadInterp p .left dL s) fun yL =>
    andThen (dlReadInterp p .right dR s) fun yR =>
      .ok (sampleFinish q inL inR yL yR s)

/-- The delay of a channel: steps 1 to 3 of 43_sample_engine.md R200. -/
def channelDelay (p : Config.Params) (q : Snapshot) (x : Channel) (s : State) : F32 :=
  match x with
  | .left => mapDelay (lfoValue p posZero s) q.depth q.mode s
  | .right => mapDelay (lfoValue p q.phaseOff s) q.depth q.mode s

/-- A sample step while `READY = 1`: steps 1 to 9 of 43_sample_engine.md R200. -/
def samplePrepared (p : Config.Params) (inL inR : F32) (s : State) : Except Fault State :=
  andThen (sampleWrites p (snapshot s) inL inR s) fun s1 =>
    sampleReads p (snapshot s) inL inR (channelDelay p (snapshot s) .left s) (channelDelay p (snapshot s) .right s) s1

/-- A sample step while `READY = 0`: ERR_NRDY, and the input patterns unchanged as output (43_sample_engine.md R200 step 0, 60_exceptions.md R284). -/
def sampleBypass (inL inR : F32) (s : State) : State := State.emit inL inR (s.raise .nrdy)

/-- A result of the datapath as an outcome of a step. -/
def outcomeOf : Except Fault State → Host.Outcome State Fault Refusal
  | .ok s => .next s
  | .error e => .fault e

/-- `SAMPLE(inL, inR)` under any parameters (43_sample_engine.md R200). -/
def sampleStep (p : Config.Params) (inL inR : F32) (s : State) : Host.Outcome State Fault Refusal :=
  if s.ready then outcomeOf (samplePrepared p inL inR s) else .next (sampleBypass inL inR s)

/-- `SAMPLE` (43_sample_engine.md R200). -/
def execSample (inL inR : F32) (s : State) : Host.Outcome State Fault Refusal := sampleStep params inL inR s

end Sys2Proof.Machine
end

