-- ==== Sys2Proof/Machine/Writes.lean ====
section
/-! DEFINITION. The meanings of the register writes (44_control.md section 4): each changes its own register, and the write is
acknowledged. -/

namespace Sys2Proof.Machine

/-- A clamped parameter register takes a value (10_state.md R32 to R36). -/
def State.setParam (q : Param) (v : F32) (s : State) : State :=
  match q with
  | .dryWet => { s with dryWet := v }
  | .depth => { s with depth := v }
  | .rate => { s with rate := v }
  | .phaseOff => { s with phaseOff := v }
  | .feedback => { s with feedback := v }

/-- A write to a clamped parameter register stores `Clamp_P` of the written pattern (40_numerics.md R135, 30_encoding.md R98). -/
def writeParam (q : Param) (data : Word) (s : State) : Host.Outcome State Fault Refusal :=
  acknowledge (s.setParam q (clampParam q data))

/-- `WR_SRATE` (44_control.md R246): stored as written. -/
def execWrSrate (data : Word) (s : State) : Host.Outcome State Fault Refusal := acknowledge { s with srate := data }

/-- `WR_MAXBLK` (44_control.md R247): stored as written. -/
def execWrMaxblk (data : Word) (s : State) : Host.Outcome State Fault Refusal := acknowledge { s with maxblk := data }

/-- `WR_DRYWET` (44_control.md R248). -/
def execWrDrywet (data : Word) (s : State) : Host.Outcome State Fault Refusal := writeParam .dryWet data s

/-- `WR_DEPTH` (44_control.md R249). -/
def execWrDepth (data : Word) (s : State) : Host.Outcome State Fault Refusal := writeParam .depth data s

/-- `WR_RATE` (44_control.md R250). -/
def execWrRate (data : Word) (s : State) : Host.Outcome State Fault Refusal := writeParam .rate data s

/-- `WR_PHASEOFF` (44_control.md R251). -/
def execWrPhaseoff (data : Word) (s : State) : Host.Outcome State Fault Refusal := writeParam .phaseOff data s

/-- `WR_FEEDBACK` (44_control.md R252). -/
def execWrFeedback (data : Word) (s : State) : Host.Outcome State Fault Refusal := writeParam .feedback data s

/-- `WR_MODE` (44_control.md R253). -/
def execWrMode (data : Word) (s : State) : Host.Outcome State Fault Refusal := acknowledge { s with mode := modeOf data }

end Sys2Proof.Machine
end

