-- ==== Sys2Proof/Syntax.lean ====
section
/-! DEFINITION. The instructions of DLCORE: one constructor per row of spec/opcode_table.json (30_encoding.md R95). -/

namespace Sys2Proof

/-- The 32 instructions (30_encoding.md R95). A word that the control-port decoder calls ILLEGAL is no
instruction (R94, R97): Machine/Step.lean performs it as 60_exceptions.md R283 says. -/
inductive Instr where
  /-- R238 -/
  | nop
  /-- R221 -/
  | rdId
  /-- R222 -/
  | rdCtrl
  /-- R223 -/
  | rdStatus
  /-- R224 -/
  | rdSrate
  /-- R225 -/
  | rdMaxblk
  /-- R226 -/
  | rdSrAct
  /-- R227 -/
  | rdCapacity
  /-- R228 -/
  | rdDrywet
  /-- R229 -/
  | rdDepth
  /-- R230 -/
  | rdRate
  /-- R231 -/
  | rdPhaseoff
  /-- R232 -/
  | rdFeedback
  /-- R233 -/
  | rdMode
  /-- R234 -/
  | rdWhead
  /-- R235 -/
  | rdPhase
  /-- R236 -/
  | rdFbl
  /-- R237 -/
  | rdFbr
  /-- R245 -/
  | cmdNone
  /-- R241 -/
  | cmdPrepare
  /-- R242 -/
  | cmdClear
  /-- R243 -/
  | cmdDefaults
  /-- R244 -/
  | cmdErrclr
  /-- R246; `data` is DATA[31:0] -/
  | wrSrate (data : Word)
  /-- R247 -/
  | wrMaxblk (data : Word)
  /-- R248 -/
  | wrDrywet (data : Word)
  /-- R249 -/
  | wrDepth (data : Word)
  /-- R250 -/
  | wrRate (data : Word)
  /-- R251 -/
  | wrPhaseoff (data : Word)
  /-- R252 -/
  | wrFeedback (data : Word)
  /-- R253 -/
  | wrMode (data : Word)
  /-- R200; `inL` is bits 31:0 of the beat, `inR` bits 63:32 (R92) -/
  | sample (inL inR : F32)
  deriving DecidableEq, Repr

end Sys2Proof
end

