-- ==== Sys2Proof/Machine/Dispatch.lean ====
section
/-! DEFINITION. Which meaning each instruction has: one arm per constructor of Instr. -/

namespace Sys2Proof.Machine

def exec (i : Instr) (s : State) : Host.Outcome State Fault Refusal :=
  match i with
  | .nop => Sys2Proof.Machine.execNop s
  | .rdId => Sys2Proof.Machine.execRdId s
  | .rdCtrl => Sys2Proof.Machine.execRdCtrl s
  | .rdStatus => Sys2Proof.Machine.execRdStatus s
  | .rdSrate => Sys2Proof.Machine.execRdSrate s
  | .rdMaxblk => Sys2Proof.Machine.execRdMaxblk s
  | .rdSrAct => Sys2Proof.Machine.execRdSrAct s
  | .rdCapacity => Sys2Proof.Machine.execRdCapacity s
  | .rdDrywet => Sys2Proof.Machine.execRdDrywet s
  | .rdDepth => Sys2Proof.Machine.execRdDepth s
  | .rdRate => Sys2Proof.Machine.execRdRate s
  | .rdPhaseoff => Sys2Proof.Machine.execRdPhaseoff s
  | .rdFeedback => Sys2Proof.Machine.execRdFeedback s
  | .rdMode => Sys2Proof.Machine.execRdMode s
  | .rdWhead => Sys2Proof.Machine.execRdWhead s
  | .rdPhase => Sys2Proof.Machine.execRdPhase s
  | .rdFbl => Sys2Proof.Machine.execRdFbl s
  | .rdFbr => Sys2Proof.Machine.execRdFbr s
  | .cmdNone => Sys2Proof.Machine.execCmdNone s
  | .cmdPrepare => Sys2Proof.Machine.execCmdPrepare s
  | .cmdClear => Sys2Proof.Machine.execCmdClear s
  | .cmdDefaults => Sys2Proof.Machine.execCmdDefaults s
  | .cmdErrclr => Sys2Proof.Machine.execCmdErrclr s
  | .wrSrate data => Sys2Proof.Machine.execWrSrate data s
  | .wrMaxblk data => Sys2Proof.Machine.execWrMaxblk data s
  | .wrDrywet data => Sys2Proof.Machine.execWrDrywet data s
  | .wrDepth data => Sys2Proof.Machine.execWrDepth data s
  | .wrRate data => Sys2Proof.Machine.execWrRate data s
  | .wrPhaseoff data => Sys2Proof.Machine.execWrPhaseoff data s
  | .wrFeedback data => Sys2Proof.Machine.execWrFeedback data s
  | .wrMode data => Sys2Proof.Machine.execWrMode data s
  | .sample inL inR => Sys2Proof.Machine.execSample inL inR s

end Sys2Proof.Machine
end

