-- ==== Sys2Proof/WellFormed.lean ====
section
/-! DEFINITION. Which control-port words are legal: the eight kinds of illegal word of 30_encoding.md R97, each a check of
its own, written apart from the decoder; and the well-formedness of an instruction. -/

namespace Sys2Proof

/-- `OPC`, bits 63:56 of a command word (30_encoding.md R90). -/
def CpWord.opc (w : PortWord) : BitVec 8 := w.extractLsb' 56 8

/-- `RSV`, bits 55:40 (R90). -/
def CpWord.rsv (w : PortWord) : BitVec 16 := w.extractLsb' 40 16

/-- `ADDR`, bits 39:32 (R90). -/
def CpWord.addr (w : PortWord) : BitVec 8 := w.extractLsb' 32 8

/-- `DATA`, bits 31:0 (R90). -/
def CpWord.data (w : PortWord) : Word := w.extractLsb' 0 32

/-- R97 kind 1: `OPC = 0x00` with any other bit set. -/
def CpWord.badNop (w : PortWord) : Bool := CpWord.opc w == 0x00 && w != 0

/-- R97 kind 2: `OPC` from 0x03 to 0xFF. -/
def CpWord.badOpc (w : PortWord) : Bool := decide (3 ≤ (CpWord.opc w).toNat)

/-- R97 kind 3: `RSV != 0`. -/
def CpWord.badRsv (w : PortWord) : Bool := CpWord.rsv w != 0

/-- R97 kind 4: `ADDR[1:0] != 0b00`. -/
def CpWord.misaligned (w : PortWord) : Bool := (CpWord.addr w).extractLsb' 0 2 != 0

/-- R97 kind 5: `ADDR` reserved. -/
def CpWord.reservedAddr (w : PortWord) : Bool := (Machine.regAt (CpWord.addr w)).isNone

/-- R97 kind 6: RD with `DATA != 0`. -/
def CpWord.readWithData (w : PortWord) : Bool := CpWord.opc w == 0x01 && CpWord.data w != 0

/-- R97 kind 7: WR to an RO register. -/
def CpWord.writeToReadOnly (w : PortWord) : Bool :=
  CpWord.opc w == 0x02 && (Machine.regAt (CpWord.addr w)).any fun r => Machine.regAccess r == .ro

/-- R97 kind 8: WR to `CTRL` with a value other than 0x0, 0x1, 0x2, 0x4 or 0x8. -/
def CpWord.badCommand (w : PortWord) : Bool :=
  CpWord.opc w == 0x02 && Machine.regAt (CpWord.addr w) == some .ctrl
    && !([0x0, 0x1, 0x2, 0x4, 0x8].contains (CpWord.data w))

/-- A command word is well-formed when it is of none of the eight kinds of 30_encoding.md R97. -/
def CpWord.wf (w : PortWord) : Bool :=
  !(CpWord.badNop w || CpWord.badOpc w || CpWord.badRsv w || CpWord.misaligned w || CpWord.reservedAddr w
    || CpWord.readWithData w || CpWord.writeToReadOnly w || CpWord.badCommand w)

/-- Every instruction is well-formed whatever its operands: the reads, commands and NOP have none, a register write takes
any DATA (30_encoding.md R98, 44_control.md section 4) and a beat any pattern (R92). The checks are on words, above. -/
def Instr.wf : Instr → Bool
  | .nop | .rdId | .rdCtrl | .rdStatus | .rdSrate | .rdMaxblk | .rdSrAct | .rdCapacity => true
  | .rdDrywet | .rdDepth | .rdRate | .rdPhaseoff | .rdFeedback | .rdMode => true
  | .rdWhead | .rdPhase | .rdFbl | .rdFbr => true
  | .cmdNone | .cmdPrepare | .cmdClear | .cmdDefaults | .cmdErrclr => true
  | .wrSrate _ | .wrMaxblk _ | .wrDrywet _ | .wrDepth _ | .wrRate _ | .wrPhaseoff _ | .wrFeedback _ | .wrMode _ => true
  | .sample _ _ => true

end Sys2Proof
end

