-- ==== Sys2Proof/Decode.lean ====
section
/-! DEFINITION. The decoders of the two ports (30_encoding.md R92, R94) and the encoder (R90, R92, R96, R99). -/

namespace Sys2Proof

/-- Why the control-port decoder calls a word ILLEGAL: the kinds of 30_encoding.md R97, in its numbering. A word of several
kinds is named by the first test of R94 that catches it; the effect of all kinds is one (60_exceptions.md R283). -/
inductive IllegalKind where
  | nopWithBits
  | opcode
  | reservedBits
  | misaligned
  | reservedAddress
  | readWithData
  | writeToReadOnly
  | badCommand
  deriving DecidableEq, Repr

/-- `RD_<register>` (30_encoding.md R95). -/
def readInstr : Machine.Reg → Instr
  | .id => .rdId
  | .ctrl => .rdCtrl
  | .status => .rdStatus
  | .srate => .rdSrate
  | .maxblk => .rdMaxblk
  | .srAct => .rdSrAct
  | .capacity => .rdCapacity
  | .dryWet => .rdDrywet
  | .depth => .rdDepth
  | .rate => .rdRate
  | .phaseOff => .rdPhaseoff
  | .feedback => .rdFeedback
  | .mode => .rdMode
  | .whead => .rdWhead
  | .phase => .rdPhase
  | .fbl => .rdFbl
  | .fbr => .rdFbr

/-- The command a `CTRL` write selects (30_encoding.md R94, 44_control.md R240). -/
def commandInstr (data : Word) : Except IllegalKind Instr :=
  if data = 0x0 then .ok .cmdNone
  else if data = 0x1 then .ok .cmdPrepare
  else if data = 0x2 then .ok .cmdClear
  else if data = 0x4 then .ok .cmdDefaults
  else if data = 0x8 then .ok .cmdErrclr
  else .error .badCommand

/-- `WR_<register>` with its operand, or a command, or the refusal of a write to an RO register (R94). -/
def writeInstr (r : Machine.Reg) (data : Word) : Except IllegalKind Instr :=
  match r with
  | .ctrl => commandInstr data
  | .srate => .ok (.wrSrate data)
  | .maxblk => .ok (.wrMaxblk data)
  | .dryWet => .ok (.wrDrywet data)
  | .depth => .ok (.wrDepth data)
  | .rate => .ok (.wrRate data)
  | .phaseOff => .ok (.wrPhaseoff data)
  | .feedback => .ok (.wrFeedback data)
  | .mode => .ok (.wrMode data)
  | .id | .status | .srAct | .capacity | .whead | .phase | .fbl | .fbr => .error .writeToReadOnly

/-- The control-port decoder of 30_encoding.md R94, total on 64-bit words, test by test in R94's order. -/
def decodeCp (w : PortWord) : Except IllegalKind Instr :=
  if w = 0 then .ok .nop
  else if CpWord.rsv w ≠ 0 then .error .reservedBits
  else if (CpWord.addr w).extractLsb' 0 2 ≠ 0 then .error .misaligned
  else match Machine.regAt (CpWord.addr w) with
    | none => .error .reservedAddress
    | some r =>
      if CpWord.opc w = 0x01 then
        if CpWord.data w ≠ 0 then .error .readWithData else .ok (readInstr r)
      else if CpWord.opc w = 0x02 then writeInstr r (CpWord.data w)
      else if CpWord.opc w = 0x00 then .error .nopWithBits
      else .error .opcode

/-- The sample-port decoder: every beat is a SAMPLE (30_encoding.md R92, R94). -/
def decodeSp (beat : PortWord) : Instr :=
  .sample (beat.extractLsb' 0 32) (beat.extractLsb' 32 32)

/-- A sample-port beat from its two lanes: R in bits 63:32, L in bits 31:0 (30_encoding.md R92). -/
def beatOf (l r : F32) : PortWord := r ++ l

/-- A command word from its fields (30_encoding.md R90). -/
def cpWordOf (opc : BitVec 8) (addr : BitVec 8) (data : Word) : PortWord :=
  opc ++ (0 : BitVec 16) ++ addr ++ data

/-- The word `RD <reg>` (30_encoding.md R99). -/
def readWord (r : Machine.Reg) : PortWord := cpWordOf 0x01 (Machine.regAddr r) 0

/-- The word `WR <reg>, data` (30_encoding.md R99). -/
def writeWord (r : Machine.Reg) (data : Word) : PortWord := cpWordOf 0x02 (Machine.regAddr r) data

/-- The transaction that carries an instruction: its word on its port (30_encoding.md R90, R92, R96, R99). -/
def encode : Instr → Machine.Transaction
  | .nop => .cp 0
  | .rdId => .cp (readWord .id)
  | .rdCtrl => .cp (readWord .ctrl)
  | .rdStatus => .cp (readWord .status)
  | .rdSrate => .cp (readWord .srate)
  | .rdMaxblk => .cp (readWord .maxblk)
  | .rdSrAct => .cp (readWord .srAct)
  | .rdCapacity => .cp (readWord .capacity)
  | .rdDrywet => .cp (readWord .dryWet)
  | .rdDepth => .cp (readWord .depth)
  | .rdRate => .cp (readWord .rate)
  | .rdPhaseoff => .cp (readWord .phaseOff)
  | .rdFeedback => .cp (readWord .feedback)
  | .rdMode => .cp (readWord .mode)
  | .rdWhead => .cp (readWord .whead)
  | .rdPhase => .cp (readWord .phase)
  | .rdFbl => .cp (readWord .fbl)
  | .rdFbr => .cp (readWord .fbr)
  | .cmdNone => .cp (writeWord .ctrl 0x0)
  | .cmdPrepare => .cp (writeWord .ctrl 0x1)
  | .cmdClear => .cp (writeWord .ctrl 0x2)
  | .cmdDefaults => .cp (writeWord .ctrl 0x4)
  | .cmdErrclr => .cp (writeWord .ctrl 0x8)
  | .wrSrate v => .cp (writeWord .srate v)
  | .wrMaxblk v => .cp (writeWord .maxblk v)
  | .wrDrywet v => .cp (writeWord .dryWet v)
  | .wrDepth v => .cp (writeWord .depth v)
  | .wrRate v => .cp (writeWord .rate v)
  | .wrPhaseoff v => .cp (writeWord .phaseOff v)
  | .wrFeedback v => .cp (writeWord .feedback v)
  | .wrMode v => .cp (writeWord .mode v)
  | .sample l r => .sp (beatOf l r)

/-- What a transaction decodes to, by the port it arrives on (30_encoding.md R93): an instruction, an ILLEGAL word with its
kind, or (for RST, which carries no word) nothing. -/
def decodeTransaction : Machine.Transaction → Option (Except IllegalKind Instr)
  | .cp w => some (decodeCp w)
  | .sp b => some (.ok (decodeSp b))
  | .rst => none

/-- The transaction of the table's row that a word of `nbits` bits belongs to (log 14). A row that gives the word no
OPC field (fewer than 64 bits) is SAMPLE's. A 64-bit word is a control-port word where the control port's decoder takes
it, and otherwise a beat: of the table's rows only SAMPLE's fits it. -/
def tableTransaction (nbits w : Nat) : Machine.Transaction :=
  if nbits < 64 ∨ (decodeCp (BitVec.ofNat 64 w)).toBool = false then .sp (BitVec.ofNat 64 w)
  else .cp (BitVec.ofNat 64 w)

/-- The host's question: the instruction the decoder reads from the word `w` of a row of spec/opcode_table.json. -/
def decodeTableWord (nbits w : Nat) : Option Instr :=
  match decodeTransaction (tableTransaction nbits w) with
  | some (.ok i) => some i
  | _ => none

end Sys2Proof
end

