-- ==== Sys2Proof/Machine/Fetch.lean ====
section
/-! DEFINITION. Which transaction the block performs next, and what it decodes to (20_memory.md R70, 30_encoding.md R93, R94). -/

namespace Sys2Proof.Machine

/-- What the block does next: nothing is pending, a hardware reset, an ILLEGAL control-port word with its kind, or an
instruction. -/
inductive Fetched where
  | idle
  | reset
  | illegal (w : PortWord) (k : IllegalKind)
  | instr (i : Instr)
  deriving DecidableEq, Repr

/-- What a control-port word asks for, from what it decodes to (30_encoding.md R94). -/
def fetchedCp (w : PortWord) : Except IllegalKind Instr → Fetched
  | .ok i => .instr i
  | .error k => .illegal w k

/-- What a pending transaction asks for (30_encoding.md R93, R94). -/
def fetchedOf : Transaction → Fetched
  | .rst => .reset
  | .sp b => .instr (decodeSp b)
  | .cp w => fetchedCp w (decodeCp w)

/-- What the oldest pending transaction asks for. -/
def fetchedFrom : List Transaction → Fetched
  | [] => .idle
  | t :: _ => fetchedOf t

/-- The next operation in the order `<T` (20_memory.md R70). -/
def fetch (s : State) : Fetched := fetchedFrom s.pending

/-- The state once the next transaction is taken from those pending. -/
def State.take (s : State) : State := { s with pending := s.pending.tail }

/-- A transaction presented so that the block performs it next. -/
def State.presentNext (t : Transaction) (s : State) : State := { s with pending := t :: s.pending }

end Sys2Proof.Machine
end

