-- ==== Sys2Proof/Machine/Step.lean ====
section
/-! DEFINITION. One step: the block performs the next transaction of the order `<T`, atomically (20_memory.md R70). -/

namespace Sys2Proof.Machine

/-- One step of the block. With nothing pending it is idle and keeps all its state (60_exceptions.md R297). -/
def step (s : State) : Host.Outcome State Fault Refusal :=
  match fetch s with
  | .idle => .next s
  | .reset => .next (hardwareReset s.take)
  | .illegal w _ => .next (performIllegal w s.take)
  | .instr i => exec i s.take

/-- The host's question: `s` with the word `w` of a table row presented as the next transaction (log 5, log 14). -/
def State.withFetchWord (s : State) (nbits w : Nat) : State := s.presentNext (tableTransaction nbits w)

end Sys2Proof.Machine
end

