-- ==== Sys2Proof/Machine/Assembler.lean ====
section
/-! DEFINITION. The assembler of the spec's textual form (30_encoding.md R99): the transactions a line stands for, the lines an
assembler refuses, and the reading of a line of text (log 21). -/

namespace Sys2Proof.Machine

/-- A float literal (30_encoding.md R99): a decimal number, given as its exact value `num / den` with a sign, a word, or an exact
hexadecimal pattern. -/
inductive FloatLit where
  | decimal (neg : Bool) (num den : Nat)
  | nan
  | inf
  | negInf
  | pattern (b : F32)
  deriving DecidableEq, Repr

/-- The pattern of a float literal: the nearest binary32, ties to even (30_encoding.md R99; log 21 for `nan`). -/
def litBits : FloatLit → F32
  | .decimal neg num den => roundF neg (num * unitF) den
  | .nan => canonicalNaN
  | .inf => packF false infPat
  | .negInf => packF true infPat
  | .pattern b => b

/-- A line of the textual form, a transaction or a pseudo-instruction (30_encoding.md R99). Register names are as written, as characters. -/
inductive AsmLine where
  | nop
  | rd (name : List Char)
  | wr (name : List Char) (v : Word)
  | sample (l r : FloatLit)
  | wrf (name : List Char) (x : FloatLit)
  | prepare
  | clear
  | defaults
  | errclr
  | prep (sr blk : Word)
  | chorus
  | flanger
  | word64 (w : PortWord)
  deriving DecidableEq, Repr

/-- The name of a register (30_encoding.md R96). -/
def regName : Reg → String
  | .id => "ID"
  | .ctrl => "CTRL"
  | .status => "STATUS"
  | .srate => "SRATE"
  | .maxblk => "MAXBLK"
  | .srAct => "SR_ACT"
  | .capacity => "CAPACITY"
  | .dryWet => "DRYWET"
  | .depth => "DEPTH"
  | .rate => "RATE"
  | .phaseOff => "PHASEOFF"
  | .feedback => "FEEDBACK"
  | .mode => "MODE"
  | .whead => "WHEAD"
  | .phase => "PHASE"
  | .fbl => "FBL"
  | .fbr => "FBR"

/-- The characters of a name, in capitals: names are case-insensitive (30_encoding.md R99). -/
def nameKey (name : List Char) : List Char := name.map Char.toUpper

/-- The register a name stands for (30_encoding.md R96, R99). -/
def regOfName (name : List Char) : Option Reg := allRegs.find? fun r => (regName r).toList == nameKey name

/-- `WR <reg>, v`, refused for an RO register and for a CTRL value outside the five legal ones (30_encoding.md R99). -/
def assembleWrite (r : Reg) (v : Word) : Option (List Transaction) :=
  if regAccess r = .ro then none
  else if r = .ctrl ∧ ¬ ([0x0, 0x1, 0x2, 0x4, 0x8] : List Word).contains v then none
  else some [.cp (writeWord r v)]

/-- The transactions of a line, in order; `none` where an assembler refuses the line (30_encoding.md R99). -/
def assemble : AsmLine → Option (List Transaction)
  | .nop => some [.cp 0]
  | .rd name => (regOfName name).map fun r => [.cp (readWord r)]
  | .wr name v => (regOfName name).bind fun r => assembleWrite r v
  | .sample l r => some [.sp (beatOf (litBits l) (litBits r))]
  | .wrf name x => (regOfName name).bind fun r => assembleWrite r (litBits x)
  | .prepare => some [.cp (writeWord .ctrl 0x1)]
  | .clear => some [.cp (writeWord .ctrl 0x2)]
  | .defaults => some [.cp (writeWord .ctrl 0x4)]
  | .errclr => some [.cp (writeWord .ctrl 0x8)]
  | .prep sr blk => some [.cp (writeWord .srate sr), .cp (writeWord .maxblk blk), .cp (writeWord .ctrl 0x1)]
  | .chorus => some [.cp (writeWord .mode 0)]
  | .flanger => some [.cp (writeWord .mode 1)]
  | .word64 w => some [.cp w]

/-! ### Reading a line of text -/

/-- A token read so far, if it is not empty. -/
def flush : List Char → List (List Char)
  | [] => []
  | c :: cs => [c :: cs]

/-- The tokens of a line: blanks part them, a comma is a token of its own, and `;` starts a comment (30_encoding.md R99; log 21). -/
def tokens : (read rest : List Char) → List (List Char)
  | read, [] => flush read
  | read, c :: cs =>
    if c = ';' then flush read
    else if c = ' ' ∨ c = '\t' then flush read ++ tokens [] cs
    else if c = ',' then flush read ++ [','] :: tokens [] cs
    else tokens (read ++ [c]) cs

/-- The value of a decimal digit. -/
def decDigit (c : Char) : Option Nat :=
  if '0'.toNat ≤ c.toNat ∧ c.toNat ≤ '9'.toNat then some (c.toNat - '0'.toNat) else none

/-- The value of a hexadecimal digit, of either case. -/
def hexDigit (c : Char) : Option Nat :=
  if 'a'.toNat ≤ c.toNat ∧ c.toNat ≤ 'f'.toNat then some (c.toNat - 'a'.toNat + 10)
  else if 'A'.toNat ≤ c.toNat ∧ c.toNat ≤ 'F'.toNat then some (c.toNat - 'A'.toNat + 10)
  else decDigit c

/-- The number that digits continue `n` to. -/
def digitsFrom (base : Nat) (digit : Char → Option Nat) (n : Nat) : List Char → Option Nat
  | [] => some n
  | c :: cs => (digit c).bind fun d => digitsFrom base digit (base * n + d) cs

/-- The number of one or more digits. -/
def digitsOf (base : Nat) (digit : Char → Option Nat) (cs : List Char) : Option Nat :=
  if cs.isEmpty then none else digitsFrom base digit 0 cs

/-- A decimal or `0x` hexadecimal number of at most `w` bits (30_encoding.md R99). DESIGN CHOICE (log 21): the `0x` is written small, the hexadecimal
digits in either case, leading zeros are allowed, and no sign is. -/
def readNumber (w : Nat) (cs : List Char) : Option (BitVec w) :=
  ((if cs.take 2 = ['0', 'x'] then digitsOf 16 hexDigit (cs.drop 2) else digitsOf 10 decDigit cs)).bind fun n =>
    if n < 2 ^ w then some (BitVec.ofNat w n) else none

/-- The exponent that follows a mantissa: none is 0. DESIGN CHOICE (log 21): it is `e` or `E`, a `+`, a `-` or no sign, and at least one digit. -/
def readExponent : List Char → Option Int
  | [] => some 0
  | c :: cs =>
    if c = 'e' ∨ c = 'E' then
      if cs.take 1 = ['-'] then (digitsOf 10 decDigit (cs.drop 1)).map fun n => -(n : Int)
      else (digitsOf 10 decDigit (if cs.take 1 = ['+'] then cs.drop 1 else cs)).map fun n => (n : Int)
    else none

/-- A number with its sign, as an exact fraction: `n` times ten to the power `x`. -/
def decimalLit (neg : Bool) (n : Nat) (x : Int) : FloatLit :=
  .decimal neg (n * 10 ^ x.toNat) (10 ^ (-x).toNat)

/-- A decimal number with a `.` or an exponent, less its sign (30_encoding.md R99). DESIGN CHOICE (log 21): digits may be missing before the `.` or after it,
not both. -/
def readDecimal (neg : Bool) (cs : List Char) : Option FloatLit :=
  let whole := cs.takeWhile fun c => (decDigit c).isSome
  let rest := cs.dropWhile fun c => (decDigit c).isSome
  if rest.take 1 = ['.'] then
    let frac := (rest.drop 1).takeWhile fun c => (decDigit c).isSome
    (readExponent ((rest.drop 1).dropWhile fun c => (decDigit c).isSome)).bind fun x =>
      (digitsOf 10 decDigit (whole ++ frac)).map fun n => decimalLit neg n (x - frac.length)
  else if rest = [] then none
  else (readExponent rest).bind fun x => (digitsOf 10 decDigit whole).map fun n => decimalLit neg n x

/-- A float literal (30_encoding.md R99). DESIGN CHOICE (log 21), for the grammar R99 leaves open: the words `nan`, `inf` and `-inf` are written small;
`f32:` is followed by `0x` and one or more digits whose number is below 2^32; a number may have a leading `-`, and a leading `+` is
refused. -/
def readFloat (cs : List Char) : Option FloatLit :=
  if cs = "nan".toList then some .nan
  else if cs = "inf".toList then some .inf
  else if cs = "-inf".toList then some .negInf
  else if cs.take 6 = "f32:0x".toList then (readNumber 32 (cs.drop 4)).map .pattern
  else if cs.take 1 = ['-'] then readDecimal true (cs.drop 1)
  else readDecimal false cs

/-- A line of one word. -/
def readOne (m : List Char) : Option AsmLine :=
  if m = "NOP".toList then some .nop
  else if m = "PREPARE".toList then some .prepare
  else if m = "CLEAR".toList then some .clear
  else if m = "DEFAULTS".toList then some .defaults
  else if m = "ERRCLR".toList then some .errclr
  else if m = "CHORUS".toList then some .chorus
  else if m = "FLANGER".toList then some .flanger
  else none

/-- A line of a word and one operand. -/
def readTwo (m a : List Char) : Option AsmLine :=
  if m = "RD".toList then some (.rd a)
  else if m = ".word64".toList then (readNumber 64 a).map .word64
  else none

/-- A line of a word and two operands. -/
def readThree (m a b : List Char) : Option AsmLine :=
  if m = "WR".toList then (readNumber 32 b).map (.wr a)
  else if m = "WRF".toList then (readFloat b).map (.wrf a)
  else if m = "SAMPLE".toList then (readFloat a).bind fun l => (readFloat b).map (.sample l)
  else if m = "PREP".toList then (readNumber 32 a).bind fun sr => (readNumber 32 b).map (.prep sr)
  else none

/-- The line that tokens stand for. -/
def readLine : List (List Char) → Option AsmLine
  | [m] => readOne m
  | [m, a] => readTwo m a
  | [m, a, comma, b] => if comma = [','] then readThree m a b else none
  | _ => none

/-- The transactions of a line of text; a line that is blank but for a comment stands for none. -/
def assembleLine (text : List Char) : Option (List Transaction) :=
  if tokens [] text = [] then some [] else (readLine (tokens [] text)).bind assemble

/-- The transactions of a text, line by line. -/
def assembleText : List (List Char) → Option (List Transaction)
  | [] => some []
  | l :: ls => (assembleLine l).bind fun ts => (assembleText ls).map fun us => ts ++ us

end Sys2Proof.Machine
end

