-- ==== Sys2Proof/Safety.lean ====
section
/-! DEFINITION. What a good state and a safe run are: the invariants the spec states (10_state.md R28, R29, R30, R38, R40; 40_numerics.md R124), and
the observation of a run (70_reset_and_hazards.md R324). -/

namespace Sys2Proof.Machine

/-- A parameter value in its declared range, as a pattern: never negative, `-0` or NaN (10_state.md R38, 40_numerics.md R135). -/
abbrev paramInRange (q : Param) (v : F32) : Prop :=
  (paramLo q).toNat ≤ v.toNat ∧ v.toNat ≤ (paramHi q).toNat

/-- Every parameter register holds a value in its range (10_state.md R38; `MODE` is 0 or 1 by its type). -/
abbrev ParamsInRange (s : State) : Prop :=
  paramInRange .dryWet s.dryWet ∧ paramInRange .depth s.depth ∧ paramInRange .rate s.rate
    ∧ paramInRange .phaseOff s.phaseOff ∧ paramInRange .feedback s.feedback

/-- `+0 <= PH < 1.0`, never `-0` or NaN: a pattern below 0x3F800000 (10_state.md R30, 42_oscillator.md R173). -/
abbrev PhaseInRange (s : State) : Prop := s.ph.toNat < 0x3F800000

/-- While ready: `SR_ACT` passed PREPARE's test, `C` is its capacity, `1 <= C <= DL_DEPTH` and `WH < C` (10_state.md R27 to R29). -/
abbrev ReadyShape (s : State) : Prop :=
  prepareOk params s.srAct.toNat = true ∧ capacityNat s = prepareCapacity params s.srAct.toNat
    ∧ 1 ≤ capacityNat s ∧ capacityNat s ≤ params.dlDepth ∧ s.wh.toNat < capacityNat s

/-- While not ready: `C`, `SR_ACT` and the datapath registers are zero (10_state.md R27 to R29, 44_control.md R241). -/
abbrev NotReadyShape (s : State) : Prop :=
  s.capacity = 0 ∧ s.srAct = 0 ∧ s.wh = 0 ∧ s.ph = 0 ∧ s.fbl = 0 ∧ s.fbr = 0

/-- The delay memories: canonical lists; every word ever written and every word in use is one that PREPARE or CLEAR has zeroed
since the last reset, and exists (10_state.md R39, R40). -/
abbrev MemoryShape (s : State) : Prop :=
  memWf s = true ∧ (∀ c ∈ s.bufL, c.1 < s.zeroed) ∧ (∀ c ∈ s.bufR, c.1 < s.zeroed)
    ∧ capacityNat s ≤ s.zeroed ∧ s.zeroed ≤ params.dlDepth

/-- The invariant of the block: it holds at reset and every step keeps it. -/
structure Inv (s : State) : Prop where
  paramsInRange : ParamsInRange s
  phaseInRange : PhaseInRange s
  readyShape : s.ready = true → ReadyShape s
  notReadyShape : s.ready = false → NotReadyShape s
  memoryShape : MemoryShape s

/-- A pattern that is NaN only as the canonical NaN (40_numerics.md R124). -/
abbrev canonical (v : F32) : Prop := isNaNF v = true → v = canonicalNaN

/-- Every NaN in the feedback registers and among the listed delay words is canonical (40_numerics.md R124). -/
abbrev NaNsCanonical (s : State) : Prop :=
  canonical s.fbl ∧ canonical s.fbr ∧ (∀ c ∈ s.bufL, canonical c.2) ∧ (∀ c ∈ s.bufR, canonical c.2)

/-- The control-port read responses a state records, in order (70_reset_and_hazards.md R324). -/
def responses : List CpReply → List Word
  | [] => []
  | .resp v :: rs => v :: responses rs
  | .ack :: rs => responses rs

/-- Two states with the same registers, flags, pending transactions and returned replies: they differ at most in the delay memories and
in the model's own record of them. -/
abbrev SameButMemories (s t : State) : Prop :=
  { s with bufL := t.bufL, bufR := t.bufR, zeroed := t.zeroed, resets := t.resets } = t

/-- Two states whose delay words in use, those below `C`, are the same. -/
abbrev SameWordsInUse (s t : State) : Prop :=
  ∀ x i, i < capacityNat s → wordAt s x i = wordAt t x i

/-! ### Terms of the claims -/

/-- The clamp of 40_numerics.md R135 said on patterns, without arithmetic: a NaN gives the default; a pattern with the sign bit, or at most
`lo`, gives `lo`; a pattern from `hi` up gives `hi`; any other is kept. (Among patterns without the sign bit, larger numbers
have larger patterns.) -/
def clampPattern (lo hi dflt v : F32) : F32 :=
  if 0x7F800000 < v.toNat % 2 ^ 31 then dflt
  else if 2 ^ 31 ≤ v.toNat ∨ v.toNat ≤ lo.toNat then lo
  else if hi.toNat ≤ v.toNat then hi
  else v

/-- The word of age `k`: the one written `k` SAMPLE steps before the last, `k` slots back from the slot before the write head (41_delay_line.md R153). -/
def ageWord (s : State) (x : Channel) (k : Nat) : F32 :=
  wordAt s x ((s.wh.toNat + capacityNat s - 1 - k) % capacityNat s)

/-- The least magnitude, in units of 2^-149, that rounds beyond the largest finite value: half a last place above 0x7F7FFFFF. -/
def overflowUnits : Nat := (2 ^ 25 - 1) * 2 ^ 252

/-- `c` is the exact value `num / den` (in units of 2^-149) rounded to nearest, ties to even (40_numerics.md R121): below the overflow threshold
it is finite, no finite number is closer, and where another number is as close its last bit is 0; from the threshold on it is an
infinity; and its sign is the exact value's. -/
def RoundsTo (num : Int) (den : Nat) (c : F32) : Prop :=
  isNaNF c = false
    ∧ (num.natAbs < overflowUnits * den → isFiniteF c = true
        ∧ ∀ f : F32, isFiniteF f = true → |valF c * den - num| ≤ |valF f * den - num|
            ∧ (|valF c * den - num| = |valF f * den - num| → valF f = valF c ∨ c.toNat % 2 = 0))
    ∧ (overflowUnits * den ≤ num.natAbs → isInfF c = true)
    ∧ (num < 0 → signF c = true) ∧ (0 < num → signF c = false)

/-- `v` is within `num / den` units in the last place of the exact `x = sin(2π·m·2^-149)`, give or take `eps` (in units of 2^-149) both
in the distance and in the value whose last place is meant. With `eps = 0` it is 40_numerics.md R131 property 3 for
`SIN_ERR = num / den` at the point `m·2^-149`. -/
def SineWithin (num den : Nat) (eps : ℝ) (m : Nat) (v : F32) : Prop :=
  |(valF v : ℝ) - 2 ^ 149 * Real.sin (2 * Real.pi * m / 2 ^ 149)| * den
    ≤ num * 2 ^ ulpExp ⌊|2 ^ 149 * Real.sin (2 * Real.pi * m / 2 ^ 149)| + eps⌋₊ 1 + eps * den

/-- `f` has the properties that 40_numerics.md R131 gives `SinCycle` for `SIN_ERR = num / den`: exact at the nine points `k/4`, and from `+0` to
2.0 in `[-1, 1]`, never NaN, and accurate. (Property 4, that the result depends on `t` alone, is that `f` is a function.) -/
def MeetsSineRule (num den : Nat) (f : F32 → F32) : Prop :=
  (∀ k : Nat, k ≤ 8 → f (divF (toF32 k) (toF32 4))
    = if k % 4 = 1 then 0x3F800000 else if k % 4 = 3 then 0xBF800000 else 0x00000000)
  ∧ ∀ t : F32, t.toNat ≤ 0x40000000 → absPat (f t) ≤ absPat oneF ∧ SineWithin num den 0 (magF t) (f t)

/-- The instruction that a transaction asks for is not one of a kind: it is no reset, and what it decodes to is not `q`. -/
def NeitherResetNor (t : Transaction) (q : Instr → Prop) : Prop :=
  t ≠ .rst ∧ ∀ i, decodeTransaction t = some (.ok i) → ¬ q i

end Sys2Proof.Machine
end

