-- ==== Sys2Proof/Certificates/Slice0/Obligations.lean ====
section
/-! DEFINITION. The statements for the provers: what 00_scope.md to 70_reset_and_hazards.md say the block does. In them `cpOut` and `spOut` are
the model's record of what the ports have returned (20_memory.md R64, R71; log 6), `pending` is the list of transactions not yet performed (R70; log 4), and
`zeroed` and `resets` are the model's own (logs 2, 3). -/

open Sys2Proof Sys2Proof.Machine Host

/-! ### Encoding -/

/-- Every instruction, with every operand, decodes from its encoding (30_encoding.md R90, R92, R94, R96). -/
def Obligations.DecodeEncodeRoundTrip : Prop :=
  ∀ i : Instr, decodeTransaction (encode i) = some (.ok i)

/-- Each word has one meaning: an instruction a control word decodes to is encoded by that word, and so for beats (30_encoding.md R92, R94). -/
def Obligations.EncodeDecodeRoundTrip : Prop :=
  (∀ (w : PortWord) (i : Instr), decodeCp w = .ok i → encode i = .cp w) ∧ ∀ b : PortWord, encode (decodeSp b) = .sp b

/-- The decoder refuses exactly the eight kinds of word that 30_encoding.md R97 lists. -/
def Obligations.IllegalWordsAreTheEightKinds : Prop :=
  ∀ w : PortWord, (∃ k, decodeCp w = .error k) ↔
    CpWord.badNop w ∨ CpWord.badOpc w ∨ CpWord.badRsv w ∨ CpWord.misaligned w ∨ CpWord.reservedAddr w
      ∨ CpWord.readWithData w ∨ CpWord.writeToReadOnly w ∨ CpWord.badCommand w

/-- Words written out from 30_encoding.md R90, R96, R99 and 95_test_vectors.md section 2.7, at least one of each family. -/
def Obligations.DecoderReadsWordsOfEachFamily : Prop :=
  decodeCp 0x0000000000000000 = .ok .nop ∧ decodeCp 0x0100000800000000 = .ok .rdStatus
    ∧ decodeCp 0x0200000400000001 = .ok .cmdPrepare ∧ decodeCp 0x0200000C0000BB80 = .ok (.wrSrate 48000)
    ∧ decodeCp 0x020000203F800000 = .ok (.wrDrywet 0x3F800000) ∧ decodeSp 0x3F0000003F800000 = .sample 0x3F800000 0x3F000000
    ∧ decodeCp 0x0100000900000000 = .error .misaligned ∧ decodeCp 0x0200000400000003 = .error .badCommand

/-- Every beat is a SAMPLE of its two lanes, R in bits 63:32 and L in bits 31:0 (30_encoding.md R92). -/
def Obligations.EveryBeatIsASampleOfItsLanes : Prop :=
  ∀ l r : F32, decodeSp (r ++ l) = .sample l r

/-! ### Steps -/

/-- A step performs the oldest pending transaction: the instruction it decodes to, ILLEGAL, or the hardware reset; with nothing pending the
block is idle (20_memory.md R70, 30_encoding.md R93, 60_exceptions.md R297). -/
def Obligations.StepRunsTheDecodedInstruction : Prop :=
  ∀ (s : State) (rest : List Transaction),
    (∀ w i, s.pending = .cp w :: rest → decodeCp w = .ok i → step s = exec i { s with pending := rest })
    ∧ (∀ b, s.pending = .sp b :: rest → step s = exec (decodeSp b) { s with pending := rest })
    ∧ (∀ w k, s.pending = .cp w :: rest → decodeCp w = .error k →
        step s = .next (performIllegal w { s with pending := rest }))
    ∧ (s.pending = .rst :: rest → step s = .next (hardwareReset { s with pending := rest }))
    ∧ (s.pending = [] → step s = .next s)

/-- An ILLEGAL word sets ERR_ACC, is answered with 0 if its OPC is 0x01 and acknowledged otherwise, and changes nothing else
(60_exceptions.md R283). -/
def Obligations.IllegalWordOnlyRaisesAccessError : Prop :=
  ∀ (s : State) (w : PortWord) (rest : List Transaction) (k : IllegalKind),
    s.pending = .cp w :: rest → decodeCp w = .error k →
    step s = .next { s with
      pending := rest, errAcc := true, cpOut := s.cpOut ++ [if w.toNat / 2 ^ 56 = 1 then .resp 0 else .ack] }

/-- Each command word and each beat completes with exactly one reply on its own port, after those returned before, and none on the other port; what
is ordered after it stays pending (20_memory.md R64, R70, R71). That the hardware reset returns no reply and keeps those returned is the model's
reading of 70_reset_and_hazards.md R310 (log 20, DEDUCED). -/
def Obligations.EachTransactionGetsOneReply : Prop :=
  ∀ (s t : State) (tr : Transaction) (rest : List Transaction), s.pending = tr :: rest → step s = .next t →
    t.pending = rest ∧
    match tr with
    | .cp _ => (∃ r, t.cpOut = s.cpOut ++ [r]) ∧ t.spOut = s.spOut
    | .sp _ => (∃ b, t.spOut = s.spOut ++ [b]) ∧ t.cpOut = s.cpOut
    | .rst => t.cpOut = s.cpOut ∧ t.spOut = s.spOut

/-! ### Register reads, NOP -/

/-- The seventeen read words (44_control.md R220 to R237). -/
def Obligations.ReadWordsDecode : Prop :=
  decodeCp 0x0100000000000000 = .ok .rdId ∧ decodeCp 0x0100000400000000 = .ok .rdCtrl
    ∧ decodeCp 0x0100000800000000 = .ok .rdStatus ∧ decodeCp 0x0100000C00000000 = .ok .rdSrate
    ∧ decodeCp 0x0100001000000000 = .ok .rdMaxblk ∧ decodeCp 0x0100001400000000 = .ok .rdSrAct
    ∧ decodeCp 0x0100001800000000 = .ok .rdCapacity ∧ decodeCp 0x0100002000000000 = .ok .rdDrywet
    ∧ decodeCp 0x0100002400000000 = .ok .rdDepth ∧ decodeCp 0x0100002800000000 = .ok .rdRate
    ∧ decodeCp 0x0100002C00000000 = .ok .rdPhaseoff ∧ decodeCp 0x0100003000000000 = .ok .rdFeedback
    ∧ decodeCp 0x0100003400000000 = .ok .rdMode ∧ decodeCp 0x0100004000000000 = .ok .rdWhead
    ∧ decodeCp 0x0100004400000000 = .ok .rdPhase ∧ decodeCp 0x0100004800000000 = .ok .rdFbl
    ∧ decodeCp 0x0100004C00000000 = .ok .rdFbr

/-- Sixteen reads answer the register they name and change no state of the block (44_control.md R220 to R222, R224 to R237). -/
def Obligations.ReadsAnswerTheRegister : Prop :=
  ∀ s : State,
    exec .rdId s = .next { s with cpOut := s.cpOut ++ [.resp 0x444C5931] }
    ∧ exec .rdCtrl s = .next { s with cpOut := s.cpOut ++ [.resp 0x00000000] }
    ∧ exec .rdSrate s = .next { s with cpOut := s.cpOut ++ [.resp s.srate] }
    ∧ exec .rdMaxblk s = .next { s with cpOut := s.cpOut ++ [.resp s.maxblk] }
    ∧ exec .rdSrAct s = .next { s with cpOut := s.cpOut ++ [.resp s.srAct] }
    ∧ exec .rdCapacity s = .next { s with cpOut := s.cpOut ++ [.resp s.capacity] }
    ∧ exec .rdDrywet s = .next { s with cpOut := s.cpOut ++ [.resp s.dryWet] }
    ∧ exec .rdDepth s = .next { s with cpOut := s.cpOut ++ [.resp s.depth] }
    ∧ exec .rdRate s = .next { s with cpOut := s.cpOut ++ [.resp s.rate] }
    ∧ exec .rdPhaseoff s = .next { s with cpOut := s.cpOut ++ [.resp s.phaseOff] }
    ∧ exec .rdFeedback s = .next { s with cpOut := s.cpOut ++ [.resp s.feedback] }
    ∧ exec .rdMode s = .next { s with cpOut := s.cpOut ++ [.resp (if s.mode = .flanger then 1 else 0)] }
    ∧ exec .rdWhead s = .next { s with cpOut := s.cpOut ++ [.resp s.wh] }
    ∧ exec .rdPhase s = .next { s with cpOut := s.cpOut ++ [.resp s.ph] }
    ∧ exec .rdFbl s = .next { s with cpOut := s.cpOut ++ [.resp s.fbl] }
    ∧ exec .rdFbr s = .next { s with cpOut := s.cpOut ++ [.resp s.fbr] }

/-- The word 0x0100000800000000 is RD_STATUS, which answers READY in bit 0, ERR_PREP in bit 1, ERR_NRDY in bit 2, ERR_ACC in bit 3 and 0 above, and
changes no state of the block, the sticky bits among it (44_control.md R223). -/
def Obligations.ReadStatusComposesTheFlags : Prop :=
  decodeCp 0x0100000800000000 = .ok .rdStatus ∧ ∀ s : State, ∃ v : Word, exec .rdStatus s = .next { s with cpOut := s.cpOut ++ [.resp v] }
    ∧ v.getLsbD 0 = s.ready ∧ v.getLsbD 1 = s.errPrep ∧ v.getLsbD 2 = s.errNrdy ∧ v.getLsbD 3 = s.errAcc
    ∧ ∀ k, 4 ≤ k → v.getLsbD k = false

/-- The all-zero word is NOP and 0x0200000400000000 is CMD_NONE; both are acknowledged and leave every register unchanged, and no other word with OPC 0x00
is legal (44_control.md R238, R245). -/
def Obligations.NopAndNoneOnlyAcknowledge : Prop :=
  decodeCp 0x0000000000000000 = .ok .nop ∧ decodeCp 0x0200000400000000 = .ok .cmdNone
    ∧ (∀ w : PortWord, w.toNat / 2 ^ 56 = 0 → w ≠ 0 → ∃ k, decodeCp w = .error k)
    ∧ ∀ s : State, exec .nop s = .next { s with cpOut := s.cpOut ++ [.ack] }
    ∧ exec .cmdNone s = .next { s with cpOut := s.cpOut ++ [.ack] }

/-! ### Register writes -/

/-- SRATE and MAXBLK store every value as written; nothing else changes (44_control.md R246, R247). -/
def Obligations.PlainWritesStoreTheValue : Prop :=
  ∀ (s : State) (v : Word),
    decodeCp ((0x0200000C : BitVec 32) ++ v) = .ok (.wrSrate v)
    ∧ decodeCp ((0x02000010 : BitVec 32) ++ v) = .ok (.wrMaxblk v)
    ∧ exec (.wrSrate v) s = .next { s with srate := v, cpOut := s.cpOut ++ [.ack] }
    ∧ exec (.wrMaxblk v) s = .next { s with maxblk := v, cpOut := s.cpOut ++ [.ack] }

/-- The five clamped parameters store the clamped pattern; nothing else changes (44_control.md R248 to R252, 40_numerics.md R135). -/
def Obligations.ParameterWritesClamp : Prop :=
  ∀ (s : State) (v : Word),
    decodeCp ((0x02000020 : BitVec 32) ++ v) = .ok (.wrDrywet v)
    ∧ decodeCp ((0x02000024 : BitVec 32) ++ v) = .ok (.wrDepth v)
    ∧ decodeCp ((0x02000028 : BitVec 32) ++ v) = .ok (.wrRate v)
    ∧ decodeCp ((0x0200002C : BitVec 32) ++ v) = .ok (.wrPhaseoff v)
    ∧ decodeCp ((0x02000030 : BitVec 32) ++ v) = .ok (.wrFeedback v)
    ∧ exec (.wrDrywet v) s = .next { s with
      dryWet := clampPattern 0x00000000 0x3F800000 0x3F000000 v, cpOut := s.cpOut ++ [.ack] }
    ∧ exec (.wrDepth v) s = .next { s with
      depth := clampPattern 0x00000000 0x3F800000 0x3F000000 v, cpOut := s.cpOut ++ [.ack] }
    ∧ exec (.wrRate v) s = .next { s with
      rate := clampPattern 0x3DCCCCCD 0x41A00000 0x41200000 v, cpOut := s.cpOut ++ [.ack] }
    ∧ exec (.wrPhaseoff v) s = .next { s with
      phaseOff := clampPattern 0x00000000 0x3F800000 0x00000000 v, cpOut := s.cpOut ++ [.ack] }
    ∧ exec (.wrFeedback v) s = .next { s with
      feedback := clampPattern 0x00000000 0x3F7AE148 0x3F000000 v, cpOut := s.cpOut ++ [.ack] }

/-- A MODE write stores Flanger for exactly 1 and Chorus for anything else; nothing else changes (44_control.md R253). -/
def Obligations.ModeWriteSelectsTheTopology : Prop :=
  ∀ (s : State) (v : Word),
    decodeCp ((0x02000034 : BitVec 32) ++ v) = .ok (.wrMode v)
    ∧ exec (.wrMode v) s = .next { s with mode := if v.toNat = 1 then .flanger else .chorus, cpOut := s.cpOut ++ [.ack] }

/-- Writing back a value that was read stores it again: the clamp is the identity on the values the registers hold
(95_test_vectors.md L1.6; 10_state.md R38, 40_numerics.md R135). -/
def Obligations.WritingBackAReadKeepsTheParameters : Prop :=
  ∀ s : State, ParamsInRange s →
    exec (.wrDrywet s.dryWet) s = .next { s with cpOut := s.cpOut ++ [.ack] }
    ∧ exec (.wrDepth s.depth) s = .next { s with cpOut := s.cpOut ++ [.ack] }
    ∧ exec (.wrRate s.rate) s = .next { s with cpOut := s.cpOut ++ [.ack] }
    ∧ exec (.wrPhaseoff s.phaseOff) s = .next { s with cpOut := s.cpOut ++ [.ack] }
    ∧ exec (.wrFeedback s.feedback) s = .next { s with cpOut := s.cpOut ++ [.ack] }
    ∧ exec (.wrMode (regValue .mode s)) s = .next { s with cpOut := s.cpOut ++ [.ack] }

/-! ### Commands and reset -/

/-- PREPARE with `1000 <= SRATE <= 384000` latches the rate, takes the capacity `ceil(SRATE / 20)`, zeroes the words below it and the transient
state, and sets READY; every other word and register is unchanged (44_control.md R241). -/
def Obligations.PrepareSucceedsInRange : Prop :=
  decodeCp 0x0200000400000001 = .ok .cmdPrepare ∧ ∀ s : State, 1000 ≤ s.srate.toNat → s.srate.toNat ≤ 384000 →
    ∃ t, exec .cmdPrepare s = .next t
      ∧ t = { s with
          ready := true, srAct := s.srate, capacity := BitVec.ofNat 32 ((s.srate.toNat + 19) / 20)
          wh := 0, ph := 0, fbl := 0, fbr := 0, cpOut := s.cpOut ++ [.ack]
          bufL := t.bufL, bufR := t.bufR, zeroed := t.zeroed }
      ∧ ∀ x i, wordAt t x i = if i < (s.srate.toNat + 19) / 20 then 0 else wordAt s x i

/-- PREPARE with `SRATE` outside `[1000, 384000]` clears READY, SR_ACT, C and the transient state and sets ERR_PREP; the memories and every other
register are unchanged (44_control.md R241, 60_exceptions.md R285). -/
def Obligations.PrepareFailsOutOfRange : Prop :=
  ∀ s : State, s.srate.toNat < 1000 ∨ 384000 < s.srate.toNat →
    exec .cmdPrepare s = .next { s with
      ready := false, errPrep := true, srAct := 0, capacity := 0
      wh := 0, ph := 0, fbl := 0, fbr := 0, cpOut := s.cpOut ++ [.ack] }

/-- CLEAR zeroes the words below the current `C`, the write head, phase and feedback; every other word and register is unchanged
(44_control.md R242, 41_delay_line.md R155). -/
def Obligations.ClearZeroesTheDatapath : Prop :=
  decodeCp 0x0200000400000002 = .ok .cmdClear ∧ ∀ s : State, ∃ t, exec .cmdClear s = .next t
    ∧ t = { s with
        wh := 0, ph := 0, fbl := 0, fbr := 0, cpOut := s.cpOut ++ [.ack]
        bufL := t.bufL, bufR := t.bufR, zeroed := t.zeroed }
    ∧ ∀ x i, wordAt t x i = if i < s.capacity.toNat then 0 else wordAt s x i

/-- In a prepared block whose SRATE is the rate in use, CLEAR does what PREPARE does (44_control.md R242). -/
def Obligations.ClearEqualsPrepareAtTheSameRate : Prop :=
  ∀ s : State, Inv s → s.ready = true → s.srate = s.srAct → exec .cmdClear s = exec .cmdPrepare s

/-- DEFAULTS restores the six parameters and changes nothing else (44_control.md R243). -/
def Obligations.DefaultsRestoreTheParameters : Prop :=
  decodeCp 0x0200000400000004 = .ok .cmdDefaults ∧ ∀ s : State, exec .cmdDefaults s = .next { s with
    dryWet := 0x3F000000, depth := 0x3F000000, rate := 0x41200000, phaseOff := 0x00000000, feedback := 0x3F000000
    mode := .chorus, cpOut := s.cpOut ++ [.ack] }

/-- ERRCLR clears the three sticky error bits and changes nothing else (44_control.md R244). -/
def Obligations.ErrclrClearsTheErrorBits : Prop :=
  decodeCp 0x0200000400000008 = .ok .cmdErrclr ∧ ∀ s : State, exec .cmdErrclr s = .next { s with
    errPrep := false, errNrdy := false, errAcc := false, cpOut := s.cpOut ++ [.ack] }

/-- The hardware reset sets every register to its reset value; what the ports have returned stays, and what is ordered after it stays pending
(70_reset_and_hazards.md R310, 10_state.md R43). Nothing is said of the delay memories, whose contents are unspecified. -/
def Obligations.HardwareResetSetsEveryRegister : Prop :=
  ∀ (s : State) (rest : List Transaction), s.pending = .rst :: rest →
    ∃ t, step s = .next t ∧ t =
      { ready := false, errPrep := false, errNrdy := false, errAcc := false
        srate := 0, maxblk := 0, srAct := 0, capacity := 0
        dryWet := 0x3F000000, depth := 0x3F000000, rate := 0x41200000, phaseOff := 0x00000000, feedback := 0x3F000000
        mode := .chorus, wh := 0, ph := 0, fbl := 0, fbr := 0
        bufL := t.bufL, bufR := t.bufR, zeroed := t.zeroed, resets := t.resets
        pending := rest, cpOut := s.cpOut, spOut := s.spOut }

/-- The registers of the state after reset, as 10_state.md R43 lists them. -/
def Obligations.ResetStateHoldsTheResetValues : Prop :=
  statusWord State.reset = 0x00000000 ∧ State.reset.srate = 0 ∧ State.reset.maxblk = 0 ∧ State.reset.srAct = 0
    ∧ State.reset.capacity = 0 ∧ State.reset.dryWet = 0x3F000000 ∧ State.reset.depth = 0x3F000000
    ∧ State.reset.rate = 0x41200000 ∧ State.reset.phaseOff = 0 ∧ State.reset.feedback = 0x3F000000
    ∧ State.reset.mode = .chorus ∧ State.reset.wh = 0 ∧ State.reset.ph = 0 ∧ State.reset.fbl = 0 ∧ State.reset.fbr = 0

/-! ### SAMPLE -/

/-- A beat while not ready returns its input patterns, sets ERR_NRDY and changes nothing else (60_exceptions.md R284, 43_sample_engine.md R200
step 0). -/
def Obligations.SampleBypassesWhileNotReady : Prop :=
  ∀ (s : State) (l r : F32), s.ready = false →
    exec (.sample l r) s = .next { s with errNrdy := true, spOut := s.spOut ++ [r ++ l] }

/-- A beat while ready, in every state that meets the invariant: both words at the write head take input plus feedback; the two delayed samples
are the interpolated reads of the memories so written, at the delays mapped from the phase before its advance; feedback, phase,
write head and output follow from them; every other word and register is unchanged (43_sample_engine.md R200). -/
def Obligations.PreparedSampleComputesTheStep : Prop :=
  ∀ (s : State) (l r : F32), Inv s → s.ready = true →
    ∃ t m yL yR, exec (.sample l r) s = .next t
      ∧ m = (s.setWord .left s.wh.toNat (addF l s.fbl)).setWord .right s.wh.toNat (addF r s.fbr)
      ∧ dlReadInterp params .left
          (mulF (mapSeconds (sinCycle params (addF s.ph 0)) s.depth s.mode) (toF32 s.srAct.toNat)) m = .ok yL
      ∧ dlReadInterp params .right
          (mulF (mapSeconds (sinCycle params (addF s.ph s.phaseOff)) s.depth s.mode) (toF32 s.srAct.toNat)) m = .ok yR
      ∧ t = { s with
          ph := if geF (addF s.ph (divF s.rate (toF32 s.srAct.toNat))) oneF
            then subF (addF s.ph (divF s.rate (toF32 s.srAct.toNat))) oneF
            else addF s.ph (divF s.rate (toF32 s.srAct.toNat))
          fbl := mulF yL s.feedback, fbr := mulF yR s.feedback
          wh := BitVec.ofNat 32 ((s.wh.toNat + 1) % s.capacity.toNat)
          spOut := s.spOut ++ [addF (mulF r (subF oneF s.dryWet)) (mulF yR s.dryWet)
            ++ addF (mulF l (subF oneF s.dryWet)) (mulF yL s.dryWet)]
          bufL := t.bufL, bufR := t.bufR }
      ∧ (∀ i, wordAt t .left i = if i = s.wh.toNat then addF l s.fbl else wordAt s .left i)
      ∧ (∀ i, wordAt t .right i = if i = s.wh.toNat then addF r s.fbr else wordAt s .right i)

/-- The delay line remembers: after a prepared SAMPLE the word of age 0 is the input plus feedback it wrote, and the word that had age `k` has age `k + 1`, for
every age below `C` (41_delay_line.md R153, 43_sample_engine.md R200). The age of a word is counted back from the slot before the write head. -/
def Obligations.HistoryShiftsByOneSample : Prop :=
  ∀ (s t : State) (l r : F32), Inv s → s.ready = true → exec (.sample l r) s = .next t →
    ageWord t .left 0 = addF l s.fbl ∧ ageWord t .right 0 = addF r s.fbr
    ∧ ∀ x k, k + 1 < s.capacity.toNat → ageWord t x (k + 1) = ageWord s x k

/-- The interpolated read: `r` is `WH ⊖ d`, plus `CF` when negative; with `n` its integer part, the words at `n` (at 0 when `n = C`) and at the index after
it, modulo `C`, are weighted by `1 ⊖ frac` and `frac`, where `frac = r ⊖ n` (41_delay_line.md R152). -/
def Obligations.ReadInterpolatesTwoNeighbours : Prop :=
  ∀ (s : State) (x : Channel) (d : F32) (n : Nat), 1 ≤ s.capacity.toNat → s.capacity.toNat ≤ 32768 →
    let r0 := subF (toF32 s.wh.toNat) d
    let r := if ltF r0 0 then addF r0 (toF32 s.capacity.toNat) else r0
    floorF r = some n → n ≤ s.capacity.toNat →
    let i := if n = s.capacity.toNat then 0 else n
    let frac := subF r (toF32 n)
    dlReadInterp params x d s =
      .ok (addF (mulF (subF oneF frac) (wordAt s x i)) (mulF frac (wordAt s x ((i + 1) % s.capacity.toNat))))

/-- Every delay a prepared SAMPLE computes is admissible: `1.0 <= d < CF - 1.0` (41_delay_line.md R154, 43_sample_engine.md R192). -/
def Obligations.MappedDelaysAreAdmissible : Prop :=
  ∀ s : State, Inv s → s.ready = true → ∀ off : F32, off = 0 ∨ off = s.phaseOff →
    let d := mapDelay (lfoValue params off s) s.depth s.mode s
    isFiniteF d = true ∧ valF oneF ≤ valF d ∧ valF d < ((s.capacity.toNat : Int) - 1) * unitF

/-- The mapper's formula, one rounding per operator in the order stated, for every finite LFO value (43_sample_engine.md R191). -/
def Obligations.MapperIsTheStatedFormula : Prop :=
  ∀ (lfo depth : F32) (s : State), isFiniteF lfo = true → isFiniteF depth = true →
    mapDelay lfo depth .chorus s
        = mulF (addF 0x3BA3D70A (mulF (mulF (addF (mulF lfo depth) 0x3F800000) 0x3F000000) 0x3CCCCCCC)) (toF32 s.srAct.toNat)
      ∧ mapDelay lfo depth .flanger s
        = mulF (addF 0x3A83126F (mulF (mulF (addF (mulF lfo depth) 0x3F800000) 0x3F000000) 0x3B83126E)) (toF32 s.srAct.toNat)

/-- The mapped value in seconds stays between the topology's low bound and its largest value (43_sample_engine.md R192). -/
def Obligations.MapperStaysInItsRange : Prop :=
  ∀ lfo depth : F32, absPat lfo ≤ absPat oneF → paramInRange .depth depth →
    (0x3BA3D70A ≤ (mapSeconds lfo depth .chorus).toNat ∧ (mapSeconds lfo depth .chorus).toNat ≤ 0x3CF5C28E)
    ∧ (0x3A83126F ≤ (mapSeconds lfo depth .flanger).toNat ∧ (mapSeconds lfo depth .flanger).toNat ≤ 0x3BA3D70A)

/-- With `DEPTH = 0` the mapped value is the topology's midpoint whatever the finite LFO value, and the delays at 48000 and 1000 Hz are those the rule gives
(43_sample_engine.md R193, which the spec derives from R191). The LFO value is any finite number. -/
def Obligations.DepthZeroFixesTheDelay : Prop :=
  ∀ lfo : F32, isFiniteF lfo = true →
    addF 0x3BA3D70A (mulF (mulF (addF (mulF lfo 0) 0x3F800000) 0x3F000000) 0x3CCCCCCC) = 0x3C8F5C28
    ∧ mapSeconds lfo 0 .chorus = 0x3C8F5C28
    ∧ addF 0x3A83126F (mulF (mulF (addF (mulF lfo 0) 0x3F800000) 0x3F000000) 0x3B83126E) = 0x3B449BA6
    ∧ mapSeconds lfo 0 .flanger = 0x3B449BA6
    ∧ mulF 0x3C8F5C28 (toF32 48000) = 0x4451FFFF ∧ mulF 0x3B449BA6 (toF32 48000) = 0x43100000
    ∧ mulF 0x3C8F5C28 (toF32 1000) = 0x418BFFFF ∧ mulF 0x3B449BA6 (toF32 1000) = 0x40400000

/-! ### The oscillator -/

/-- A phase in `[+0, 1.0)` advances to a phase in `[+0, 1.0)`, never `-0` or NaN (42_oscillator.md R173). -/
def Obligations.PhaseStaysBelowOne : Prop :=
  ∀ (ph rate : F32) (sr : Nat), ph.toNat < 0x3F800000 → paramInRange .rate rate → 1000 ≤ sr → sr ≤ 384000 →
    (nextPhase ph (divF rate (toF32 sr))).toNat < 0x3F800000

/-- The oscillator never sticks: every advance changes the phase (42_oscillator.md R174). -/
def Obligations.PhaseNeverSticks : Prop :=
  ∀ (ph rate : F32) (sr : Nat), ph.toNat < 0x3F800000 → paramInRange .rate rate → 1000 ≤ sr → sr ≤ 384000 →
    nextPhase ph (divF rate (toF32 sr)) ≠ ph

/-- The waveform, whatever the configuration's choice: exact at the nine quadrant points `k/4`, and in `[-1, 1]`, never NaN, everywhere in `[0, 2]`
(40_numerics.md R131 properties 1 and 2). -/
def Obligations.SineMeetsItsGuarantees : Prop :=
  ∀ p : Config.Params,
    (∀ k : Nat, k ≤ 8 → sinCycle p (divF (toF32 k) (toF32 4))
      = if k % 4 = 1 then 0x3F800000 else if k % 4 = 3 then 0xBF800000 else 0x00000000)
    ∧ ∀ t : F32, inSineDomain t = true → absPat (sinCycle p t) ≤ absPat oneF

/-- The model's 250-bit fixed-point sine is everywhere within `2^20` of its last place, which is `2^-230`, of the exact sine. So, whatever the
configuration's choice, when SIN_ERR is at least the 0.5 of a correctly rounded one, the waveform is everywhere in `[0, 2]` permitted by the model's
test, and within SIN_ERR units in the last place of the exact sine, give or take `2^-229` in the distance and in the value whose last
place is meant (40_numerics.md R131 property 3). The slack of `2^-229` is the model's (log 9). -/
def Obligations.SineStaysWithinItsErrorBound : Prop :=
  (∀ m : Nat, |(sineFixed m : ℝ) - 2 ^ 250 * Real.sin (2 * Real.pi * m / 2 ^ 149)| ≤ 2 ^ 20)
    ∧ ∀ p : Config.Params, p.sinErrDen ≤ 2 * p.sinErrNum → ∀ t : F32, inSineDomain t = true →
      sinePermitted p (magF t) (sinCycle p t) = true
        ∧ SineWithin p.sinErrNum p.sinErrDen (1 / 2 ^ 80) (magF t) (sinCycle p t)

/-! ### Binary32 arithmetic -/

/-- Each of `⊕ ⊖ ⊗ ⊘` on finite numbers is the exact result rounded once, to nearest, ties to even, overflow to infinity, with gradual underflow
(40_numerics.md R121). Quotients are by any nonzero divisor. -/
def Obligations.OperationsRoundCorrectly : Prop :=
  ∀ a b : F32, isFiniteF a = true → isFiniteF b = true →
    RoundsTo (valF a + valF b) 1 (addF a b)
    ∧ RoundsTo (valF a - valF b) 1 (subF a b)
    ∧ RoundsTo (valF a * valF b) unitF (mulF a b)
    ∧ (isZeroF b = false → RoundsTo (if signF b then -(valF a * unitF) else valF a * unitF) (magF b) (divF a b))

/-- Every operation whose result is NaN returns the canonical NaN, and every operation with a NaN operand does (40_numerics.md R122, R124). -/
def Obligations.NanResultsAreCanonical : Prop :=
  ∀ a b : F32,
    canonical (addF a b) ∧ canonical (subF a b) ∧ canonical (mulF a b) ∧ canonical (divF a b)
    ∧ (isNaNF a = true ∨ isNaNF b = true →
        addF a b = 0x7FC00000 ∧ subF a b = 0x7FC00000 ∧ mulF a b = 0x7FC00000 ∧ divF a b = 0x7FC00000)

/-- Infinities in sums, differences and products: unlike ones cancel to NaN in a sum and like ones in a difference, zero times infinity is NaN, and
otherwise the result is the limit (40_numerics.md R122). Division by or of an infinity, which the datapath never forms, is left out (log 18). -/
def Obligations.InfinitiesFollowTheStandard : Prop :=
  ∀ a b : F32, isInfF a = true →
    (isInfF b = true → signF a ≠ signF b → addF a b = 0x7FC00000 ∧ addF b a = 0x7FC00000 ∧ subF a b = a ∧ subF b a = b)
    ∧ (isInfF b = true → signF a = signF b → addF a b = a ∧ subF a b = 0x7FC00000)
    ∧ (isFiniteF b = true → addF a b = a ∧ addF b a = a ∧ subF a b = a ∧ subF b a = negF a)
    ∧ (isZeroF b = true → mulF a b = 0x7FC00000 ∧ mulF b a = 0x7FC00000)
    ∧ (isNaNF b = false → isZeroF b = false →
        mulF a b = (if signF a = signF b then 0x7F800000 else 0xFF800000) ∧ mulF b a = mulF a b)

/-- Signed zeros: a finite number and its negation sum to `+0`, and so does its difference with itself; zeros of unlike sign sum to `+0`, negative ones to
`-0`; the sign of a product is the exclusive-or of the operands', as in `(-0.5) ⊗ (+0) = -0` (40_numerics.md R123). -/
def Obligations.SignedZerosFollowTheStandard : Prop :=
  (∀ x : F32, isFiniteF x = true → addF x (negF x) = 0x00000000)
    ∧ (∀ x : F32, isFiniteF x = true → subF x x = 0x00000000)
    ∧ addF 0x00000000 0x80000000 = 0x00000000 ∧ addF 0x80000000 0x80000000 = 0x80000000
    ∧ mulF 0xBF000000 0x00000000 = 0x80000000
    ∧ ∀ a b : F32, isNaNF (mulF a b) = false → signF (mulF a b) = (signF a != signF b)

/-- Exactness facts: `p ⊖ 1.0` for `1 <= p < 2`; the fraction `r ⊖ toF32(floor(r))`, in `[0, 1)`; `a ⊗ 0.5` for a normal `a` with a normal result;
`x ⊗ 1.0 = x`; and `x ⊕ (+0) = x` for every `x` but `-0` (40_numerics.md R129). -/
def Obligations.ExactnessFacts : Prop :=
  (∀ p : F32, 0x3F800000 ≤ p.toNat → p.toNat < 0x40000000 → valF (subF p oneF) = valF p - unitF)
    ∧ (∀ (r : F32) (n : Nat), floorF r = some n →
        valF (subF r (toF32 n)) = valF r - n * unitF ∧ 0 ≤ valF (subF r (toF32 n)) ∧ valF (subF r (toF32 n)) < unitF)
    ∧ (∀ a : F32, isFiniteF a = true → 2 ^ 24 ≤ absPat a → 2 * valF (mulF a halfF) = valF a)
    ∧ (∀ x : F32, isNaNF x = false → mulF x oneF = x)
    ∧ ∀ x : F32, isNaNF x = false → addF x posZero = if x = negZero then posZero else x

/-- The mixer at its ends. With `DRYWET = 0` and a delayed sample that is finite, the output is the input, but that `-0` may give `+0`; with `DRYWET = 1` and
a finite input, the output is the delayed sample, but that `-0` gives `+0` unless the input is negative; a non-finite sample on the side of weight zero
makes the output NaN (43_sample_engine.md R195). -/
def Obligations.MixAtTheEndsPassesOneSide : Prop :=
  ∀ input y : F32,
    (isFiniteF y = true → isNaNF input = false →
      mix input y 0x00000000 = input ∨ (input = 0x80000000 ∧ mix input y 0x00000000 = 0x00000000))
    ∧ (isFiniteF y = false → mix input y 0x00000000 = 0x7FC00000)
    ∧ (isFiniteF input = true → isNaNF y = false →
      mix input y 0x3F800000 = if y = 0x80000000 ∧ signF input = false then 0x00000000 else y)
    ∧ (isFiniteF input = false → mix input y 0x3F800000 = 0x7FC00000)

/-! ### Delay memories -/

/-- MemWrite at any index below `C` completes: the word reads back as written, whatever its pattern, and every other word of both memories is
unchanged (20_memory.md R61 to R63); the canonical form, which is the model's choice, is kept (log 1, DESIGN CHOICE). -/
def Obligations.MemoryReadsBackWhatWasWritten : Prop :=
  ∀ (p : Config.Params) (s : State) (x : Channel) (i : Nat) (v : F32), memWf s = true → i < s.capacity.toNat →
    s.capacity.toNat ≤ p.dlDepth →
    ∃ t, memWrite p x i v s = .ok t ∧ memRead p x i t = .ok v ∧ memWf t = true
      ∧ ∀ y j, ¬(y = x ∧ j = i) → memRead p y j t = memRead p y j s ∧ wordAt t y j = wordAt s y j

/-- No step but a reset touches a word at or above both the old and the new capacity (10_state.md R39). -/
def Obligations.WordsAboveCapacityAreNotTouched : Prop :=
  ∀ (s t : State) (tr : Transaction) (rest : List Transaction), memWf s = true → s.pending = tr :: rest → tr ≠ .rst →
    step s = .next t → ∀ x i, s.capacity.toNat ≤ i → t.capacity.toNat ≤ i → wordAt t x i = wordAt s x i

/-- What the memories hold outside the words in use is never observable: two states that agree on all else, and on the words below `C`, step to two
states that agree so again (70_reset_and_hazards.md R312, 10_state.md R40). -/
def Obligations.UnusedWordsAreNeverObserved : Prop :=
  ∀ s t s' : State, memWf s = true → memWf t = true → SameButMemories s t → SameWordsInUse s t → step s = .next s' →
    ∃ t', step t = .next t' ∧ SameButMemories s' t' ∧ SameWordsInUse s' t' ∧ memWf s' = true ∧ memWf t' = true

/-! ### Whole-machine rules -/

/-- The state after reset meets the invariant. -/
def Obligations.ResetMeetsTheInvariant : Prop := Inv State.reset ∧ NaNsCanonical State.reset

/-- Every step keeps the invariant: parameters in range, `PH` in `[0, 1)`, `WH < C` and `1 <= C <= DL_DEPTH` while ready, the zero shape while not, the
memories in canonical form (10_state.md R28 to R30, R38). -/
def Obligations.EveryStepKeepsTheInvariant : Prop :=
  ∀ s t : State, Inv s → step s = .next t → Inv t

/-- No condition stops the block: in every state that meets the invariant a step completes (60_exceptions.md R280, 70_reset_and_hazards.md R323). -/
def Obligations.EveryStepCompletes : Prop :=
  ∀ s : State, Inv s → ∃ t, step s = .next t

/-- A run performs every pending transaction, with one reply per command word and one output beat per input beat (70_reset_and_hazards.md R323, R324,
20_memory.md R64). -/
def Obligations.RunsPerformEveryTransaction : Prop :=
  ∀ s : State, Inv s → ∃ t, core.run s.pending.length s = .next t ∧ t.pending = [] ∧ Inv t
    ∧ t.cpOut.length = s.cpOut.length + (cpWords s.pending).length
    ∧ t.spOut.length = s.spOut.length + (spBeats s.pending).length

/-- Every NaN in the feedback registers and the delay memories stays canonical (40_numerics.md R124). -/
def Obligations.StoredNansStayCanonical : Prop :=
  ∀ s t : State, NaNsCanonical s → step s = .next t → NaNsCanonical t

/-- The error bits are sticky: only ERRCLR and the hardware reset clear one (10_state.md R24, R41). -/
def Obligations.ErrorBitsAreSticky : Prop :=
  ∀ (s t : State) (tr : Transaction) (rest : List Transaction), s.pending = tr :: rest → NeitherResetNor tr (· = .cmdErrclr) →
    step s = .next t →
    (s.errPrep = true → t.errPrep = true) ∧ (s.errNrdy = true → t.errNrdy = true) ∧ (s.errAcc = true → t.errAcc = true)

/-- READY, SR_ACT and C are written only by PREPARE and the hardware reset (10_state.md R27, R28, R41). -/
def Obligations.OnlyPrepareChangesReadiness : Prop :=
  ∀ (s t : State) (tr : Transaction) (rest : List Transaction), s.pending = tr :: rest → NeitherResetNor tr (· = .cmdPrepare) →
    step s = .next t → t.ready = s.ready ∧ t.srAct = s.srAct ∧ t.capacity = s.capacity

/-- Each error bit is raised only by its own cause: ERR_PREP by PREPARE, ERR_NRDY by a beat while not ready, ERR_ACC by an illegal word
(10_state.md R41, 60_exceptions.md R286, R287). -/
def Obligations.ErrorsHaveOneCauseEach : Prop :=
  ∀ (s t : State) (tr : Transaction) (rest : List Transaction), s.pending = tr :: rest → step s = .next t →
    (s.errPrep = false → t.errPrep = true → decodeTransaction tr = some (.ok .cmdPrepare))
    ∧ (s.errNrdy = false → t.errNrdy = true → s.ready = false ∧ ∃ b, tr = .sp b)
    ∧ (s.errAcc = false → t.errAcc = true → ∃ w k, tr = .cp w ∧ decodeCp w = .error k)

/-- A parameter register changes only by its own write, DEFAULTS or the hardware reset (43_sample_engine.md R204, 70_reset_and_hazards.md R313). -/
def Obligations.ParametersChangeOnlyByTheirWrites : Prop :=
  ∀ (s t : State) (tr : Transaction) (rest : List Transaction), s.pending = tr :: rest → step s = .next t →
    (NeitherResetNor tr (fun i => i = .cmdDefaults ∨ ∃ v, i = .wrDrywet v) → t.dryWet = s.dryWet)
    ∧ (NeitherResetNor tr (fun i => i = .cmdDefaults ∨ ∃ v, i = .wrDepth v) → t.depth = s.depth)
    ∧ (NeitherResetNor tr (fun i => i = .cmdDefaults ∨ ∃ v, i = .wrRate v) → t.rate = s.rate)
    ∧ (NeitherResetNor tr (fun i => i = .cmdDefaults ∨ ∃ v, i = .wrPhaseoff v) → t.phaseOff = s.phaseOff)
    ∧ (NeitherResetNor tr (fun i => i = .cmdDefaults ∨ ∃ v, i = .wrFeedback v) → t.feedback = s.feedback)
    ∧ (NeitherResetNor tr (fun i => i = .cmdDefaults ∨ ∃ v, i = .wrMode v) → t.mode = s.mode)
    ∧ (NeitherResetNor tr (fun i => ∃ v, i = .wrSrate v) → t.srate = s.srate)
    ∧ (NeitherResetNor tr (fun i => ∃ v, i = .wrMaxblk v) → t.maxblk = s.maxblk)

/-- The channels are independent: with the right channel's input, feedback and memory replaced, the left channel's output lane, feedback and memory, the
phase and the write head are the same; and the reverse (43_sample_engine.md R202). -/
def Obligations.ChannelsAreIndependent : Prop :=
  ∀ (s t u : State) (l r v f : F32) (m : Memory), exec (.sample l r) s = .next t →
    (exec (.sample l v) { s with fbr := f, bufR := m } = .next u →
      t.fbl = u.fbl ∧ t.bufL = u.bufL ∧ t.ph = u.ph ∧ t.wh = u.wh
      ∧ ∃ o a b : F32, t.spOut = s.spOut ++ [a ++ o] ∧ u.spOut = s.spOut ++ [b ++ o])
    ∧ (exec (.sample v r) { s with fbl := f, bufL := m } = .next u →
      t.fbr = u.fbr ∧ t.bufR = u.bufR ∧ t.ph = u.ph ∧ t.wh = u.wh
      ∧ ∃ o a b : F32, t.spOut = s.spOut ++ [o ++ a] ∧ u.spOut = s.spOut ++ [o ++ b])

/-- With `PHASEOFF = 0` and equal channel states, equal inputs give equal outputs and leave the channels equal (43_sample_engine.md R202). -/
def Obligations.EqualChannelsStayEqual : Prop :=
  ∀ (s t : State) (v : F32), memWf s = true → s.phaseOff = 0 → s.fbl = s.fbr →
    (∀ i, i < s.capacity.toNat → wordAt s .left i = wordAt s .right i) → exec (.sample v v) s = .next t →
    t.fbl = t.fbr ∧ (∃ o : F32, t.spOut = s.spOut ++ [o ++ o])
    ∧ ∀ i, i < t.capacity.toNat → wordAt t .left i = wordAt t .right i

/-- A NaN read makes the channel's feedback and its output NaN for every FEEDBACK and DRYWET, and a read that touches a NaN word is NaN, whatever the
weights (40_numerics.md R133). -/
def Obligations.NanReadsPoisonTheChannel : Prop :=
  ∀ y : F32, isNaNF y = true → ∀ k input dw frac v : F32,
    mulF y k = 0x7FC00000 ∧ mix input y dw = 0x7FC00000 ∧ interpolate frac y v = 0x7FC00000 ∧ interpolate frac v y = 0x7FC00000

/-! ### Bridge and assembler -/

/-- A byte-addressed bridge sees byte `k` of a register in its bits `8k+7 : 8k` (20_memory.md R66), and nothing at an address in no register's four
bytes: the model's reading of R69 (log 22, DEDUCED). -/
def Obligations.BridgeIsLittleEndian : Prop :=
  ∀ (s : State) (r : Reg),
    bridgeByte (regAddr r) s = some ((regValue r s).extractLsb' 0 8)
    ∧ bridgeByte (regAddr r + 1) s = some ((regValue r s).extractLsb' 8 8)
    ∧ bridgeByte (regAddr r + 2) s = some ((regValue r s).extractLsb' 16 8)
    ∧ bridgeByte (regAddr r + 3) s = some ((regValue r s).extractLsb' 24 8)
    ∧ ∀ a : BitVec 8, (∀ q : Reg, a.toNat < (regAddr q).toNat ∨ (regAddr q).toNat + 4 ≤ a.toNat) → bridgeByte a s = none

/-- The lines of the textual form and the pseudo-instructions assemble to the transactions the rule gives: a read of each register by its name to its
word; a write of a value, and of a float literal's pattern, to each writable one; nothing for a read-only register, an illegal command or an
unknown name. A decimal literal stands for the nearest binary32, ties to even, and `inf`, `-inf` and a pattern for themselves (30_encoding.md R99).
The word `nan` is left out (log 21, DEDUCED). -/
def Obligations.AssemblerExpandsPseudoInstructions : Prop :=
  (∀ sr blk : Word, assemble (.prep sr blk)
      = some [encode (.wrSrate sr), encode (.wrMaxblk blk), encode .cmdPrepare])
    ∧ assemble .prepare = some [encode .cmdPrepare] ∧ assemble .clear = some [encode .cmdClear]
    ∧ assemble .defaults = some [encode .cmdDefaults] ∧ assemble .errclr = some [encode .cmdErrclr]
    ∧ assemble .chorus = some [encode (.wrMode 0)] ∧ assemble .flanger = some [encode (.wrMode 1)]
    ∧ (∀ l r : FloatLit, assemble (.sample l r) = some [encode (.sample (litBits l) (litBits r))])
    ∧ (∀ reg : Reg, assemble (.rd (regName reg).toList) = some [encode (readInstr reg)])
    ∧ (∀ (reg : Reg) (v : Word) (i : Instr), writeInstr reg v = .ok i → assemble (.wr (regName reg).toList v) = some [encode i])
    ∧ (∀ (reg : Reg) (x : FloatLit) (i : Instr), writeInstr reg (litBits x) = .ok i →
        assemble (.wrf (regName reg).toList x) = some [encode i])
    ∧ (∀ (reg : Reg) (v : Word) (x : FloatLit), regAccess reg = .ro →
        assemble (.wr (regName reg).toList v) = none ∧ assemble (.wrf (regName reg).toList x) = none)
    ∧ (∀ v : Word, v ≠ 0 → v ≠ 1 → v ≠ 2 → v ≠ 4 → v ≠ 8 → assemble (.wr (regName .ctrl).toList v) = none)
    ∧ (∀ x : FloatLit, litBits x ≠ 0 → litBits x ≠ 1 → litBits x ≠ 2 → litBits x ≠ 4 → litBits x ≠ 8 →
        assemble (.wrf (regName .ctrl).toList x) = none)
    ∧ (∀ (name : List Char) (v : Word) (x : FloatLit), (∀ reg : Reg, name.map Char.toUpper ≠ (regName reg).toList) →
        assemble (.rd name) = none ∧ assemble (.wr name v) = none ∧ assemble (.wrf name x) = none)
    ∧ assemble .nop = some [encode .nop] ∧ (∀ w : PortWord, assemble (.word64 w) = some [.cp w])
    ∧ litBits .inf = 0x7F800000 ∧ litBits .negInf = 0xFF800000 ∧ (∀ b : F32, litBits (.pattern b) = b)
    ∧ ∀ (neg : Bool) (num den : Nat), 0 < den →
        RoundsTo (if neg then -((num * unitF : Nat) : Int) else (num * unitF : Nat)) den (litBits (.decimal neg num den))

/-! ### The oscillator, again -/

/-- Nothing is lost by the model's slack: every function with the properties R131 gives `SinCycle`, for any SIN_ERR, is the waveform of some
configuration, from `+0` to 2.0 (40_numerics.md R131, R132). -/
def Obligations.SineMayBeAnyFunctionTheRuleAllows : Prop :=
  ∀ (p : Config.Params) (f : F32 → F32), MeetsSineRule p.sinErrNum p.sinErrDen f →
    ∀ t : F32, t.toNat ≤ 0x40000000 → sinCycle { p with sinChoice := f } t = f t
end

