-- ==== Sys2Proof/Laws/Float.lean ====
section
/-! SUPPORT. The rounding of Machine/Float.lean: magnitudes rise with patterns, rounding is exact on binary32 magnitudes, monotone, and
nearest (40_numerics.md R121, R127, R129). -/

namespace Sys2Proof.Machine

/-! ### Magnitudes of patterns -/

theorem magOfPat_eq_mul (n : Nat) (h : 2 ^ 23 ≤ n) :
    magOfPat n = (2 ^ 23 + n % 2 ^ 23) * 2 ^ (n / 2 ^ 23 - 1) := by
  have : n / 2 ^ 23 ≠ 0 := by omega
  rw [magOfPat, if_neg this]

theorem magOfPat_small {n : Nat} (h : n < 2 ^ 23) : magOfPat n = n := by
  have h0 : n / 2 ^ 23 = 0 := by omega
  have h1 : n % 2 ^ 23 = n := by omega
  rw [magOfPat, if_pos h0, h1]

/-- The pattern `k · 2^23 + r` with `r` a 24-bit significand in place is the magnitude `r · 2^k`. -/
theorem magOfPat_parts (k r : Nat) (hr : r ≤ 2 ^ 24) (hk : k = 0 ∨ 2 ^ 23 ≤ r) : magOfPat (k * 2 ^ 23 + r) = r * 2 ^ k := by
  by_cases h0 : r < 2 ^ 23
  · have hk0 : k = 0 := hk.resolve_right (by omega)
    subst hk0
    simpa using magOfPat_small (n := r) h0
  · by_cases h1 : r = 2 ^ 24
    · subst h1
      have he : (k * 2 ^ 23 + 2 ^ 24) / 2 ^ 23 = k + 2 := by omega
      have hf : (k * 2 ^ 23 + 2 ^ 24) % 2 ^ 23 = 0 := by omega
      rw [magOfPat_eq_mul _ (by omega), he, hf, show k + 2 - 1 = k + 1 by omega, pow_succ]
      ring
    · have he : (k * 2 ^ 23 + r) / 2 ^ 23 = k + 1 := by omega
      have hf : (k * 2 ^ 23 + r) % 2 ^ 23 = r - 2 ^ 23 := by omega
      rw [magOfPat_eq_mul _ (by omega), he, hf, show k + 1 - 1 = k by omega, show 2 ^ 23 + (r - 2 ^ 23) = r by omega]

theorem magOfPat_succ (n : Nat) : magOfPat (n + 1) = magOfPat n + 2 ^ (n / 2 ^ 23 - 1) := by
  by_cases h : n < 2 ^ 23
  · have h0 : n / 2 ^ 23 - 1 = 0 := by omega
    have := magOfPat_parts 0 (n + 1) (by omega) (.inl rfl)
    simp only [Nat.zero_mul, Nat.zero_add, pow_zero, Nat.mul_one] at this
    rw [magOfPat_small h, this, h0, pow_zero]
  · obtain ⟨k, r, rfl, h1, h2⟩ : ∃ k r, n = k * 2 ^ 23 + r ∧ 2 ^ 23 ≤ r ∧ r < 2 ^ 24 :=
      ⟨n / 2 ^ 23 - 1, n - (n / 2 ^ 23 - 1) * 2 ^ 23, by omega, by omega, by omega⟩
    rw [magOfPat_parts k r (by omega) (.inr h1), Nat.add_assoc, magOfPat_parts k (r + 1) (by omega) (.inr (by omega))]
    have : (k * 2 ^ 23 + r) / 2 ^ 23 - 1 = k := by omega
    rw [this]; ring

theorem magOfPat_strictMono : StrictMono magOfPat :=
  strictMono_nat_of_lt_succ fun n => by
    rw [magOfPat_succ]; exact Nat.lt_add_of_pos_right (Nat.two_pow_pos _)

theorem magOfPat_le_iff {m n : Nat} : magOfPat m ≤ magOfPat n ↔ m ≤ n := magOfPat_strictMono.le_iff_le

theorem magOfPat_lt_iff {m n : Nat} : magOfPat m < magOfPat n ↔ m < n := magOfPat_strictMono.lt_iff_lt

theorem magOfPat_inj {m n : Nat} : magOfPat m = magOfPat n ↔ m = n := magOfPat_strictMono.injective.eq_iff

@[simp] theorem magOfPat_zero : magOfPat 0 = 0 := magOfPat_small (by norm_num)

/-- Every pattern is a significand of at most 24 bits and a power of two. -/
theorem magOfPat_split (n : Nat) : ∃ k r, n = k * 2 ^ 23 + r ∧ r < 2 ^ 24 ∧ (k = 0 ∨ 2 ^ 23 ≤ r) ∧ magOfPat n = r * 2 ^ k := by
  by_cases h : n < 2 ^ 24
  · exact ⟨0, n, by omega, h, .inl rfl, by simpa using magOfPat_parts 0 n (by omega) (.inl rfl)⟩
  · refine ⟨n / 2 ^ 23 - 1, n - (n / 2 ^ 23 - 1) * 2 ^ 23, by omega, by omega, .inr (by omega), ?_⟩
    have := magOfPat_parts (n / 2 ^ 23 - 1) (n - (n / 2 ^ 23 - 1) * 2 ^ 23) (by omega) (.inr (by omega))
    rwa [show (n / 2 ^ 23 - 1) * 2 ^ 23 + (n - (n / 2 ^ 23 - 1) * 2 ^ 23) = n by omega] at this

/-! ### Rounding to an integer -/

/-- The rounded integer is within half of the quotient, and on a tie it is even. -/
theorem roundEven_spec (num den : Nat) (hd : 0 < den) :
    2 * (roundEven num den * den) ≤ 2 * num + den ∧ 2 * num ≤ 2 * (roundEven num den * den) + den
      ∧ (2 * (roundEven num den * den) = 2 * num + den ∨ 2 * num = 2 * (roundEven num den * den) + den →
          roundEven num den % 2 = 0) := by
  have hq := Nat.div_add_mod num den
  have hlt := Nat.mod_lt num hd
  have hc : den * (num / den) = num / den * den := Nat.mul_comm _ _
  unfold roundEven
  split
  · refine ⟨by omega, by omega, by omega⟩
  · split
    · rw [Nat.add_mul, Nat.one_mul]
      refine ⟨by omega, by omega, by omega⟩
    · rcases Nat.mod_two_eq_zero_or_one (num / den) with h | h
      · rw [h, Nat.add_zero]; refine ⟨by omega, by omega, by omega⟩
      · rw [h, Nat.add_mul, Nat.one_mul]; refine ⟨by omega, by omega, by omega⟩

/-- Rounding to an integer is monotone in the quotient. -/
theorem roundEven_mono {a b c d : Nat} (hb : 0 < b) (hd : 0 < d) (h : a * d ≤ c * b) : roundEven a b ≤ roundEven c d := by
  by_contra hcon
  obtain ⟨-, h2, h3⟩ := roundEven_spec c d hd
  obtain ⟨h4, -, h6⟩ := roundEven_spec a b hb
  set r := roundEven a b
  set q := roundEven c d
  have hrq : q + 1 ≤ r := by omega
  have e1 : 2 * (r * b) * d ≤ (2 * a + b) * d := Nat.mul_le_mul_right d h4
  have e2 : 2 * c * b ≤ (2 * (q * d) + d) * b := Nat.mul_le_mul_right b h2
  have e3 : (q + 1) * (b * d) ≤ r * (b * d) := Nat.mul_le_mul_right _ hrq
  have hbd : 0 < b * d := Nat.mul_pos hb hd
  have e4 : 2 * (r * b) * d = 2 * (r * (b * d)) := by ring
  have e5 : (2 * (q * d) + d) * b = 2 * (q * (b * d)) + b * d := by ring
  have e6 : (2 * a + b) * d = 2 * (a * d) + b * d := by ring
  have e7 : 2 * c * b = 2 * (c * b) := by ring
  have e8 : (q + 1) * (b * d) = q * (b * d) + b * d := by ring
  have heq : r * (b * d) = q * (b * d) + b * d := by omega
  have hr1 : r = q + 1 := by
    have : r * (b * d) = (q + 1) * (b * d) := by omega
    exact Nat.eq_of_mul_eq_mul_right hbd this
  have t1 : 2 * (r * b) * d = (2 * a + b) * d := by omega
  have t2 : 2 * c * b = (2 * (q * d) + d) * b := by omega
  have hr := h6 (.inl (Nat.eq_of_mul_eq_mul_right hd t1))
  have hq := h3 (.inr (Nat.eq_of_mul_eq_mul_right hb t2))
  omega

theorem roundEven_mul (r den : Nat) (hd : 0 < den) : roundEven (r * den) den = r := by
  unfold roundEven
  simp [Nat.mul_mod_left, Nat.mul_div_cancel _ hd, hd]

theorem roundEven_le_of_le {num den r : Nat} (hd : 0 < den) (h : num ≤ r * den) : roundEven num den ≤ r := by
  have := roundEven_mono hd hd (a := num) (c := r * den) (by gcongr)
  rwa [roundEven_mul r den hd] at this

theorem le_roundEven_of_le {num den r : Nat} (hd : 0 < den) (h : r * den ≤ num) : r ≤ roundEven num den := by
  have := roundEven_mono hd hd (a := r * den) (c := num) (by gcongr)
  rwa [roundEven_mul r den hd] at this

/-! ### The binade of a quotient -/

theorem lt_of_ulpExp (num den : Nat) (hd : 0 < den) : num < 2 ^ 24 * (den * 2 ^ ulpExp num den) := by
  have h : num / den < 2 ^ (Nat.log2 (num / den) + 1) := by
    rw [Nat.log2_eq_log_two]; exact Nat.lt_pow_succ_log_self (by norm_num) _
  have h2 : 2 ^ (Nat.log2 (num / den) + 1) ≤ 2 ^ (24 + ulpExp num den) :=
    Nat.pow_le_pow_right (by norm_num) (by unfold ulpExp; omega)
  have h3 : num / den < 2 ^ (24 + ulpExp num den) := lt_of_lt_of_le h h2
  have h4 := (Nat.div_lt_iff_lt_mul hd).1 h3
  rw [pow_add] at h4
  calc num < 2 ^ 24 * 2 ^ ulpExp num den * den := h4
    _ = 2 ^ 24 * (den * 2 ^ ulpExp num den) := by ring

theorem le_of_ulpExp {num den : Nat} (hk : ulpExp num den ≠ 0) :
    2 ^ 23 * (den * 2 ^ ulpExp num den) ≤ num := by
  have hq : num / den ≠ 0 := by
    intro h; apply hk; unfold ulpExp; rw [h]; rfl
  have h1 : 2 ^ (Nat.log2 (num / den)) ≤ num / den := Nat.log2_self_le hq
  have h2 : 2 ^ (23 + ulpExp num den) ≤ num / den := by
    have : 23 + ulpExp num den = Nat.log2 (num / den) := by unfold ulpExp at *; omega
    rwa [this]
  have hd : 0 < den := by
    rcases Nat.eq_zero_or_pos den with h | h
    · rw [h, Nat.div_zero] at hq; exact absurd rfl hq
    · exact h
  have h3 := (Nat.le_div_iff_mul_le hd).1 h2
  rw [pow_add] at h3
  calc 2 ^ 23 * (den * 2 ^ ulpExp num den) = 2 ^ 23 * 2 ^ ulpExp num den * den := by ring
    _ ≤ num := h3

theorem ulpExp_mono {a b c d : Nat} (hb : 0 < b) (hd : 0 < d) (h : a * d ≤ c * b) : ulpExp a b ≤ ulpExp c d := by
  have hq : a / b ≤ c / d := by
    rw [Nat.le_div_iff_mul_le hd]
    have : a / b * b ≤ a := Nat.div_mul_le_self a b
    have h1 : a / b * d * b ≤ c * b := by
      calc a / b * d * b = a / b * b * d := by ring
        _ ≤ a * d := Nat.mul_le_mul_right d this
        _ ≤ c * b := h
    exact Nat.le_of_mul_le_mul_right h1 hb
  unfold ulpExp
  rw [Nat.log2_eq_log_two, Nat.log2_eq_log_two]
  have := Nat.log_mono_right (b := 2) hq
  omega

/-- The significand that rounding leaves: at most 2^24, and at least 2^23 above the lowest binades. -/
theorem roundEven_bounds (num den : Nat) (hd : 0 < den) :
    roundEven num (den * 2 ^ ulpExp num den) ≤ 2 ^ 24
      ∧ (ulpExp num den = 0 ∨ 2 ^ 23 ≤ roundEven num (den * 2 ^ ulpExp num den)) := by
  have hpos : 0 < den * 2 ^ ulpExp num den := Nat.mul_pos hd (Nat.two_pow_pos _)
  refine ⟨roundEven_le_of_le hpos (lt_of_ulpExp num den hd).le, ?_⟩
  by_cases hk : ulpExp num den = 0
  · exact .inl hk
  · exact .inr (le_roundEven_of_le hpos (le_of_ulpExp hk))

/-! ### Rounding to a pattern -/

/-- The magnitude of the rounded pattern: a significand times its weight. -/
theorem magOfPat_roundPat (num den : Nat) (hd : 0 < den) :
    magOfPat (roundPat num den) = roundEven num (den * 2 ^ ulpExp num den) * 2 ^ ulpExp num den :=
  magOfPat_parts _ _ (roundEven_bounds num den hd).1 (roundEven_bounds num den hd).2

/-- Rounding to a pattern is monotone in the exact value (40_numerics.md R121). -/
theorem roundPat_mono {a b c d : Nat} (hb : 0 < b) (hd : 0 < d) (h : a * d ≤ c * b) : roundPat a b ≤ roundPat c d := by
  have hk := ulpExp_mono hb hd h
  obtain ⟨h1, -⟩ := roundEven_bounds a b hb
  obtain ⟨-, h2⟩ := roundEven_bounds c d hd
  unfold roundPat
  rcases Nat.eq_or_lt_of_le hk with he | hlt
  · rw [← he]
    refine Nat.add_le_add_left (roundEven_mono (Nat.mul_pos hb (Nat.two_pow_pos _)) (Nat.mul_pos hd (Nat.two_pow_pos _)) ?_) _
    calc a * (d * 2 ^ ulpExp a b) = a * d * 2 ^ ulpExp a b := by ring
      _ ≤ c * b * 2 ^ ulpExp a b := Nat.mul_le_mul_right _ h
      _ = c * (b * 2 ^ ulpExp a b) := by ring
  · have h3 : 2 ^ 23 ≤ roundEven c (d * 2 ^ ulpExp c d) := h2.resolve_left (by omega)
    omega

/-- A binary32 magnitude rounds to its own pattern. -/
theorem roundPat_magOfPat (n den : Nat) (hd : 0 < den) : roundPat (magOfPat n * den) den = n := by
  have hdiv : magOfPat n * den / den = magOfPat n := Nat.mul_div_cancel _ hd
  obtain ⟨k, r, hn, hr, hk, hm⟩ := magOfPat_split n
  have hu : ulpExp (magOfPat n * den) den = k := by
    unfold ulpExp
    rw [hdiv, hm, Nat.log2_eq_log_two]
    rcases hk with rfl | hk
    · have : Nat.log 2 (r * 2 ^ 0) < 24 := Nat.log_lt_of_lt_pow' (by norm_num) (by omega)
      omega
    · have h2 : Nat.log 2 (r * 2 ^ k) = 23 + k := by
        rw [Nat.log_eq_iff (.inl (by omega)), show 23 + k + 1 = 24 + k by omega, pow_add, pow_add]
        exact ⟨Nat.mul_le_mul_right _ hk, Nat.mul_lt_mul_of_pos_right hr (Nat.two_pow_pos k)⟩
      omega
  unfold roundPat
  rw [hu, hm, show r * 2 ^ k * den = r * (den * 2 ^ k) by ring,
    roundEven_mul r _ (Nat.mul_pos hd (Nat.two_pow_pos _))]
  exact hn.symm

/-- A binary32 magnitude at or above the exact value is at or above the rounded one. -/
theorem roundPat_le {num den n : Nat} (hd : 0 < den) (h : num ≤ magOfPat n * den) : roundPat num den ≤ n := by
  have := roundPat_mono hd hd (a := num) (c := magOfPat n * den) (Nat.mul_le_mul_right den h)
  rwa [roundPat_magOfPat n den hd] at this

/-- A binary32 magnitude at or below the exact value is at or below the rounded one. -/
theorem le_roundPat {num den n : Nat} (hd : 0 < den) (h : magOfPat n * den ≤ num) : n ≤ roundPat num den := by
  have := roundPat_mono hd hd (a := magOfPat n * den) (c := num) (Nat.mul_le_mul_right den h)
  rwa [roundPat_magOfPat n den hd] at this

/-- The rounded magnitude is a nearest one (40_numerics.md R121): no pattern's magnitude is closer to `num / den`. -/
theorem roundPat_nearest (num den : Nat) (hd : 0 < den) (m : Nat) :
    |(magOfPat (roundPat num den) * den : Int) - num| ≤ |(magOfPat m * den : Int) - num| := by
  rw [magOfPat_roundPat num den hd]
  set k := ulpExp num den with hkdef
  set w := den * 2 ^ k with hw
  have hwpos : 0 < w := Nat.mul_pos hd (Nat.two_pow_pos _)
  obtain ⟨s1, s2, -⟩ := roundEven_spec num w hwpos
  set r := roundEven num w with hr
  -- a multiple of the weight is no closer
  have key : ∀ c : Nat, |((r * w : Nat) : Int) - num| ≤ |((c * w : Nat) : Int) - num| := by
    intro c
    have habs : |((r * w : Nat) : Int) - num| * 2 ≤ w := by
      rcases abs_cases (((r * w : Nat) : Int) - num) with ⟨e, -⟩ | ⟨e, -⟩ <;> rw [e] <;> omega
    rcases Nat.lt_trichotomy c r with hc | hc | hc
    · have : (c + 1) * w ≤ r * w := Nat.mul_le_mul_right w hc
      rw [Nat.add_mul, Nat.one_mul] at this
      have := neg_le_abs (((c * w : Nat) : Int) - num)
      have := le_abs_self (((c * w : Nat) : Int) - num)
      omega
    · rw [hc]
    · have : (r + 1) * w ≤ c * w := Nat.mul_le_mul_right w hc
      rw [Nat.add_mul, Nat.one_mul] at this
      have := neg_le_abs (((c * w : Nat) : Int) - num)
      have := le_abs_self (((c * w : Nat) : Int) - num)
      omega
  have e1 : ((r * 2 ^ k : Nat) : Int) * den = ((r * w : Nat) : Int) := by rw [hw]; push_cast; ring
  rw [e1]
  obtain ⟨j, q, -, hq, hj, hm⟩ := magOfPat_split m
  by_cases hjk : k ≤ j
  · have e2 : (magOfPat m * den : Int) = ((q * 2 ^ (j - k) * w : Nat) : Int) := by
      rw [hm, hw]; push_cast
      rw [show (2 : Int) ^ j = 2 ^ (j - k) * 2 ^ k by rw [← pow_add]; congr 1; omega]; ring
    rw [e2]; exact key _
  · have hk0 : k ≠ 0 := by omega
    have hlow : 2 ^ 23 * w ≤ num := le_of_ulpExp (by rwa [← hkdef])
    have hmle : magOfPat m * den ≤ 2 ^ 23 * w := by
      have h1 : q * 2 ^ j ≤ 2 ^ 24 * 2 ^ (k - 1) := Nat.mul_le_mul hq.le (Nat.pow_le_pow_right (by norm_num) (by omega))
      have h2 : 2 ^ 24 * 2 ^ (k - 1) = 2 ^ 23 * 2 ^ k := by
        rw [← pow_add, ← pow_add]; congr 1; omega
      rw [hm, hw]
      calc q * 2 ^ j * den ≤ 2 ^ 23 * 2 ^ k * den := Nat.mul_le_mul_right _ (by omega)
        _ = 2 ^ 23 * (den * 2 ^ k) := by ring
    refine le_trans (key (2 ^ 23)) ?_
    have hc : ((magOfPat m * den : Nat) : Int) = (magOfPat m * den : Int) := by push_cast; rfl
    rw [← hc]
    rw [abs_sub_comm, abs_sub_comm ((magOfPat m * den : Nat) : Int), abs_of_nonneg (by omega), abs_of_nonneg (by omega)]
    omega

/-! ### Patterns -/

theorem absPat_lt (a : F32) : absPat a < 2 ^ 31 := Nat.mod_lt _ (by norm_num)

/-- A pattern is its sign and its other bits. -/
theorem toNat_eq (a : F32) : a.toNat = (if signF a then 2 ^ 31 else 0) + absPat a := by
  have := a.isLt
  unfold signF absPat
  by_cases h : 2 ^ 31 ≤ a.toNat
  · simp only [h, decide_true, if_true]; omega
  · simp only [h, decide_false]; simp; omega

theorem eq_of_sign_of_absPat {a b : F32} (hs : signF a = signF b) (hp : absPat a = absPat b) : a = b :=
  BitVec.eq_of_toNat_eq (by rw [toNat_eq a, toNat_eq b, hs, hp])

theorem toNat_packF (neg : Bool) (n : Nat) : (packF neg n).toNat = (if neg then 2 ^ 31 else 0) + min n infPat := by
  have : min n infPat ≤ 0x7F800000 := Nat.min_le_right _ _
  unfold packF
  rw [BitVec.toNat_ofNat, Nat.mod_eq_of_lt]
  split <;> omega

@[simp] theorem signF_packF (neg : Bool) (n : Nat) : signF (packF neg n) = neg := by
  have : min n infPat ≤ 0x7F800000 := Nat.min_le_right _ _
  unfold signF
  rw [toNat_packF]
  cases neg
  · simp only [Bool.false_eq_true, if_false, decide_eq_false_iff_not]; omega
  · simp only [if_true, decide_eq_true_eq]; omega

@[simp] theorem absPat_packF (neg : Bool) (n : Nat) : absPat (packF neg n) = min n infPat := by
  have : min n infPat ≤ 0x7F800000 := Nat.min_le_right _ _
  unfold absPat
  rw [toNat_packF]
  split <;> omega

/-- A pattern is packed from its own sign and bits, unless it is NaN. -/
theorem packF_self {a : F32} (h : isNaNF a = false) : packF (signF a) (absPat a) = a := by
  apply eq_of_sign_of_absPat (signF_packF _ _)
  rw [absPat_packF]
  simp only [isNaNF, decide_eq_false_iff_not] at h
  omega

theorem isNaNF_packF (neg : Bool) (n : Nat) : isNaNF (packF neg n) = false := by
  have : min n infPat ≤ infPat := Nat.min_le_right _ _
  simp only [isNaNF, absPat_packF, decide_eq_false_iff_not]
  omega

/-- What rounding gives, sign and bits apart: the one lemma to cite about `roundF`. -/
theorem roundF_eq_packF (neg : Bool) (num den : Nat) : roundF neg num den = packF neg (roundPat num den) := by
  unfold roundF
  exact Eq.refl (packF neg (roundPat num den))

@[simp] theorem signF_roundF (neg : Bool) (num den : Nat) : signF (roundF neg num den) = neg := by
  rw [roundF_eq_packF, signF_packF]

@[simp] theorem absPat_roundF (neg : Bool) (num den : Nat) : absPat (roundF neg num den) = min (roundPat num den) infPat := by
  rw [roundF_eq_packF, absPat_packF]

theorem isNaNF_roundF (neg : Bool) (num den : Nat) : isNaNF (roundF neg num den) = false := by
  rw [roundF_eq_packF, isNaNF_packF]

theorem isFiniteF_iff (a : F32) : isFiniteF a = true ↔ absPat a < infPat := by simp [isFiniteF]

theorem isNaNF_of_finite {a : F32} (h : isFiniteF a = true) : isNaNF a = false := by
  rw [isFiniteF_iff] at h
  simp only [isNaNF, decide_eq_false_iff_not]; omega

theorem isInfF_of_finite {a : F32} (h : isFiniteF a = true) : isInfF a = false := by
  rw [isFiniteF_iff] at h
  simp only [isInfF, decide_eq_false_iff_not]; omega

/-- A number of known sign, in units of 2^-149. -/
theorem valF_eq (a : F32) : valF a = if signF a then -(magOfPat (absPat a) : Int) else (magOfPat (absPat a) : Int) := rfl

theorem valF_of_nonneg {a : F32} (h : signF a = false) : valF a = magOfPat (absPat a) := by simp [valF_eq, h]

theorem natAbs_valF (a : F32) : (valF a).natAbs = magF a := by
  rw [valF_eq]; split <;> simp [magF]

/-- A pattern below 0x80000000 is its own bits 30:0, and is not negative. -/
theorem nonneg_of_toNat_lt {a : F32} (h : a.toNat < 2 ^ 31) : signF a = false ∧ absPat a = a.toNat := by
  unfold signF absPat
  refine ⟨by simp only [decide_eq_false_iff_not]; omega, by omega⟩

/-- The value of a pattern below infinity. -/
theorem valF_of_toNat {a : F32} (h : a.toNat < infPat) : valF a = magOfPat a.toNat ∧ isFiniteF a = true := by
  have h31 : a.toNat < 2 ^ 31 := lt_trans h (by norm_num [infPat])
  obtain ⟨hs, hp⟩ := nonneg_of_toNat_lt h31
  exact ⟨by rw [valF_of_nonneg hs, hp], by rw [isFiniteF_iff, hp]; exact h⟩

/-! ### Rounding signed values -/

/-- An exact value of a sign and a magnitude. -/
def signedInt (neg : Bool) (n : Nat) : Int := if neg then -(n : Int) else (n : Int)

/-- A value between two finite numbers rounds to a finite number between them (40_numerics.md R121): rounding is monotone, and exact on
binary32 numbers. -/
theorem roundF_between {neg : Bool} {num den : Nat} {lo hi : F32} (hd : 0 < den) (hlo : isFiniteF lo = true)
    (hhi : isFiniteF hi = true) (h1 : valF lo * den ≤ signedInt neg num) (h2 : signedInt neg num ≤ valF hi * den) :
    isFiniteF (roundF neg num den) = true ∧ valF lo ≤ valF (roundF neg num den) ∧ valF (roundF neg num den) ≤ valF hi := by
  rw [isFiniteF_iff] at hlo hhi ⊢
  unfold roundF
  have hsign := signF_packF neg (roundPat num den)
  rw [valF_eq (packF neg (roundPat num den)), hsign, absPat_packF]
  cases neg
  · -- a value at or above zero
    simp only [signedInt, Bool.false_eq_true, if_false] at h1 h2 ⊢
    have hhs : num ≤ magOfPat (absPat hi) * den := by
      rw [valF_eq] at h2
      split at h2
      · have : (0 : Int) ≤ magOfPat (absPat hi) * den := by positivity
        have hz : (num : Int) ≤ 0 := by rw [Int.neg_mul] at h2; omega
        have : num = 0 := by omega
        omega
      · exact_mod_cast h2
    have hle := roundPat_le hd hhs
    have hmin : min (roundPat num den) infPat = roundPat num den := by omega
    rw [hmin]
    refine ⟨by omega, ?_, ?_⟩
    · rw [valF_eq] at h1 ⊢
      split
      · have : (0 : Int) ≤ magOfPat (absPat lo) := by positivity
        omega
      · next hs =>
        rw [if_neg hs] at h1
        exact_mod_cast magOfPat_le_iff.2 (le_roundPat hd (by exact_mod_cast h1))
    · rw [valF_eq] at h2 ⊢
      split
      · next hs =>
        rw [if_pos hs, Int.neg_mul] at h2
        have h3 : (0 : Int) ≤ magOfPat (absPat hi) * den := by positivity
        have hnum : num = 0 := by omega
        have h4 : (magOfPat (absPat hi) : Int) * den = 0 := by omega
        have h5 : magOfPat (absPat hi) = 0 := by
          rcases Int.mul_eq_zero.1 h4 with h | h
          · exact_mod_cast h
          · omega
        have h6 : roundPat num den ≤ 0 := roundPat_le hd (by simp [hnum])
        have h7 : roundPat num den = 0 := by omega
        rw [h7, h5]; simp
      · exact_mod_cast magOfPat_le_iff.2 hle
  · -- a value at or below zero
    simp only [signedInt, if_true] at h1 h2 ⊢
    have hls : num ≤ magOfPat (absPat lo) * den := by
      rw [valF_eq] at h1
      split at h1
      · rw [Int.neg_mul] at h1; exact_mod_cast Int.neg_le_neg_iff.1 h1
      · have : (0 : Int) ≤ magOfPat (absPat lo) * den := by positivity
        have : num = 0 := by omega
        omega
    have hle := roundPat_le hd hls
    have hmin : min (roundPat num den) infPat = roundPat num den := by omega
    rw [hmin]
    refine ⟨by omega, ?_, ?_⟩
    · rw [valF_eq] at h1 ⊢
      split
      · exact Int.neg_le_neg (by exact_mod_cast magOfPat_le_iff.2 hle)
      · next hs =>
        rw [if_neg hs] at h1
        have h3 : (0 : Int) ≤ magOfPat (absPat lo) * den := by positivity
        have hnum : num = 0 := by omega
        have h4 : (magOfPat (absPat lo) : Int) * den = 0 := by omega
        have h5 : magOfPat (absPat lo) = 0 := by
          rcases Int.mul_eq_zero.1 h4 with h | h
          · exact_mod_cast h
          · omega
        have h7 : roundPat num den = 0 := by
          have := roundPat_le (n := 0) hd (num := num) (by simp [hnum])
          omega
        rw [h7, h5]; simp
    · rw [valF_eq] at h2 ⊢
      split
      · next hs =>
        rw [if_pos hs, Int.neg_mul] at h2
        refine Int.neg_le_neg ?_
        exact_mod_cast magOfPat_le_iff.2 (le_roundPat hd (by exact_mod_cast Int.neg_le_neg_iff.1 h2))
      · have : (0 : Int) ≤ magOfPat (absPat hi) := by positivity
        have h3 : (0 : Int) ≤ magOfPat (roundPat num den) := by positivity
        omega

theorem unitF_pos : 0 < unitF := by unfold unitF; exact Nat.two_pow_pos 149

/-! ### The operations -/

theorem signedInt_natAbs (v : Int) : signedInt (decide (v < 0)) v.natAbs = v := by
  unfold signedInt
  split
  · next h => simp only [decide_eq_true_eq] at h; omega
  · next h => simp only [decide_eq_true_eq] at h; omega

theorem addF_of_finite {a b : F32} (ha : isFiniteF a = true) (hb : isFiniteF b = true) :
    addF a b = if valF a + valF b = 0 then (if signF a && signF b then negZero else posZero)
      else roundF (decide (valF a + valF b < 0)) (valF a + valF b).natAbs 1 := by
  simp [addF, isNaNF_of_finite ha, isNaNF_of_finite hb, isInfF_of_finite ha, isInfF_of_finite hb]

/-- A sum between two finite numbers rounds to a finite number between them. -/
theorem addF_between {a b lo hi : F32} (ha : isFiniteF a = true) (hb : isFiniteF b = true) (hlo : isFiniteF lo = true)
    (hhi : isFiniteF hi = true) (h1 : valF lo ≤ valF a + valF b) (h2 : valF a + valF b ≤ valF hi) :
    isFiniteF (addF a b) = true ∧ valF lo ≤ valF (addF a b) ∧ valF (addF a b) ≤ valF hi := by
  rw [addF_of_finite ha hb]
  split
  · next h0 =>
    have hz : ∀ z : F32, z = negZero ∨ z = posZero → isFiniteF z = true ∧ valF z = 0 := by
      rintro z (rfl | rfl) <;> decide
    have := hz (if signF a && signF b then negZero else posZero) (by split <;> simp)
    exact ⟨this.1, by omega, by omega⟩
  · refine roundF_between (by norm_num) hlo hhi ?_ ?_ <;> rw [signedInt_natAbs] <;> omega

theorem signedInt_mul (a b : F32) : signedInt (signF a != signF b) (magF a * magF b) = valF a * valF b := by
  rw [valF_eq, valF_eq, signedInt]
  cases signF a <;> cases signF b <;> simp [magF]

/-- A product between two finite numbers rounds to a finite number between them. -/
theorem mulF_between {a b lo hi : F32} (ha : isFiniteF a = true) (hb : isFiniteF b = true) (hlo : isFiniteF lo = true)
    (hhi : isFiniteF hi = true) (h1 : valF lo * unitF ≤ valF a * valF b) (h2 : valF a * valF b ≤ valF hi * unitF) :
    isFiniteF (mulF a b) = true ∧ valF lo ≤ valF (mulF a b) ∧ valF (mulF a b) ≤ valF hi := by
  have he : mulF a b = roundF (signF a != signF b) (magF a * magF b) unitF := by
    simp [mulF, isNaNF_of_finite ha, isNaNF_of_finite hb, isInfF_of_finite ha, isInfF_of_finite hb]
  rw [he]
  refine roundF_between unitF_pos hlo hhi ?_ ?_ <;> rw [signedInt_mul] <;> assumption

/-- A quotient of nonnegative numbers between two finite numbers rounds to a finite number between them. -/
theorem divF_between {a b lo hi : F32} (ha : isFiniteF a = true) (hb : isFiniteF b = true) (hsa : signF a = false)
    (hsb : signF b = false) (hb0 : isZeroF b = false) (hlo : isFiniteF lo = true) (hhi : isFiniteF hi = true)
    (h1 : valF lo * valF b ≤ valF a * unitF) (h2 : valF a * unitF ≤ valF hi * valF b) :
    isFiniteF (divF a b) = true ∧ valF lo ≤ valF (divF a b) ∧ valF (divF a b) ≤ valF hi ∧ signF (divF a b) = false := by
  have he : divF a b = roundF false (magF a * unitF) (magF b) := by
    simp [divF, isNaNF_of_finite ha, isNaNF_of_finite hb, isInfF_of_finite ha, isInfF_of_finite hb, hb0, hsa, hsb]
  have hpos : 0 < magF b := by
    have h : absPat b ≠ 0 := by simpa [isZeroF] using hb0
    have := magOfPat_lt_iff.2 (Nat.pos_of_ne_zero h)
    rwa [magOfPat_zero] at this
  rw [valF_of_nonneg hsb] at h1 h2
  rw [valF_of_nonneg hsa] at h1 h2
  rw [he]
  have hb := roundF_between (neg := false) (num := magF a * unitF) (den := magF b) hpos hlo hhi
    (by simpa [signedInt, magF] using h1) (by simpa [signedInt, magF] using h2)
  exact ⟨hb.1, hb.2.1, hb.2.2, signF_roundF _ _ _⟩

/-- `toF32` is exact on the integers it is defined for (40_numerics.md R127). -/
theorem toF32_exact {n : Nat} (h : n < 2 ^ 24) :
    isFiniteF (toF32 n) = true ∧ signF (toF32 n) = false ∧ valF (toF32 n) = n * unitF := by
  obtain ⟨p, hp, hm⟩ : ∃ p, p < infPat ∧ magOfPat p = n * unitF := by
    rcases Nat.eq_zero_or_pos n with rfl | hn
    · exact ⟨0, by norm_num [infPat], by simp⟩
    · set k := Nat.log 2 n
      have hk : k < 24 := Nat.log_lt_of_lt_pow (by omega) h
      have hlow : 2 ^ k ≤ n := Nat.pow_log_le_self 2 (by omega)
      have hup : n < 2 ^ (k + 1) := Nat.lt_pow_succ_log_self (by norm_num) n
      have e1 : 2 ^ k * 2 ^ (23 - k) = 2 ^ 23 := by rw [← pow_add]; congr 1; omega
      have e2 : 2 ^ (k + 1) * 2 ^ (23 - k) = 2 ^ 24 := by rw [← pow_add]; congr 1; omega
      have b1 : 2 ^ 23 ≤ n * 2 ^ (23 - k) := by rw [← e1]; exact Nat.mul_le_mul_right _ hlow
      have b2 : n * 2 ^ (23 - k) < 2 ^ 24 := by rw [← e2]; exact Nat.mul_lt_mul_of_pos_right hup (Nat.two_pow_pos _)
      refine ⟨(126 + k) * 2 ^ 23 + n * 2 ^ (23 - k), by unfold infPat; omega, ?_⟩
      rw [magOfPat_parts _ _ b2.le (.inr b1), Nat.mul_assoc, ← pow_add, unitF]
      congr 2; omega
  have hr : roundPat (n * unitF) 1 = p := by rw [← hm]; simpa using roundPat_magOfPat p 1 (by norm_num)
  have hs : signF (toF32 n) = false := by unfold toF32; exact signF_roundF _ _ _
  have ha : absPat (toF32 n) = p := by unfold toF32; rw [absPat_roundF, hr]; omega
  refine ⟨by rw [isFiniteF_iff, ha]; exact hp, hs, ?_⟩
  rw [valF_of_nonneg hs, ha, hm]; push_cast; rfl

/-- Two finite numbers of the same value are the same pattern, but for the sign of zero. -/
theorem absPat_of_valF_eq {a b : F32} (h : valF a = valF b) : absPat a = absPat b := by
  have := congrArg Int.natAbs h
  rw [natAbs_valF, natAbs_valF] at this
  exact magOfPat_inj.1 this

/-! ### Negation and subtraction -/

theorem toNat_negF (a : F32) : (negF a).toNat = a.toNat ^^^ 2 ^ 31 := by
  unfold negF; rw [BitVec.toNat_xor]; rfl

@[simp] theorem absPat_negF (a : F32) : absPat (negF a) = absPat a := by
  unfold absPat
  rw [toNat_negF, Nat.xor_mod_two_pow, Nat.mod_self, Nat.xor_zero]

@[simp] theorem signF_negF (a : F32) : signF (negF a) = !signF a := by
  have h : (negF a).toNat / 2 ^ 31 = a.toNat / 2 ^ 31 ^^^ 1 := by
    rw [toNat_negF, Nat.xor_div_two_pow, Nat.div_self (Nat.two_pow_pos 31)]
  have hlt := a.isLt
  have hn := (negF a).isLt
  unfold signF
  have hq : a.toNat / 2 ^ 31 = 0 ∨ a.toNat / 2 ^ 31 = 1 := by omega
  rcases hq with hq | hq
  · have h1 : (negF a).toNat / 2 ^ 31 = 1 := by rw [h, hq]; rfl
    have e1 : ¬ 2 ^ 31 ≤ a.toNat := by omega
    have e2 : 2 ^ 31 ≤ (negF a).toNat := by omega
    rw [decide_eq_true e2, decide_eq_false e1]; rfl
  · have h1 : (negF a).toNat / 2 ^ 31 = 0 := by rw [h, hq]; rfl
    have e1 : 2 ^ 31 ≤ a.toNat := by omega
    have e2 : ¬ 2 ^ 31 ≤ (negF a).toNat := by omega
    rw [decide_eq_true e1, decide_eq_false e2]; rfl

@[simp] theorem isFiniteF_negF (a : F32) : isFiniteF (negF a) = isFiniteF a := by simp [isFiniteF]

@[simp] theorem isNaNF_negF (a : F32) : isNaNF (negF a) = isNaNF a := by simp [isNaNF]

@[simp] theorem isInfF_negF (a : F32) : isInfF (negF a) = isInfF a := by simp [isInfF]

@[simp] theorem valF_negF (a : F32) : valF (negF a) = -valF a := by
  rw [valF_eq, valF_eq, signF_negF, absPat_negF]
  cases signF a <;> simp

/-- A difference between two finite numbers rounds to a finite number between them. -/
theorem subF_between {a b lo hi : F32} (ha : isFiniteF a = true) (hb : isFiniteF b = true) (hlo : isFiniteF lo = true)
    (hhi : isFiniteF hi = true) (h1 : valF lo ≤ valF a - valF b) (h2 : valF a - valF b ≤ valF hi) :
    isFiniteF (subF a b) = true ∧ valF lo ≤ valF (subF a b) ∧ valF (subF a b) ≤ valF hi := by
  refine addF_between ha ((isFiniteF_negF b).trans hb) hlo hhi ?_ ?_ <;> rw [valF_negF] <;> omega

/-! ### Comparisons and integers -/

theorem magF_of_nonneg {a : F32} (h : 0 ≤ valF a) : (magF a : Int) = valF a := by
  rw [← natAbs_valF]; omega

theorem ltF_iff {a b : F32} (ha : isFiniteF a = true) (hb : isFiniteF b = true) : ltF a b = true ↔ valF a < valF b := by
  simp [ltF, isNaNF_of_finite ha, isNaNF_of_finite hb]

theorem leF_iff {a b : F32} (ha : isFiniteF a = true) (hb : isFiniteF b = true) : leF a b = true ↔ valF a ≤ valF b := by
  simp [leF, isNaNF_of_finite ha, isNaNF_of_finite hb]

theorem geF_iff {a b : F32} (ha : isFiniteF a = true) (hb : isFiniteF b = true) : geF a b = true ↔ valF b ≤ valF a :=
  leF_iff hb ha

/-- `floor` of a finite number that is not negative. -/
theorem floorF_of_nonneg {a : F32} (h : isFiniteF a = true) (h0 : 0 ≤ valF a) : floorF a = some (magF a / unitF) := by
  have hz : (!signF a || isZeroF a) = true := by
    rw [valF_eq] at h0
    cases hs : signF a with
    | false => rfl
    | true =>
      rw [if_pos hs] at h0
      have h1 : magOfPat (absPat a) = magOfPat 0 := by rw [magOfPat_zero]; omega
      simp [isZeroF, magOfPat_inj.1 h1]
  unfold floorF
  rw [h, hz]; rfl

/-- The floor of a number between 0 and `n` is at most `n`. -/
theorem floor_le {a : F32} {n : Nat} (h0 : 0 ≤ valF a) (h : valF a ≤ n * unitF) : magF a / unitF ≤ n := by
  have h1 : (magF a : Int) ≤ (n * unitF : Nat) := by rw [magF_of_nonneg h0]; push_cast; exact h
  exact Nat.div_le_of_le_mul (by rw [Nat.mul_comm]; exact_mod_cast h1)

/-! ### Signs of results -/

/-- A pattern of a finite number that is not negative, nor `-0`, in terms of its value. -/
theorem valF_le_iff_toNat {a b : F32} (ha : signF a = false) (hb : signF b = false) : valF a ≤ valF b ↔ a.toNat ≤ b.toNat := by
  rw [valF_of_nonneg ha, valF_of_nonneg hb, toNat_eq a, toNat_eq b, ha, hb]
  simp [magOfPat_le_iff]

theorem valF_lt_iff_toNat {a b : F32} (ha : signF a = false) (hb : signF b = false) : valF a < valF b ↔ a.toNat < b.toNat := by
  rw [valF_of_nonneg ha, valF_of_nonneg hb, toNat_eq a, toNat_eq b, ha, hb]
  simp [magOfPat_lt_iff]

/-- The sign of a nonzero finite value is its bit 31. -/
theorem signF_of_valF_pos {a : F32} (h : 0 < valF a) : signF a = false := by
  rw [valF_eq] at h
  cases hs : signF a with
  | false => rfl
  | true => rw [if_pos hs] at h; omega

/-- A sum is `-0` only of two negative numbers (40_numerics.md R123). -/
theorem signF_addF_of_nonneg {a b : F32} (ha : isFiniteF a = true) (hb : isFiniteF b = true) (hs : signF a = false)
    (h : 0 ≤ valF a + valF b) : signF (addF a b) = false := by
  rw [addF_of_finite ha hb]
  split
  · rw [hs]; rfl
  · rw [signF_roundF]; simp only [decide_eq_false_iff_not]; omega

theorem mulF_of_finite {a b : F32} (ha : isFiniteF a = true) (hb : isFiniteF b = true) :
    mulF a b = roundF (signF a != signF b) (magF a * magF b) unitF := by
  simp [mulF, isNaNF_of_finite ha, isNaNF_of_finite hb, isInfF_of_finite ha, isInfF_of_finite hb]

theorem signF_mulF_of_finite {a b : F32} (ha : isFiniteF a = true) (hb : isFiniteF b = true) :
    signF (mulF a b) = (signF a != signF b) := by
  rw [mulF_of_finite ha hb, signF_roundF]

end Sys2Proof.Machine
end

