-- ==== Sys2Proof/Laws/State.lean ====
section
/-! SUPPORT. What each named state update leaves in each field, so that no later proof unfolds a record update. -/

namespace Sys2Proof.Machine

@[simp] theorem reply_ready (r : CpReply) (s : State) : (s.reply r).ready = s.ready := rfl
@[simp] theorem reply_errPrep (r : CpReply) (s : State) : (s.reply r).errPrep = s.errPrep := rfl
@[simp] theorem reply_errNrdy (r : CpReply) (s : State) : (s.reply r).errNrdy = s.errNrdy := rfl
@[simp] theorem reply_errAcc (r : CpReply) (s : State) : (s.reply r).errAcc = s.errAcc := rfl
@[simp] theorem reply_srate (r : CpReply) (s : State) : (s.reply r).srate = s.srate := rfl
@[simp] theorem reply_maxblk (r : CpReply) (s : State) : (s.reply r).maxblk = s.maxblk := rfl
@[simp] theorem reply_srAct (r : CpReply) (s : State) : (s.reply r).srAct = s.srAct := rfl
@[simp] theorem reply_capacity (r : CpReply) (s : State) : (s.reply r).capacity = s.capacity := rfl
@[simp] theorem reply_dryWet (r : CpReply) (s : State) : (s.reply r).dryWet = s.dryWet := rfl
@[simp] theorem reply_depth (r : CpReply) (s : State) : (s.reply r).depth = s.depth := rfl
@[simp] theorem reply_rate (r : CpReply) (s : State) : (s.reply r).rate = s.rate := rfl
@[simp] theorem reply_phaseOff (r : CpReply) (s : State) : (s.reply r).phaseOff = s.phaseOff := rfl
@[simp] theorem reply_feedback (r : CpReply) (s : State) : (s.reply r).feedback = s.feedback := rfl
@[simp] theorem reply_mode (r : CpReply) (s : State) : (s.reply r).mode = s.mode := rfl
@[simp] theorem reply_wh (r : CpReply) (s : State) : (s.reply r).wh = s.wh := rfl
@[simp] theorem reply_ph (r : CpReply) (s : State) : (s.reply r).ph = s.ph := rfl
@[simp] theorem reply_fbl (r : CpReply) (s : State) : (s.reply r).fbl = s.fbl := rfl
@[simp] theorem reply_fbr (r : CpReply) (s : State) : (s.reply r).fbr = s.fbr := rfl
@[simp] theorem reply_bufL (r : CpReply) (s : State) : (s.reply r).bufL = s.bufL := rfl
@[simp] theorem reply_bufR (r : CpReply) (s : State) : (s.reply r).bufR = s.bufR := rfl
@[simp] theorem reply_zeroed (r : CpReply) (s : State) : (s.reply r).zeroed = s.zeroed := rfl
@[simp] theorem reply_resets (r : CpReply) (s : State) : (s.reply r).resets = s.resets := rfl
@[simp] theorem reply_pending (r : CpReply) (s : State) : (s.reply r).pending = s.pending := rfl
@[simp] theorem reply_cpOut (r : CpReply) (s : State) : (s.reply r).cpOut = s.cpOut ++ [r] := rfl
@[simp] theorem reply_spOut (r : CpReply) (s : State) : (s.reply r).spOut = s.spOut := rfl

@[simp] theorem emit_ready (l r : F32) (s : State) : (s.emit l r).ready = s.ready := rfl
@[simp] theorem emit_errPrep (l r : F32) (s : State) : (s.emit l r).errPrep = s.errPrep := rfl
@[simp] theorem emit_errNrdy (l r : F32) (s : State) : (s.emit l r).errNrdy = s.errNrdy := rfl
@[simp] theorem emit_errAcc (l r : F32) (s : State) : (s.emit l r).errAcc = s.errAcc := rfl
@[simp] theorem emit_srate (l r : F32) (s : State) : (s.emit l r).srate = s.srate := rfl
@[simp] theorem emit_maxblk (l r : F32) (s : State) : (s.emit l r).maxblk = s.maxblk := rfl
@[simp] theorem emit_srAct (l r : F32) (s : State) : (s.emit l r).srAct = s.srAct := rfl
@[simp] theorem emit_capacity (l r : F32) (s : State) : (s.emit l r).capacity = s.capacity := rfl
@[simp] theorem emit_dryWet (l r : F32) (s : State) : (s.emit l r).dryWet = s.dryWet := rfl
@[simp] theorem emit_depth (l r : F32) (s : State) : (s.emit l r).depth = s.depth := rfl
@[simp] theorem emit_rate (l r : F32) (s : State) : (s.emit l r).rate = s.rate := rfl
@[simp] theorem emit_phaseOff (l r : F32) (s : State) : (s.emit l r).phaseOff = s.phaseOff := rfl
@[simp] theorem emit_feedback (l r : F32) (s : State) : (s.emit l r).feedback = s.feedback := rfl
@[simp] theorem emit_mode (l r : F32) (s : State) : (s.emit l r).mode = s.mode := rfl
@[simp] theorem emit_wh (l r : F32) (s : State) : (s.emit l r).wh = s.wh := rfl
@[simp] theorem emit_ph (l r : F32) (s : State) : (s.emit l r).ph = s.ph := rfl
@[simp] theorem emit_fbl (l r : F32) (s : State) : (s.emit l r).fbl = s.fbl := rfl
@[simp] theorem emit_fbr (l r : F32) (s : State) : (s.emit l r).fbr = s.fbr := rfl
@[simp] theorem emit_bufL (l r : F32) (s : State) : (s.emit l r).bufL = s.bufL := rfl
@[simp] theorem emit_bufR (l r : F32) (s : State) : (s.emit l r).bufR = s.bufR := rfl
@[simp] theorem emit_zeroed (l r : F32) (s : State) : (s.emit l r).zeroed = s.zeroed := rfl
@[simp] theorem emit_resets (l r : F32) (s : State) : (s.emit l r).resets = s.resets := rfl
@[simp] theorem emit_pending (l r : F32) (s : State) : (s.emit l r).pending = s.pending := rfl
@[simp] theorem emit_cpOut (l r : F32) (s : State) : (s.emit l r).cpOut = s.cpOut := rfl
@[simp] theorem emit_spOut (l r : F32) (s : State) : (s.emit l r).spOut = s.spOut ++ [r ++ l] := rfl

@[simp] theorem raise_prep_ready (s : State) : (s.raise .prep).ready = s.ready := rfl
@[simp] theorem raise_prep_errPrep (s : State) : (s.raise .prep).errPrep = true := rfl
@[simp] theorem raise_prep_errNrdy (s : State) : (s.raise .prep).errNrdy = s.errNrdy := rfl
@[simp] theorem raise_prep_errAcc (s : State) : (s.raise .prep).errAcc = s.errAcc := rfl
@[simp] theorem raise_prep_srate (s : State) : (s.raise .prep).srate = s.srate := rfl
@[simp] theorem raise_prep_maxblk (s : State) : (s.raise .prep).maxblk = s.maxblk := rfl
@[simp] theorem raise_prep_srAct (s : State) : (s.raise .prep).srAct = s.srAct := rfl
@[simp] theorem raise_prep_capacity (s : State) : (s.raise .prep).capacity = s.capacity := rfl
@[simp] theorem raise_prep_dryWet (s : State) : (s.raise .prep).dryWet = s.dryWet := rfl
@[simp] theorem raise_prep_depth (s : State) : (s.raise .prep).depth = s.depth := rfl
@[simp] theorem raise_prep_rate (s : State) : (s.raise .prep).rate = s.rate := rfl
@[simp] theorem raise_prep_phaseOff (s : State) : (s.raise .prep).phaseOff = s.phaseOff := rfl
@[simp] theorem raise_prep_feedback (s : State) : (s.raise .prep).feedback = s.feedback := rfl
@[simp] theorem raise_prep_mode (s : State) : (s.raise .prep).mode = s.mode := rfl
@[simp] theorem raise_prep_wh (s : State) : (s.raise .prep).wh = s.wh := rfl
@[simp] theorem raise_prep_ph (s : State) : (s.raise .prep).ph = s.ph := rfl
@[simp] theorem raise_prep_fbl (s : State) : (s.raise .prep).fbl = s.fbl := rfl
@[simp] theorem raise_prep_fbr (s : State) : (s.raise .prep).fbr = s.fbr := rfl
@[simp] theorem raise_prep_bufL (s : State) : (s.raise .prep).bufL = s.bufL := rfl
@[simp] theorem raise_prep_bufR (s : State) : (s.raise .prep).bufR = s.bufR := rfl
@[simp] theorem raise_prep_zeroed (s : State) : (s.raise .prep).zeroed = s.zeroed := rfl
@[simp] theorem raise_prep_resets (s : State) : (s.raise .prep).resets = s.resets := rfl
@[simp] theorem raise_prep_pending (s : State) : (s.raise .prep).pending = s.pending := rfl
@[simp] theorem raise_prep_cpOut (s : State) : (s.raise .prep).cpOut = s.cpOut := rfl
@[simp] theorem raise_prep_spOut (s : State) : (s.raise .prep).spOut = s.spOut := rfl

@[simp] theorem raise_nrdy_ready (s : State) : (s.raise .nrdy).ready = s.ready := rfl
@[simp] theorem raise_nrdy_errPrep (s : State) : (s.raise .nrdy).errPrep = s.errPrep := rfl
@[simp] theorem raise_nrdy_errNrdy (s : State) : (s.raise .nrdy).errNrdy = true := rfl
@[simp] theorem raise_nrdy_errAcc (s : State) : (s.raise .nrdy).errAcc = s.errAcc := rfl
@[simp] theorem raise_nrdy_srate (s : State) : (s.raise .nrdy).srate = s.srate := rfl
@[simp] theorem raise_nrdy_maxblk (s : State) : (s.raise .nrdy).maxblk = s.maxblk := rfl
@[simp] theorem raise_nrdy_srAct (s : State) : (s.raise .nrdy).srAct = s.srAct := rfl
@[simp] theorem raise_nrdy_capacity (s : State) : (s.raise .nrdy).capacity = s.capacity := rfl
@[simp] theorem raise_nrdy_dryWet (s : State) : (s.raise .nrdy).dryWet = s.dryWet := rfl
@[simp] theorem raise_nrdy_depth (s : State) : (s.raise .nrdy).depth = s.depth := rfl
@[simp] theorem raise_nrdy_rate (s : State) : (s.raise .nrdy).rate = s.rate := rfl
@[simp] theorem raise_nrdy_phaseOff (s : State) : (s.raise .nrdy).phaseOff = s.phaseOff := rfl
@[simp] theorem raise_nrdy_feedback (s : State) : (s.raise .nrdy).feedback = s.feedback := rfl
@[simp] theorem raise_nrdy_mode (s : State) : (s.raise .nrdy).mode = s.mode := rfl
@[simp] theorem raise_nrdy_wh (s : State) : (s.raise .nrdy).wh = s.wh := rfl
@[simp] theorem raise_nrdy_ph (s : State) : (s.raise .nrdy).ph = s.ph := rfl
@[simp] theorem raise_nrdy_fbl (s : State) : (s.raise .nrdy).fbl = s.fbl := rfl
@[simp] theorem raise_nrdy_fbr (s : State) : (s.raise .nrdy).fbr = s.fbr := rfl
@[simp] theorem raise_nrdy_bufL (s : State) : (s.raise .nrdy).bufL = s.bufL := rfl
@[simp] theorem raise_nrdy_bufR (s : State) : (s.raise .nrdy).bufR = s.bufR := rfl
@[simp] theorem raise_nrdy_zeroed (s : State) : (s.raise .nrdy).zeroed = s.zeroed := rfl
@[simp] theorem raise_nrdy_resets (s : State) : (s.raise .nrdy).resets = s.resets := rfl
@[simp] theorem raise_nrdy_pending (s : State) : (s.raise .nrdy).pending = s.pending := rfl
@[simp] theorem raise_nrdy_cpOut (s : State) : (s.raise .nrdy).cpOut = s.cpOut := rfl
@[simp] theorem raise_nrdy_spOut (s : State) : (s.raise .nrdy).spOut = s.spOut := rfl

@[simp] theorem raise_acc_ready (s : State) : (s.raise .acc).ready = s.ready := rfl
@[simp] theorem raise_acc_errPrep (s : State) : (s.raise .acc).errPrep = s.errPrep := rfl
@[simp] theorem raise_acc_errNrdy (s : State) : (s.raise .acc).errNrdy = s.errNrdy := rfl
@[simp] theorem raise_acc_errAcc (s : State) : (s.raise .acc).errAcc = true := rfl
@[simp] theorem raise_acc_srate (s : State) : (s.raise .acc).srate = s.srate := rfl
@[simp] theorem raise_acc_maxblk (s : State) : (s.raise .acc).maxblk = s.maxblk := rfl
@[simp] theorem raise_acc_srAct (s : State) : (s.raise .acc).srAct = s.srAct := rfl
@[simp] theorem raise_acc_capacity (s : State) : (s.raise .acc).capacity = s.capacity := rfl
@[simp] theorem raise_acc_dryWet (s : State) : (s.raise .acc).dryWet = s.dryWet := rfl
@[simp] theorem raise_acc_depth (s : State) : (s.raise .acc).depth = s.depth := rfl
@[simp] theorem raise_acc_rate (s : State) : (s.raise .acc).rate = s.rate := rfl
@[simp] theorem raise_acc_phaseOff (s : State) : (s.raise .acc).phaseOff = s.phaseOff := rfl
@[simp] theorem raise_acc_feedback (s : State) : (s.raise .acc).feedback = s.feedback := rfl
@[simp] theorem raise_acc_mode (s : State) : (s.raise .acc).mode = s.mode := rfl
@[simp] theorem raise_acc_wh (s : State) : (s.raise .acc).wh = s.wh := rfl
@[simp] theorem raise_acc_ph (s : State) : (s.raise .acc).ph = s.ph := rfl
@[simp] theorem raise_acc_fbl (s : State) : (s.raise .acc).fbl = s.fbl := rfl
@[simp] theorem raise_acc_fbr (s : State) : (s.raise .acc).fbr = s.fbr := rfl
@[simp] theorem raise_acc_bufL (s : State) : (s.raise .acc).bufL = s.bufL := rfl
@[simp] theorem raise_acc_bufR (s : State) : (s.raise .acc).bufR = s.bufR := rfl
@[simp] theorem raise_acc_zeroed (s : State) : (s.raise .acc).zeroed = s.zeroed := rfl
@[simp] theorem raise_acc_resets (s : State) : (s.raise .acc).resets = s.resets := rfl
@[simp] theorem raise_acc_pending (s : State) : (s.raise .acc).pending = s.pending := rfl
@[simp] theorem raise_acc_cpOut (s : State) : (s.raise .acc).cpOut = s.cpOut := rfl
@[simp] theorem raise_acc_spOut (s : State) : (s.raise .acc).spOut = s.spOut := rfl

@[simp] theorem clearErrors_ready (s : State) : (s.clearErrors).ready = s.ready := rfl
@[simp] theorem clearErrors_errPrep (s : State) : (s.clearErrors).errPrep = false := rfl
@[simp] theorem clearErrors_errNrdy (s : State) : (s.clearErrors).errNrdy = false := rfl
@[simp] theorem clearErrors_errAcc (s : State) : (s.clearErrors).errAcc = false := rfl
@[simp] theorem clearErrors_srate (s : State) : (s.clearErrors).srate = s.srate := rfl
@[simp] theorem clearErrors_maxblk (s : State) : (s.clearErrors).maxblk = s.maxblk := rfl
@[simp] theorem clearErrors_srAct (s : State) : (s.clearErrors).srAct = s.srAct := rfl
@[simp] theorem clearErrors_capacity (s : State) : (s.clearErrors).capacity = s.capacity := rfl
@[simp] theorem clearErrors_dryWet (s : State) : (s.clearErrors).dryWet = s.dryWet := rfl
@[simp] theorem clearErrors_depth (s : State) : (s.clearErrors).depth = s.depth := rfl
@[simp] theorem clearErrors_rate (s : State) : (s.clearErrors).rate = s.rate := rfl
@[simp] theorem clearErrors_phaseOff (s : State) : (s.clearErrors).phaseOff = s.phaseOff := rfl
@[simp] theorem clearErrors_feedback (s : State) : (s.clearErrors).feedback = s.feedback := rfl
@[simp] theorem clearErrors_mode (s : State) : (s.clearErrors).mode = s.mode := rfl
@[simp] theorem clearErrors_wh (s : State) : (s.clearErrors).wh = s.wh := rfl
@[simp] theorem clearErrors_ph (s : State) : (s.clearErrors).ph = s.ph := rfl
@[simp] theorem clearErrors_fbl (s : State) : (s.clearErrors).fbl = s.fbl := rfl
@[simp] theorem clearErrors_fbr (s : State) : (s.clearErrors).fbr = s.fbr := rfl
@[simp] theorem clearErrors_bufL (s : State) : (s.clearErrors).bufL = s.bufL := rfl
@[simp] theorem clearErrors_bufR (s : State) : (s.clearErrors).bufR = s.bufR := rfl
@[simp] theorem clearErrors_zeroed (s : State) : (s.clearErrors).zeroed = s.zeroed := rfl
@[simp] theorem clearErrors_resets (s : State) : (s.clearErrors).resets = s.resets := rfl
@[simp] theorem clearErrors_pending (s : State) : (s.clearErrors).pending = s.pending := rfl
@[simp] theorem clearErrors_cpOut (s : State) : (s.clearErrors).cpOut = s.cpOut := rfl
@[simp] theorem clearErrors_spOut (s : State) : (s.clearErrors).spOut = s.spOut := rfl

@[simp] theorem setWord_left_ready (i : Nat) (v : F32) (s : State) : (s.setWord .left i v).ready = s.ready := rfl
@[simp] theorem setWord_left_errPrep (i : Nat) (v : F32) (s : State) : (s.setWord .left i v).errPrep = s.errPrep := rfl
@[simp] theorem setWord_left_errNrdy (i : Nat) (v : F32) (s : State) : (s.setWord .left i v).errNrdy = s.errNrdy := rfl
@[simp] theorem setWord_left_errAcc (i : Nat) (v : F32) (s : State) : (s.setWord .left i v).errAcc = s.errAcc := rfl
@[simp] theorem setWord_left_srate (i : Nat) (v : F32) (s : State) : (s.setWord .left i v).srate = s.srate := rfl
@[simp] theorem setWord_left_maxblk (i : Nat) (v : F32) (s : State) : (s.setWord .left i v).maxblk = s.maxblk := rfl
@[simp] theorem setWord_left_srAct (i : Nat) (v : F32) (s : State) : (s.setWord .left i v).srAct = s.srAct := rfl
@[simp] theorem setWord_left_capacity (i : Nat) (v : F32) (s : State) : (s.setWord .left i v).capacity = s.capacity := rfl
@[simp] theorem setWord_left_dryWet (i : Nat) (v : F32) (s : State) : (s.setWord .left i v).dryWet = s.dryWet := rfl
@[simp] theorem setWord_left_depth (i : Nat) (v : F32) (s : State) : (s.setWord .left i v).depth = s.depth := rfl
@[simp] theorem setWord_left_rate (i : Nat) (v : F32) (s : State) : (s.setWord .left i v).rate = s.rate := rfl
@[simp] theorem setWord_left_phaseOff (i : Nat) (v : F32) (s : State) : (s.setWord .left i v).phaseOff = s.phaseOff := rfl
@[simp] theorem setWord_left_feedback (i : Nat) (v : F32) (s : State) : (s.setWord .left i v).feedback = s.feedback := rfl
@[simp] theorem setWord_left_mode (i : Nat) (v : F32) (s : State) : (s.setWord .left i v).mode = s.mode := rfl
@[simp] theorem setWord_left_wh (i : Nat) (v : F32) (s : State) : (s.setWord .left i v).wh = s.wh := rfl
@[simp] theorem setWord_left_ph (i : Nat) (v : F32) (s : State) : (s.setWord .left i v).ph = s.ph := rfl
@[simp] theorem setWord_left_fbl (i : Nat) (v : F32) (s : State) : (s.setWord .left i v).fbl = s.fbl := rfl
@[simp] theorem setWord_left_fbr (i : Nat) (v : F32) (s : State) : (s.setWord .left i v).fbr = s.fbr := rfl
@[simp] theorem setWord_left_bufL (i : Nat) (v : F32) (s : State) : (s.setWord .left i v).bufL = Memory.write (unlistedWord s .left) s.bufL i v := rfl
@[simp] theorem setWord_left_bufR (i : Nat) (v : F32) (s : State) : (s.setWord .left i v).bufR = s.bufR := rfl
@[simp] theorem setWord_left_zeroed (i : Nat) (v : F32) (s : State) : (s.setWord .left i v).zeroed = s.zeroed := rfl
@[simp] theorem setWord_left_resets (i : Nat) (v : F32) (s : State) : (s.setWord .left i v).resets = s.resets := rfl
@[simp] theorem setWord_left_pending (i : Nat) (v : F32) (s : State) : (s.setWord .left i v).pending = s.pending := rfl
@[simp] theorem setWord_left_cpOut (i : Nat) (v : F32) (s : State) : (s.setWord .left i v).cpOut = s.cpOut := rfl
@[simp] theorem setWord_left_spOut (i : Nat) (v : F32) (s : State) : (s.setWord .left i v).spOut = s.spOut := rfl

@[simp] theorem setWord_right_ready (i : Nat) (v : F32) (s : State) : (s.setWord .right i v).ready = s.ready := rfl
@[simp] theorem setWord_right_errPrep (i : Nat) (v : F32) (s : State) : (s.setWord .right i v).errPrep = s.errPrep := rfl
@[simp] theorem setWord_right_errNrdy (i : Nat) (v : F32) (s : State) : (s.setWord .right i v).errNrdy = s.errNrdy := rfl
@[simp] theorem setWord_right_errAcc (i : Nat) (v : F32) (s : State) : (s.setWord .right i v).errAcc = s.errAcc := rfl
@[simp] theorem setWord_right_srate (i : Nat) (v : F32) (s : State) : (s.setWord .right i v).srate = s.srate := rfl
@[simp] theorem setWord_right_maxblk (i : Nat) (v : F32) (s : State) : (s.setWord .right i v).maxblk = s.maxblk := rfl
@[simp] theorem setWord_right_srAct (i : Nat) (v : F32) (s : State) : (s.setWord .right i v).srAct = s.srAct := rfl
@[simp] theorem setWord_right_capacity (i : Nat) (v : F32) (s : State) : (s.setWord .right i v).capacity = s.capacity := rfl
@[simp] theorem setWord_right_dryWet (i : Nat) (v : F32) (s : State) : (s.setWord .right i v).dryWet = s.dryWet := rfl
@[simp] theorem setWord_right_depth (i : Nat) (v : F32) (s : State) : (s.setWord .right i v).depth = s.depth := rfl
@[simp] theorem setWord_right_rate (i : Nat) (v : F32) (s : State) : (s.setWord .right i v).rate = s.rate := rfl
@[simp] theorem setWord_right_phaseOff (i : Nat) (v : F32) (s : State) : (s.setWord .right i v).phaseOff = s.phaseOff := rfl
@[simp] theorem setWord_right_feedback (i : Nat) (v : F32) (s : State) : (s.setWord .right i v).feedback = s.feedback := rfl
@[simp] theorem setWord_right_mode (i : Nat) (v : F32) (s : State) : (s.setWord .right i v).mode = s.mode := rfl
@[simp] theorem setWord_right_wh (i : Nat) (v : F32) (s : State) : (s.setWord .right i v).wh = s.wh := rfl
@[simp] theorem setWord_right_ph (i : Nat) (v : F32) (s : State) : (s.setWord .right i v).ph = s.ph := rfl
@[simp] theorem setWord_right_fbl (i : Nat) (v : F32) (s : State) : (s.setWord .right i v).fbl = s.fbl := rfl
@[simp] theorem setWord_right_fbr (i : Nat) (v : F32) (s : State) : (s.setWord .right i v).fbr = s.fbr := rfl
@[simp] theorem setWord_right_bufL (i : Nat) (v : F32) (s : State) : (s.setWord .right i v).bufL = s.bufL := rfl
@[simp] theorem setWord_right_bufR (i : Nat) (v : F32) (s : State) : (s.setWord .right i v).bufR = Memory.write (unlistedWord s .right) s.bufR i v := rfl
@[simp] theorem setWord_right_zeroed (i : Nat) (v : F32) (s : State) : (s.setWord .right i v).zeroed = s.zeroed := rfl
@[simp] theorem setWord_right_resets (i : Nat) (v : F32) (s : State) : (s.setWord .right i v).resets = s.resets := rfl
@[simp] theorem setWord_right_pending (i : Nat) (v : F32) (s : State) : (s.setWord .right i v).pending = s.pending := rfl
@[simp] theorem setWord_right_cpOut (i : Nat) (v : F32) (s : State) : (s.setWord .right i v).cpOut = s.cpOut := rfl
@[simp] theorem setWord_right_spOut (i : Nat) (v : F32) (s : State) : (s.setWord .right i v).spOut = s.spOut := rfl

@[simp] theorem zeroWords_ready (c : Nat) (s : State) : (s.zeroWords c).ready = s.ready := rfl
@[simp] theorem zeroWords_errPrep (c : Nat) (s : State) : (s.zeroWords c).errPrep = s.errPrep := rfl
@[simp] theorem zeroWords_errNrdy (c : Nat) (s : State) : (s.zeroWords c).errNrdy = s.errNrdy := rfl
@[simp] theorem zeroWords_errAcc (c : Nat) (s : State) : (s.zeroWords c).errAcc = s.errAcc := rfl
@[simp] theorem zeroWords_srate (c : Nat) (s : State) : (s.zeroWords c).srate = s.srate := rfl
@[simp] theorem zeroWords_maxblk (c : Nat) (s : State) : (s.zeroWords c).maxblk = s.maxblk := rfl
@[simp] theorem zeroWords_srAct (c : Nat) (s : State) : (s.zeroWords c).srAct = s.srAct := rfl
@[simp] theorem zeroWords_capacity (c : Nat) (s : State) : (s.zeroWords c).capacity = s.capacity := rfl
@[simp] theorem zeroWords_dryWet (c : Nat) (s : State) : (s.zeroWords c).dryWet = s.dryWet := rfl
@[simp] theorem zeroWords_depth (c : Nat) (s : State) : (s.zeroWords c).depth = s.depth := rfl
@[simp] theorem zeroWords_rate (c : Nat) (s : State) : (s.zeroWords c).rate = s.rate := rfl
@[simp] theorem zeroWords_phaseOff (c : Nat) (s : State) : (s.zeroWords c).phaseOff = s.phaseOff := rfl
@[simp] theorem zeroWords_feedback (c : Nat) (s : State) : (s.zeroWords c).feedback = s.feedback := rfl
@[simp] theorem zeroWords_mode (c : Nat) (s : State) : (s.zeroWords c).mode = s.mode := rfl
@[simp] theorem zeroWords_wh (c : Nat) (s : State) : (s.zeroWords c).wh = s.wh := rfl
@[simp] theorem zeroWords_ph (c : Nat) (s : State) : (s.zeroWords c).ph = s.ph := rfl
@[simp] theorem zeroWords_fbl (c : Nat) (s : State) : (s.zeroWords c).fbl = s.fbl := rfl
@[simp] theorem zeroWords_fbr (c : Nat) (s : State) : (s.zeroWords c).fbr = s.fbr := rfl
@[simp] theorem zeroWords_bufL (c : Nat) (s : State) : (s.zeroWords c).bufL = Memory.zeroBelow s.bufL c := rfl
@[simp] theorem zeroWords_bufR (c : Nat) (s : State) : (s.zeroWords c).bufR = Memory.zeroBelow s.bufR c := rfl
@[simp] theorem zeroWords_zeroed (c : Nat) (s : State) : (s.zeroWords c).zeroed = max s.zeroed c := rfl
@[simp] theorem zeroWords_resets (c : Nat) (s : State) : (s.zeroWords c).resets = s.resets := rfl
@[simp] theorem zeroWords_pending (c : Nat) (s : State) : (s.zeroWords c).pending = s.pending := rfl
@[simp] theorem zeroWords_cpOut (c : Nat) (s : State) : (s.zeroWords c).cpOut = s.cpOut := rfl
@[simp] theorem zeroWords_spOut (c : Nat) (s : State) : (s.zeroWords c).spOut = s.spOut := rfl

@[simp] theorem take_ready (s : State) : (s.take).ready = s.ready := rfl
@[simp] theorem take_errPrep (s : State) : (s.take).errPrep = s.errPrep := rfl
@[simp] theorem take_errNrdy (s : State) : (s.take).errNrdy = s.errNrdy := rfl
@[simp] theorem take_errAcc (s : State) : (s.take).errAcc = s.errAcc := rfl
@[simp] theorem take_srate (s : State) : (s.take).srate = s.srate := rfl
@[simp] theorem take_maxblk (s : State) : (s.take).maxblk = s.maxblk := rfl
@[simp] theorem take_srAct (s : State) : (s.take).srAct = s.srAct := rfl
@[simp] theorem take_capacity (s : State) : (s.take).capacity = s.capacity := rfl
@[simp] theorem take_dryWet (s : State) : (s.take).dryWet = s.dryWet := rfl
@[simp] theorem take_depth (s : State) : (s.take).depth = s.depth := rfl
@[simp] theorem take_rate (s : State) : (s.take).rate = s.rate := rfl
@[simp] theorem take_phaseOff (s : State) : (s.take).phaseOff = s.phaseOff := rfl
@[simp] theorem take_feedback (s : State) : (s.take).feedback = s.feedback := rfl
@[simp] theorem take_mode (s : State) : (s.take).mode = s.mode := rfl
@[simp] theorem take_wh (s : State) : (s.take).wh = s.wh := rfl
@[simp] theorem take_ph (s : State) : (s.take).ph = s.ph := rfl
@[simp] theorem take_fbl (s : State) : (s.take).fbl = s.fbl := rfl
@[simp] theorem take_fbr (s : State) : (s.take).fbr = s.fbr := rfl
@[simp] theorem take_bufL (s : State) : (s.take).bufL = s.bufL := rfl
@[simp] theorem take_bufR (s : State) : (s.take).bufR = s.bufR := rfl
@[simp] theorem take_zeroed (s : State) : (s.take).zeroed = s.zeroed := rfl
@[simp] theorem take_resets (s : State) : (s.take).resets = s.resets := rfl
@[simp] theorem take_pending (s : State) : (s.take).pending = s.pending.tail := rfl
@[simp] theorem take_cpOut (s : State) : (s.take).cpOut = s.cpOut := rfl
@[simp] theorem take_spOut (s : State) : (s.take).spOut = s.spOut := rfl

@[simp] theorem presentNext_ready (t : Transaction) (s : State) : (s.presentNext t).ready = s.ready := rfl
@[simp] theorem presentNext_errPrep (t : Transaction) (s : State) : (s.presentNext t).errPrep = s.errPrep := rfl
@[simp] theorem presentNext_errNrdy (t : Transaction) (s : State) : (s.presentNext t).errNrdy = s.errNrdy := rfl
@[simp] theorem presentNext_errAcc (t : Transaction) (s : State) : (s.presentNext t).errAcc = s.errAcc := rfl
@[simp] theorem presentNext_srate (t : Transaction) (s : State) : (s.presentNext t).srate = s.srate := rfl
@[simp] theorem presentNext_maxblk (t : Transaction) (s : State) : (s.presentNext t).maxblk = s.maxblk := rfl
@[simp] theorem presentNext_srAct (t : Transaction) (s : State) : (s.presentNext t).srAct = s.srAct := rfl
@[simp] theorem presentNext_capacity (t : Transaction) (s : State) : (s.presentNext t).capacity = s.capacity := rfl
@[simp] theorem presentNext_dryWet (t : Transaction) (s : State) : (s.presentNext t).dryWet = s.dryWet := rfl
@[simp] theorem presentNext_depth (t : Transaction) (s : State) : (s.presentNext t).depth = s.depth := rfl
@[simp] theorem presentNext_rate (t : Transaction) (s : State) : (s.presentNext t).rate = s.rate := rfl
@[simp] theorem presentNext_phaseOff (t : Transaction) (s : State) : (s.presentNext t).phaseOff = s.phaseOff := rfl
@[simp] theorem presentNext_feedback (t : Transaction) (s : State) : (s.presentNext t).feedback = s.feedback := rfl
@[simp] theorem presentNext_mode (t : Transaction) (s : State) : (s.presentNext t).mode = s.mode := rfl
@[simp] theorem presentNext_wh (t : Transaction) (s : State) : (s.presentNext t).wh = s.wh := rfl
@[simp] theorem presentNext_ph (t : Transaction) (s : State) : (s.presentNext t).ph = s.ph := rfl
@[simp] theorem presentNext_fbl (t : Transaction) (s : State) : (s.presentNext t).fbl = s.fbl := rfl
@[simp] theorem presentNext_fbr (t : Transaction) (s : State) : (s.presentNext t).fbr = s.fbr := rfl
@[simp] theorem presentNext_bufL (t : Transaction) (s : State) : (s.presentNext t).bufL = s.bufL := rfl
@[simp] theorem presentNext_bufR (t : Transaction) (s : State) : (s.presentNext t).bufR = s.bufR := rfl
@[simp] theorem presentNext_zeroed (t : Transaction) (s : State) : (s.presentNext t).zeroed = s.zeroed := rfl
@[simp] theorem presentNext_resets (t : Transaction) (s : State) : (s.presentNext t).resets = s.resets := rfl
@[simp] theorem presentNext_pending (t : Transaction) (s : State) : (s.presentNext t).pending = t :: s.pending := rfl
@[simp] theorem presentNext_cpOut (t : Transaction) (s : State) : (s.presentNext t).cpOut = s.cpOut := rfl
@[simp] theorem presentNext_spOut (t : Transaction) (s : State) : (s.presentNext t).spOut = s.spOut := rfl

@[simp] theorem setParam_dryWet_ready (v : F32) (s : State) : (s.setParam .dryWet v).ready = s.ready := rfl
@[simp] theorem setParam_dryWet_errPrep (v : F32) (s : State) : (s.setParam .dryWet v).errPrep = s.errPrep := rfl
@[simp] theorem setParam_dryWet_errNrdy (v : F32) (s : State) : (s.setParam .dryWet v).errNrdy = s.errNrdy := rfl
@[simp] theorem setParam_dryWet_errAcc (v : F32) (s : State) : (s.setParam .dryWet v).errAcc = s.errAcc := rfl
@[simp] theorem setParam_dryWet_srate (v : F32) (s : State) : (s.setParam .dryWet v).srate = s.srate := rfl
@[simp] theorem setParam_dryWet_maxblk (v : F32) (s : State) : (s.setParam .dryWet v).maxblk = s.maxblk := rfl
@[simp] theorem setParam_dryWet_srAct (v : F32) (s : State) : (s.setParam .dryWet v).srAct = s.srAct := rfl
@[simp] theorem setParam_dryWet_capacity (v : F32) (s : State) : (s.setParam .dryWet v).capacity = s.capacity := rfl
@[simp] theorem setParam_dryWet_dryWet (v : F32) (s : State) : (s.setParam .dryWet v).dryWet = v := rfl
@[simp] theorem setParam_dryWet_depth (v : F32) (s : State) : (s.setParam .dryWet v).depth = s.depth := rfl
@[simp] theorem setParam_dryWet_rate (v : F32) (s : State) : (s.setParam .dryWet v).rate = s.rate := rfl
@[simp] theorem setParam_dryWet_phaseOff (v : F32) (s : State) : (s.setParam .dryWet v).phaseOff = s.phaseOff := rfl
@[simp] theorem setParam_dryWet_feedback (v : F32) (s : State) : (s.setParam .dryWet v).feedback = s.feedback := rfl
@[simp] theorem setParam_dryWet_mode (v : F32) (s : State) : (s.setParam .dryWet v).mode = s.mode := rfl
@[simp] theorem setParam_dryWet_wh (v : F32) (s : State) : (s.setParam .dryWet v).wh = s.wh := rfl
@[simp] theorem setParam_dryWet_ph (v : F32) (s : State) : (s.setParam .dryWet v).ph = s.ph := rfl
@[simp] theorem setParam_dryWet_fbl (v : F32) (s : State) : (s.setParam .dryWet v).fbl = s.fbl := rfl
@[simp] theorem setParam_dryWet_fbr (v : F32) (s : State) : (s.setParam .dryWet v).fbr = s.fbr := rfl
@[simp] theorem setParam_dryWet_bufL (v : F32) (s : State) : (s.setParam .dryWet v).bufL = s.bufL := rfl
@[simp] theorem setParam_dryWet_bufR (v : F32) (s : State) : (s.setParam .dryWet v).bufR = s.bufR := rfl
@[simp] theorem setParam_dryWet_zeroed (v : F32) (s : State) : (s.setParam .dryWet v).zeroed = s.zeroed := rfl
@[simp] theorem setParam_dryWet_resets (v : F32) (s : State) : (s.setParam .dryWet v).resets = s.resets := rfl
@[simp] theorem setParam_dryWet_pending (v : F32) (s : State) : (s.setParam .dryWet v).pending = s.pending := rfl
@[simp] theorem setParam_dryWet_cpOut (v : F32) (s : State) : (s.setParam .dryWet v).cpOut = s.cpOut := rfl
@[simp] theorem setParam_dryWet_spOut (v : F32) (s : State) : (s.setParam .dryWet v).spOut = s.spOut := rfl

@[simp] theorem setParam_depth_ready (v : F32) (s : State) : (s.setParam .depth v).ready = s.ready := rfl
@[simp] theorem setParam_depth_errPrep (v : F32) (s : State) : (s.setParam .depth v).errPrep = s.errPrep := rfl
@[simp] theorem setParam_depth_errNrdy (v : F32) (s : State) : (s.setParam .depth v).errNrdy = s.errNrdy := rfl
@[simp] theorem setParam_depth_errAcc (v : F32) (s : State) : (s.setParam .depth v).errAcc = s.errAcc := rfl
@[simp] theorem setParam_depth_srate (v : F32) (s : State) : (s.setParam .depth v).srate = s.srate := rfl
@[simp] theorem setParam_depth_maxblk (v : F32) (s : State) : (s.setParam .depth v).maxblk = s.maxblk := rfl
@[simp] theorem setParam_depth_srAct (v : F32) (s : State) : (s.setParam .depth v).srAct = s.srAct := rfl
@[simp] theorem setParam_depth_capacity (v : F32) (s : State) : (s.setParam .depth v).capacity = s.capacity := rfl
@[simp] theorem setParam_depth_dryWet (v : F32) (s : State) : (s.setParam .depth v).dryWet = s.dryWet := rfl
@[simp] theorem setParam_depth_depth (v : F32) (s : State) : (s.setParam .depth v).depth = v := rfl
@[simp] theorem setParam_depth_rate (v : F32) (s : State) : (s.setParam .depth v).rate = s.rate := rfl
@[simp] theorem setParam_depth_phaseOff (v : F32) (s : State) : (s.setParam .depth v).phaseOff = s.phaseOff := rfl
@[simp] theorem setParam_depth_feedback (v : F32) (s : State) : (s.setParam .depth v).feedback = s.feedback := rfl
@[simp] theorem setParam_depth_mode (v : F32) (s : State) : (s.setParam .depth v).mode = s.mode := rfl
@[simp] theorem setParam_depth_wh (v : F32) (s : State) : (s.setParam .depth v).wh = s.wh := rfl
@[simp] theorem setParam_depth_ph (v : F32) (s : State) : (s.setParam .depth v).ph = s.ph := rfl
@[simp] theorem setParam_depth_fbl (v : F32) (s : State) : (s.setParam .depth v).fbl = s.fbl := rfl
@[simp] theorem setParam_depth_fbr (v : F32) (s : State) : (s.setParam .depth v).fbr = s.fbr := rfl
@[simp] theorem setParam_depth_bufL (v : F32) (s : State) : (s.setParam .depth v).bufL = s.bufL := rfl
@[simp] theorem setParam_depth_bufR (v : F32) (s : State) : (s.setParam .depth v).bufR = s.bufR := rfl
@[simp] theorem setParam_depth_zeroed (v : F32) (s : State) : (s.setParam .depth v).zeroed = s.zeroed := rfl
@[simp] theorem setParam_depth_resets (v : F32) (s : State) : (s.setParam .depth v).resets = s.resets := rfl
@[simp] theorem setParam_depth_pending (v : F32) (s : State) : (s.setParam .depth v).pending = s.pending := rfl
@[simp] theorem setParam_depth_cpOut (v : F32) (s : State) : (s.setParam .depth v).cpOut = s.cpOut := rfl
@[simp] theorem setParam_depth_spOut (v : F32) (s : State) : (s.setParam .depth v).spOut = s.spOut := rfl

@[simp] theorem setParam_rate_ready (v : F32) (s : State) : (s.setParam .rate v).ready = s.ready := rfl
@[simp] theorem setParam_rate_errPrep (v : F32) (s : State) : (s.setParam .rate v).errPrep = s.errPrep := rfl
@[simp] theorem setParam_rate_errNrdy (v : F32) (s : State) : (s.setParam .rate v).errNrdy = s.errNrdy := rfl
@[simp] theorem setParam_rate_errAcc (v : F32) (s : State) : (s.setParam .rate v).errAcc = s.errAcc := rfl
@[simp] theorem setParam_rate_srate (v : F32) (s : State) : (s.setParam .rate v).srate = s.srate := rfl
@[simp] theorem setParam_rate_maxblk (v : F32) (s : State) : (s.setParam .rate v).maxblk = s.maxblk := rfl
@[simp] theorem setParam_rate_srAct (v : F32) (s : State) : (s.setParam .rate v).srAct = s.srAct := rfl
@[simp] theorem setParam_rate_capacity (v : F32) (s : State) : (s.setParam .rate v).capacity = s.capacity := rfl
@[simp] theorem setParam_rate_dryWet (v : F32) (s : State) : (s.setParam .rate v).dryWet = s.dryWet := rfl
@[simp] theorem setParam_rate_depth (v : F32) (s : State) : (s.setParam .rate v).depth = s.depth := rfl
@[simp] theorem setParam_rate_rate (v : F32) (s : State) : (s.setParam .rate v).rate = v := rfl
@[simp] theorem setParam_rate_phaseOff (v : F32) (s : State) : (s.setParam .rate v).phaseOff = s.phaseOff := rfl
@[simp] theorem setParam_rate_feedback (v : F32) (s : State) : (s.setParam .rate v).feedback = s.feedback := rfl
@[simp] theorem setParam_rate_mode (v : F32) (s : State) : (s.setParam .rate v).mode = s.mode := rfl
@[simp] theorem setParam_rate_wh (v : F32) (s : State) : (s.setParam .rate v).wh = s.wh := rfl
@[simp] theorem setParam_rate_ph (v : F32) (s : State) : (s.setParam .rate v).ph = s.ph := rfl
@[simp] theorem setParam_rate_fbl (v : F32) (s : State) : (s.setParam .rate v).fbl = s.fbl := rfl
@[simp] theorem setParam_rate_fbr (v : F32) (s : State) : (s.setParam .rate v).fbr = s.fbr := rfl
@[simp] theorem setParam_rate_bufL (v : F32) (s : State) : (s.setParam .rate v).bufL = s.bufL := rfl
@[simp] theorem setParam_rate_bufR (v : F32) (s : State) : (s.setParam .rate v).bufR = s.bufR := rfl
@[simp] theorem setParam_rate_zeroed (v : F32) (s : State) : (s.setParam .rate v).zeroed = s.zeroed := rfl
@[simp] theorem setParam_rate_resets (v : F32) (s : State) : (s.setParam .rate v).resets = s.resets := rfl
@[simp] theorem setParam_rate_pending (v : F32) (s : State) : (s.setParam .rate v).pending = s.pending := rfl
@[simp] theorem setParam_rate_cpOut (v : F32) (s : State) : (s.setParam .rate v).cpOut = s.cpOut := rfl
@[simp] theorem setParam_rate_spOut (v : F32) (s : State) : (s.setParam .rate v).spOut = s.spOut := rfl

@[simp] theorem setParam_phaseOff_ready (v : F32) (s : State) : (s.setParam .phaseOff v).ready = s.ready := rfl
@[simp] theorem setParam_phaseOff_errPrep (v : F32) (s : State) : (s.setParam .phaseOff v).errPrep = s.errPrep := rfl
@[simp] theorem setParam_phaseOff_errNrdy (v : F32) (s : State) : (s.setParam .phaseOff v).errNrdy = s.errNrdy := rfl
@[simp] theorem setParam_phaseOff_errAcc (v : F32) (s : State) : (s.setParam .phaseOff v).errAcc = s.errAcc := rfl
@[simp] theorem setParam_phaseOff_srate (v : F32) (s : State) : (s.setParam .phaseOff v).srate = s.srate := rfl
@[simp] theorem setParam_phaseOff_maxblk (v : F32) (s : State) : (s.setParam .phaseOff v).maxblk = s.maxblk := rfl
@[simp] theorem setParam_phaseOff_srAct (v : F32) (s : State) : (s.setParam .phaseOff v).srAct = s.srAct := rfl
@[simp] theorem setParam_phaseOff_capacity (v : F32) (s : State) : (s.setParam .phaseOff v).capacity = s.capacity := rfl
@[simp] theorem setParam_phaseOff_dryWet (v : F32) (s : State) : (s.setParam .phaseOff v).dryWet = s.dryWet := rfl
@[simp] theorem setParam_phaseOff_depth (v : F32) (s : State) : (s.setParam .phaseOff v).depth = s.depth := rfl
@[simp] theorem setParam_phaseOff_rate (v : F32) (s : State) : (s.setParam .phaseOff v).rate = s.rate := rfl
@[simp] theorem setParam_phaseOff_phaseOff (v : F32) (s : State) : (s.setParam .phaseOff v).phaseOff = v := rfl
@[simp] theorem setParam_phaseOff_feedback (v : F32) (s : State) : (s.setParam .phaseOff v).feedback = s.feedback := rfl
@[simp] theorem setParam_phaseOff_mode (v : F32) (s : State) : (s.setParam .phaseOff v).mode = s.mode := rfl
@[simp] theorem setParam_phaseOff_wh (v : F32) (s : State) : (s.setParam .phaseOff v).wh = s.wh := rfl
@[simp] theorem setParam_phaseOff_ph (v : F32) (s : State) : (s.setParam .phaseOff v).ph = s.ph := rfl
@[simp] theorem setParam_phaseOff_fbl (v : F32) (s : State) : (s.setParam .phaseOff v).fbl = s.fbl := rfl
@[simp] theorem setParam_phaseOff_fbr (v : F32) (s : State) : (s.setParam .phaseOff v).fbr = s.fbr := rfl
@[simp] theorem setParam_phaseOff_bufL (v : F32) (s : State) : (s.setParam .phaseOff v).bufL = s.bufL := rfl
@[simp] theorem setParam_phaseOff_bufR (v : F32) (s : State) : (s.setParam .phaseOff v).bufR = s.bufR := rfl
@[simp] theorem setParam_phaseOff_zeroed (v : F32) (s : State) : (s.setParam .phaseOff v).zeroed = s.zeroed := rfl
@[simp] theorem setParam_phaseOff_resets (v : F32) (s : State) : (s.setParam .phaseOff v).resets = s.resets := rfl
@[simp] theorem setParam_phaseOff_pending (v : F32) (s : State) : (s.setParam .phaseOff v).pending = s.pending := rfl
@[simp] theorem setParam_phaseOff_cpOut (v : F32) (s : State) : (s.setParam .phaseOff v).cpOut = s.cpOut := rfl
@[simp] theorem setParam_phaseOff_spOut (v : F32) (s : State) : (s.setParam .phaseOff v).spOut = s.spOut := rfl

@[simp] theorem setParam_feedback_ready (v : F32) (s : State) : (s.setParam .feedback v).ready = s.ready := rfl
@[simp] theorem setParam_feedback_errPrep (v : F32) (s : State) : (s.setParam .feedback v).errPrep = s.errPrep := rfl
@[simp] theorem setParam_feedback_errNrdy (v : F32) (s : State) : (s.setParam .feedback v).errNrdy = s.errNrdy := rfl
@[simp] theorem setParam_feedback_errAcc (v : F32) (s : State) : (s.setParam .feedback v).errAcc = s.errAcc := rfl
@[simp] theorem setParam_feedback_srate (v : F32) (s : State) : (s.setParam .feedback v).srate = s.srate := rfl
@[simp] theorem setParam_feedback_maxblk (v : F32) (s : State) : (s.setParam .feedback v).maxblk = s.maxblk := rfl
@[simp] theorem setParam_feedback_srAct (v : F32) (s : State) : (s.setParam .feedback v).srAct = s.srAct := rfl
@[simp] theorem setParam_feedback_capacity (v : F32) (s : State) : (s.setParam .feedback v).capacity = s.capacity := rfl
@[simp] theorem setParam_feedback_dryWet (v : F32) (s : State) : (s.setParam .feedback v).dryWet = s.dryWet := rfl
@[simp] theorem setParam_feedback_depth (v : F32) (s : State) : (s.setParam .feedback v).depth = s.depth := rfl
@[simp] theorem setParam_feedback_rate (v : F32) (s : State) : (s.setParam .feedback v).rate = s.rate := rfl
@[simp] theorem setParam_feedback_phaseOff (v : F32) (s : State) : (s.setParam .feedback v).phaseOff = s.phaseOff := rfl
@[simp] theorem setParam_feedback_feedback (v : F32) (s : State) : (s.setParam .feedback v).feedback = v := rfl
@[simp] theorem setParam_feedback_mode (v : F32) (s : State) : (s.setParam .feedback v).mode = s.mode := rfl
@[simp] theorem setParam_feedback_wh (v : F32) (s : State) : (s.setParam .feedback v).wh = s.wh := rfl
@[simp] theorem setParam_feedback_ph (v : F32) (s : State) : (s.setParam .feedback v).ph = s.ph := rfl
@[simp] theorem setParam_feedback_fbl (v : F32) (s : State) : (s.setParam .feedback v).fbl = s.fbl := rfl
@[simp] theorem setParam_feedback_fbr (v : F32) (s : State) : (s.setParam .feedback v).fbr = s.fbr := rfl
@[simp] theorem setParam_feedback_bufL (v : F32) (s : State) : (s.setParam .feedback v).bufL = s.bufL := rfl
@[simp] theorem setParam_feedback_bufR (v : F32) (s : State) : (s.setParam .feedback v).bufR = s.bufR := rfl
@[simp] theorem setParam_feedback_zeroed (v : F32) (s : State) : (s.setParam .feedback v).zeroed = s.zeroed := rfl
@[simp] theorem setParam_feedback_resets (v : F32) (s : State) : (s.setParam .feedback v).resets = s.resets := rfl
@[simp] theorem setParam_feedback_pending (v : F32) (s : State) : (s.setParam .feedback v).pending = s.pending := rfl
@[simp] theorem setParam_feedback_cpOut (v : F32) (s : State) : (s.setParam .feedback v).cpOut = s.cpOut := rfl
@[simp] theorem setParam_feedback_spOut (v : F32) (s : State) : (s.setParam .feedback v).spOut = s.spOut := rfl

@[simp] theorem dlAdvance_ready (s : State) : (dlAdvance s).ready = s.ready := rfl
@[simp] theorem dlAdvance_errPrep (s : State) : (dlAdvance s).errPrep = s.errPrep := rfl
@[simp] theorem dlAdvance_errNrdy (s : State) : (dlAdvance s).errNrdy = s.errNrdy := rfl
@[simp] theorem dlAdvance_errAcc (s : State) : (dlAdvance s).errAcc = s.errAcc := rfl
@[simp] theorem dlAdvance_srate (s : State) : (dlAdvance s).srate = s.srate := rfl
@[simp] theorem dlAdvance_maxblk (s : State) : (dlAdvance s).maxblk = s.maxblk := rfl
@[simp] theorem dlAdvance_srAct (s : State) : (dlAdvance s).srAct = s.srAct := rfl
@[simp] theorem dlAdvance_capacity (s : State) : (dlAdvance s).capacity = s.capacity := rfl
@[simp] theorem dlAdvance_dryWet (s : State) : (dlAdvance s).dryWet = s.dryWet := rfl
@[simp] theorem dlAdvance_depth (s : State) : (dlAdvance s).depth = s.depth := rfl
@[simp] theorem dlAdvance_rate (s : State) : (dlAdvance s).rate = s.rate := rfl
@[simp] theorem dlAdvance_phaseOff (s : State) : (dlAdvance s).phaseOff = s.phaseOff := rfl
@[simp] theorem dlAdvance_feedback (s : State) : (dlAdvance s).feedback = s.feedback := rfl
@[simp] theorem dlAdvance_mode (s : State) : (dlAdvance s).mode = s.mode := rfl
@[simp] theorem dlAdvance_wh (s : State) : (dlAdvance s).wh = BitVec.ofNat 32 (nextIndex s s.wh.toNat) := rfl
@[simp] theorem dlAdvance_ph (s : State) : (dlAdvance s).ph = s.ph := rfl
@[simp] theorem dlAdvance_fbl (s : State) : (dlAdvance s).fbl = s.fbl := rfl
@[simp] theorem dlAdvance_fbr (s : State) : (dlAdvance s).fbr = s.fbr := rfl
@[simp] theorem dlAdvance_bufL (s : State) : (dlAdvance s).bufL = s.bufL := rfl
@[simp] theorem dlAdvance_bufR (s : State) : (dlAdvance s).bufR = s.bufR := rfl
@[simp] theorem dlAdvance_zeroed (s : State) : (dlAdvance s).zeroed = s.zeroed := rfl
@[simp] theorem dlAdvance_resets (s : State) : (dlAdvance s).resets = s.resets := rfl
@[simp] theorem dlAdvance_pending (s : State) : (dlAdvance s).pending = s.pending := rfl
@[simp] theorem dlAdvance_cpOut (s : State) : (dlAdvance s).cpOut = s.cpOut := rfl
@[simp] theorem dlAdvance_spOut (s : State) : (dlAdvance s).spOut = s.spOut := rfl

@[simp] theorem dlClear_ready (s : State) : (dlClear s).ready = s.ready := rfl
@[simp] theorem dlClear_errPrep (s : State) : (dlClear s).errPrep = s.errPrep := rfl
@[simp] theorem dlClear_errNrdy (s : State) : (dlClear s).errNrdy = s.errNrdy := rfl
@[simp] theorem dlClear_errAcc (s : State) : (dlClear s).errAcc = s.errAcc := rfl
@[simp] theorem dlClear_srate (s : State) : (dlClear s).srate = s.srate := rfl
@[simp] theorem dlClear_maxblk (s : State) : (dlClear s).maxblk = s.maxblk := rfl
@[simp] theorem dlClear_srAct (s : State) : (dlClear s).srAct = s.srAct := rfl
@[simp] theorem dlClear_capacity (s : State) : (dlClear s).capacity = s.capacity := rfl
@[simp] theorem dlClear_dryWet (s : State) : (dlClear s).dryWet = s.dryWet := rfl
@[simp] theorem dlClear_depth (s : State) : (dlClear s).depth = s.depth := rfl
@[simp] theorem dlClear_rate (s : State) : (dlClear s).rate = s.rate := rfl
@[simp] theorem dlClear_phaseOff (s : State) : (dlClear s).phaseOff = s.phaseOff := rfl
@[simp] theorem dlClear_feedback (s : State) : (dlClear s).feedback = s.feedback := rfl
@[simp] theorem dlClear_mode (s : State) : (dlClear s).mode = s.mode := rfl
@[simp] theorem dlClear_wh (s : State) : (dlClear s).wh = 0 := rfl
@[simp] theorem dlClear_ph (s : State) : (dlClear s).ph = s.ph := rfl
@[simp] theorem dlClear_fbl (s : State) : (dlClear s).fbl = s.fbl := rfl
@[simp] theorem dlClear_fbr (s : State) : (dlClear s).fbr = s.fbr := rfl
@[simp] theorem dlClear_bufL (s : State) : (dlClear s).bufL = Memory.zeroBelow s.bufL (capacityNat s) := rfl
@[simp] theorem dlClear_bufR (s : State) : (dlClear s).bufR = Memory.zeroBelow s.bufR (capacityNat s) := rfl
@[simp] theorem dlClear_zeroed (s : State) : (dlClear s).zeroed = max s.zeroed (capacityNat s) := rfl
@[simp] theorem dlClear_resets (s : State) : (dlClear s).resets = s.resets := rfl
@[simp] theorem dlClear_pending (s : State) : (dlClear s).pending = s.pending := rfl
@[simp] theorem dlClear_cpOut (s : State) : (dlClear s).cpOut = s.cpOut := rfl
@[simp] theorem dlClear_spOut (s : State) : (dlClear s).spOut = s.spOut := rfl

@[simp] theorem lfoAdvance_ready (inc : F32) (s : State) : (lfoAdvance inc s).ready = s.ready := rfl
@[simp] theorem lfoAdvance_errPrep (inc : F32) (s : State) : (lfoAdvance inc s).errPrep = s.errPrep := rfl
@[simp] theorem lfoAdvance_errNrdy (inc : F32) (s : State) : (lfoAdvance inc s).errNrdy = s.errNrdy := rfl
@[simp] theorem lfoAdvance_errAcc (inc : F32) (s : State) : (lfoAdvance inc s).errAcc = s.errAcc := rfl
@[simp] theorem lfoAdvance_srate (inc : F32) (s : State) : (lfoAdvance inc s).srate = s.srate := rfl
@[simp] theorem lfoAdvance_maxblk (inc : F32) (s : State) : (lfoAdvance inc s).maxblk = s.maxblk := rfl
@[simp] theorem lfoAdvance_srAct (inc : F32) (s : State) : (lfoAdvance inc s).srAct = s.srAct := rfl
@[simp] theorem lfoAdvance_capacity (inc : F32) (s : State) : (lfoAdvance inc s).capacity = s.capacity := rfl
@[simp] theorem lfoAdvance_dryWet (inc : F32) (s : State) : (lfoAdvance inc s).dryWet = s.dryWet := rfl
@[simp] theorem lfoAdvance_depth (inc : F32) (s : State) : (lfoAdvance inc s).depth = s.depth := rfl
@[simp] theorem lfoAdvance_rate (inc : F32) (s : State) : (lfoAdvance inc s).rate = s.rate := rfl
@[simp] theorem lfoAdvance_phaseOff (inc : F32) (s : State) : (lfoAdvance inc s).phaseOff = s.phaseOff := rfl
@[simp] theorem lfoAdvance_feedback (inc : F32) (s : State) : (lfoAdvance inc s).feedback = s.feedback := rfl
@[simp] theorem lfoAdvance_mode (inc : F32) (s : State) : (lfoAdvance inc s).mode = s.mode := rfl
@[simp] theorem lfoAdvance_wh (inc : F32) (s : State) : (lfoAdvance inc s).wh = s.wh := rfl
@[simp] theorem lfoAdvance_ph (inc : F32) (s : State) : (lfoAdvance inc s).ph = nextPhase s.ph inc := rfl
@[simp] theorem lfoAdvance_fbl (inc : F32) (s : State) : (lfoAdvance inc s).fbl = s.fbl := rfl
@[simp] theorem lfoAdvance_fbr (inc : F32) (s : State) : (lfoAdvance inc s).fbr = s.fbr := rfl
@[simp] theorem lfoAdvance_bufL (inc : F32) (s : State) : (lfoAdvance inc s).bufL = s.bufL := rfl
@[simp] theorem lfoAdvance_bufR (inc : F32) (s : State) : (lfoAdvance inc s).bufR = s.bufR := rfl
@[simp] theorem lfoAdvance_zeroed (inc : F32) (s : State) : (lfoAdvance inc s).zeroed = s.zeroed := rfl
@[simp] theorem lfoAdvance_resets (inc : F32) (s : State) : (lfoAdvance inc s).resets = s.resets := rfl
@[simp] theorem lfoAdvance_pending (inc : F32) (s : State) : (lfoAdvance inc s).pending = s.pending := rfl
@[simp] theorem lfoAdvance_cpOut (inc : F32) (s : State) : (lfoAdvance inc s).cpOut = s.cpOut := rfl
@[simp] theorem lfoAdvance_spOut (inc : F32) (s : State) : (lfoAdvance inc s).spOut = s.spOut := rfl

@[simp] theorem fbUpdate_left_ready (y k : F32) (s : State) : (fbUpdate .left y k s).ready = s.ready := rfl
@[simp] theorem fbUpdate_left_errPrep (y k : F32) (s : State) : (fbUpdate .left y k s).errPrep = s.errPrep := rfl
@[simp] theorem fbUpdate_left_errNrdy (y k : F32) (s : State) : (fbUpdate .left y k s).errNrdy = s.errNrdy := rfl
@[simp] theorem fbUpdate_left_errAcc (y k : F32) (s : State) : (fbUpdate .left y k s).errAcc = s.errAcc := rfl
@[simp] theorem fbUpdate_left_srate (y k : F32) (s : State) : (fbUpdate .left y k s).srate = s.srate := rfl
@[simp] theorem fbUpdate_left_maxblk (y k : F32) (s : State) : (fbUpdate .left y k s).maxblk = s.maxblk := rfl
@[simp] theorem fbUpdate_left_srAct (y k : F32) (s : State) : (fbUpdate .left y k s).srAct = s.srAct := rfl
@[simp] theorem fbUpdate_left_capacity (y k : F32) (s : State) : (fbUpdate .left y k s).capacity = s.capacity := rfl
@[simp] theorem fbUpdate_left_dryWet (y k : F32) (s : State) : (fbUpdate .left y k s).dryWet = s.dryWet := rfl
@[simp] theorem fbUpdate_left_depth (y k : F32) (s : State) : (fbUpdate .left y k s).depth = s.depth := rfl
@[simp] theorem fbUpdate_left_rate (y k : F32) (s : State) : (fbUpdate .left y k s).rate = s.rate := rfl
@[simp] theorem fbUpdate_left_phaseOff (y k : F32) (s : State) : (fbUpdate .left y k s).phaseOff = s.phaseOff := rfl
@[simp] theorem fbUpdate_left_feedback (y k : F32) (s : State) : (fbUpdate .left y k s).feedback = s.feedback := rfl
@[simp] theorem fbUpdate_left_mode (y k : F32) (s : State) : (fbUpdate .left y k s).mode = s.mode := rfl
@[simp] theorem fbUpdate_left_wh (y k : F32) (s : State) : (fbUpdate .left y k s).wh = s.wh := rfl
@[simp] theorem fbUpdate_left_ph (y k : F32) (s : State) : (fbUpdate .left y k s).ph = s.ph := rfl
@[simp] theorem fbUpdate_left_fbl (y k : F32) (s : State) : (fbUpdate .left y k s).fbl = mulF y k := rfl
@[simp] theorem fbUpdate_left_fbr (y k : F32) (s : State) : (fbUpdate .left y k s).fbr = s.fbr := rfl
@[simp] theorem fbUpdate_left_bufL (y k : F32) (s : State) : (fbUpdate .left y k s).bufL = s.bufL := rfl
@[simp] theorem fbUpdate_left_bufR (y k : F32) (s : State) : (fbUpdate .left y k s).bufR = s.bufR := rfl
@[simp] theorem fbUpdate_left_zeroed (y k : F32) (s : State) : (fbUpdate .left y k s).zeroed = s.zeroed := rfl
@[simp] theorem fbUpdate_left_resets (y k : F32) (s : State) : (fbUpdate .left y k s).resets = s.resets := rfl
@[simp] theorem fbUpdate_left_pending (y k : F32) (s : State) : (fbUpdate .left y k s).pending = s.pending := rfl
@[simp] theorem fbUpdate_left_cpOut (y k : F32) (s : State) : (fbUpdate .left y k s).cpOut = s.cpOut := rfl
@[simp] theorem fbUpdate_left_spOut (y k : F32) (s : State) : (fbUpdate .left y k s).spOut = s.spOut := rfl

@[simp] theorem fbUpdate_right_ready (y k : F32) (s : State) : (fbUpdate .right y k s).ready = s.ready := rfl
@[simp] theorem fbUpdate_right_errPrep (y k : F32) (s : State) : (fbUpdate .right y k s).errPrep = s.errPrep := rfl
@[simp] theorem fbUpdate_right_errNrdy (y k : F32) (s : State) : (fbUpdate .right y k s).errNrdy = s.errNrdy := rfl
@[simp] theorem fbUpdate_right_errAcc (y k : F32) (s : State) : (fbUpdate .right y k s).errAcc = s.errAcc := rfl
@[simp] theorem fbUpdate_right_srate (y k : F32) (s : State) : (fbUpdate .right y k s).srate = s.srate := rfl
@[simp] theorem fbUpdate_right_maxblk (y k : F32) (s : State) : (fbUpdate .right y k s).maxblk = s.maxblk := rfl
@[simp] theorem fbUpdate_right_srAct (y k : F32) (s : State) : (fbUpdate .right y k s).srAct = s.srAct := rfl
@[simp] theorem fbUpdate_right_capacity (y k : F32) (s : State) : (fbUpdate .right y k s).capacity = s.capacity := rfl
@[simp] theorem fbUpdate_right_dryWet (y k : F32) (s : State) : (fbUpdate .right y k s).dryWet = s.dryWet := rfl
@[simp] theorem fbUpdate_right_depth (y k : F32) (s : State) : (fbUpdate .right y k s).depth = s.depth := rfl
@[simp] theorem fbUpdate_right_rate (y k : F32) (s : State) : (fbUpdate .right y k s).rate = s.rate := rfl
@[simp] theorem fbUpdate_right_phaseOff (y k : F32) (s : State) : (fbUpdate .right y k s).phaseOff = s.phaseOff := rfl
@[simp] theorem fbUpdate_right_feedback (y k : F32) (s : State) : (fbUpdate .right y k s).feedback = s.feedback := rfl
@[simp] theorem fbUpdate_right_mode (y k : F32) (s : State) : (fbUpdate .right y k s).mode = s.mode := rfl
@[simp] theorem fbUpdate_right_wh (y k : F32) (s : State) : (fbUpdate .right y k s).wh = s.wh := rfl
@[simp] theorem fbUpdate_right_ph (y k : F32) (s : State) : (fbUpdate .right y k s).ph = s.ph := rfl
@[simp] theorem fbUpdate_right_fbl (y k : F32) (s : State) : (fbUpdate .right y k s).fbl = s.fbl := rfl
@[simp] theorem fbUpdate_right_fbr (y k : F32) (s : State) : (fbUpdate .right y k s).fbr = mulF y k := rfl
@[simp] theorem fbUpdate_right_bufL (y k : F32) (s : State) : (fbUpdate .right y k s).bufL = s.bufL := rfl
@[simp] theorem fbUpdate_right_bufR (y k : F32) (s : State) : (fbUpdate .right y k s).bufR = s.bufR := rfl
@[simp] theorem fbUpdate_right_zeroed (y k : F32) (s : State) : (fbUpdate .right y k s).zeroed = s.zeroed := rfl
@[simp] theorem fbUpdate_right_resets (y k : F32) (s : State) : (fbUpdate .right y k s).resets = s.resets := rfl
@[simp] theorem fbUpdate_right_pending (y k : F32) (s : State) : (fbUpdate .right y k s).pending = s.pending := rfl
@[simp] theorem fbUpdate_right_cpOut (y k : F32) (s : State) : (fbUpdate .right y k s).cpOut = s.cpOut := rfl
@[simp] theorem fbUpdate_right_spOut (y k : F32) (s : State) : (fbUpdate .right y k s).spOut = s.spOut := rfl

@[simp] theorem zeroTransient_ready (s : State) : (zeroTransient s).ready = s.ready := rfl
@[simp] theorem zeroTransient_errPrep (s : State) : (zeroTransient s).errPrep = s.errPrep := rfl
@[simp] theorem zeroTransient_errNrdy (s : State) : (zeroTransient s).errNrdy = s.errNrdy := rfl
@[simp] theorem zeroTransient_errAcc (s : State) : (zeroTransient s).errAcc = s.errAcc := rfl
@[simp] theorem zeroTransient_srate (s : State) : (zeroTransient s).srate = s.srate := rfl
@[simp] theorem zeroTransient_maxblk (s : State) : (zeroTransient s).maxblk = s.maxblk := rfl
@[simp] theorem zeroTransient_srAct (s : State) : (zeroTransient s).srAct = s.srAct := rfl
@[simp] theorem zeroTransient_capacity (s : State) : (zeroTransient s).capacity = s.capacity := rfl
@[simp] theorem zeroTransient_dryWet (s : State) : (zeroTransient s).dryWet = s.dryWet := rfl
@[simp] theorem zeroTransient_depth (s : State) : (zeroTransient s).depth = s.depth := rfl
@[simp] theorem zeroTransient_rate (s : State) : (zeroTransient s).rate = s.rate := rfl
@[simp] theorem zeroTransient_phaseOff (s : State) : (zeroTransient s).phaseOff = s.phaseOff := rfl
@[simp] theorem zeroTransient_feedback (s : State) : (zeroTransient s).feedback = s.feedback := rfl
@[simp] theorem zeroTransient_mode (s : State) : (zeroTransient s).mode = s.mode := rfl
@[simp] theorem zeroTransient_wh (s : State) : (zeroTransient s).wh = 0 := rfl
@[simp] theorem zeroTransient_ph (s : State) : (zeroTransient s).ph = posZero := rfl
@[simp] theorem zeroTransient_fbl (s : State) : (zeroTransient s).fbl = posZero := rfl
@[simp] theorem zeroTransient_fbr (s : State) : (zeroTransient s).fbr = posZero := rfl
@[simp] theorem zeroTransient_bufL (s : State) : (zeroTransient s).bufL = s.bufL := rfl
@[simp] theorem zeroTransient_bufR (s : State) : (zeroTransient s).bufR = s.bufR := rfl
@[simp] theorem zeroTransient_zeroed (s : State) : (zeroTransient s).zeroed = s.zeroed := rfl
@[simp] theorem zeroTransient_resets (s : State) : (zeroTransient s).resets = s.resets := rfl
@[simp] theorem zeroTransient_pending (s : State) : (zeroTransient s).pending = s.pending := rfl
@[simp] theorem zeroTransient_cpOut (s : State) : (zeroTransient s).cpOut = s.cpOut := rfl
@[simp] theorem zeroTransient_spOut (s : State) : (zeroTransient s).spOut = s.spOut := rfl

@[simp] theorem prepareSuccess_ready (p : Config.Params) (s : State) : (prepareSuccess p s).ready = true := rfl
@[simp] theorem prepareSuccess_errPrep (p : Config.Params) (s : State) : (prepareSuccess p s).errPrep = s.errPrep := rfl
@[simp] theorem prepareSuccess_errNrdy (p : Config.Params) (s : State) : (prepareSuccess p s).errNrdy = s.errNrdy := rfl
@[simp] theorem prepareSuccess_errAcc (p : Config.Params) (s : State) : (prepareSuccess p s).errAcc = s.errAcc := rfl
@[simp] theorem prepareSuccess_srate (p : Config.Params) (s : State) : (prepareSuccess p s).srate = s.srate := rfl
@[simp] theorem prepareSuccess_maxblk (p : Config.Params) (s : State) : (prepareSuccess p s).maxblk = s.maxblk := rfl
@[simp] theorem prepareSuccess_srAct (p : Config.Params) (s : State) : (prepareSuccess p s).srAct = s.srate := rfl
@[simp] theorem prepareSuccess_capacity (p : Config.Params) (s : State) : (prepareSuccess p s).capacity = BitVec.ofNat 32 (prepareCapacity p s.srate.toNat) := rfl
@[simp] theorem prepareSuccess_dryWet (p : Config.Params) (s : State) : (prepareSuccess p s).dryWet = s.dryWet := rfl
@[simp] theorem prepareSuccess_depth (p : Config.Params) (s : State) : (prepareSuccess p s).depth = s.depth := rfl
@[simp] theorem prepareSuccess_rate (p : Config.Params) (s : State) : (prepareSuccess p s).rate = s.rate := rfl
@[simp] theorem prepareSuccess_phaseOff (p : Config.Params) (s : State) : (prepareSuccess p s).phaseOff = s.phaseOff := rfl
@[simp] theorem prepareSuccess_feedback (p : Config.Params) (s : State) : (prepareSuccess p s).feedback = s.feedback := rfl
@[simp] theorem prepareSuccess_mode (p : Config.Params) (s : State) : (prepareSuccess p s).mode = s.mode := rfl
@[simp] theorem prepareSuccess_wh (p : Config.Params) (s : State) : (prepareSuccess p s).wh = s.wh := rfl
@[simp] theorem prepareSuccess_ph (p : Config.Params) (s : State) : (prepareSuccess p s).ph = s.ph := rfl
@[simp] theorem prepareSuccess_fbl (p : Config.Params) (s : State) : (prepareSuccess p s).fbl = s.fbl := rfl
@[simp] theorem prepareSuccess_fbr (p : Config.Params) (s : State) : (prepareSuccess p s).fbr = s.fbr := rfl
@[simp] theorem prepareSuccess_bufL (p : Config.Params) (s : State) : (prepareSuccess p s).bufL = Memory.zeroBelow s.bufL (prepareCapacity p s.srate.toNat) := rfl
@[simp] theorem prepareSuccess_bufR (p : Config.Params) (s : State) : (prepareSuccess p s).bufR = Memory.zeroBelow s.bufR (prepareCapacity p s.srate.toNat) := rfl
@[simp] theorem prepareSuccess_zeroed (p : Config.Params) (s : State) : (prepareSuccess p s).zeroed = max s.zeroed (prepareCapacity p s.srate.toNat) := rfl
@[simp] theorem prepareSuccess_resets (p : Config.Params) (s : State) : (prepareSuccess p s).resets = s.resets := rfl
@[simp] theorem prepareSuccess_pending (p : Config.Params) (s : State) : (prepareSuccess p s).pending = s.pending := rfl
@[simp] theorem prepareSuccess_cpOut (p : Config.Params) (s : State) : (prepareSuccess p s).cpOut = s.cpOut := rfl
@[simp] theorem prepareSuccess_spOut (p : Config.Params) (s : State) : (prepareSuccess p s).spOut = s.spOut := rfl

@[simp] theorem prepareFailure_ready (s : State) : (prepareFailure s).ready = false := rfl
@[simp] theorem prepareFailure_errPrep (s : State) : (prepareFailure s).errPrep = true := rfl
@[simp] theorem prepareFailure_errNrdy (s : State) : (prepareFailure s).errNrdy = s.errNrdy := rfl
@[simp] theorem prepareFailure_errAcc (s : State) : (prepareFailure s).errAcc = s.errAcc := rfl
@[simp] theorem prepareFailure_srate (s : State) : (prepareFailure s).srate = s.srate := rfl
@[simp] theorem prepareFailure_maxblk (s : State) : (prepareFailure s).maxblk = s.maxblk := rfl
@[simp] theorem prepareFailure_srAct (s : State) : (prepareFailure s).srAct = 0 := rfl
@[simp] theorem prepareFailure_capacity (s : State) : (prepareFailure s).capacity = 0 := rfl
@[simp] theorem prepareFailure_dryWet (s : State) : (prepareFailure s).dryWet = s.dryWet := rfl
@[simp] theorem prepareFailure_depth (s : State) : (prepareFailure s).depth = s.depth := rfl
@[simp] theorem prepareFailure_rate (s : State) : (prepareFailure s).rate = s.rate := rfl
@[simp] theorem prepareFailure_phaseOff (s : State) : (prepareFailure s).phaseOff = s.phaseOff := rfl
@[simp] theorem prepareFailure_feedback (s : State) : (prepareFailure s).feedback = s.feedback := rfl
@[simp] theorem prepareFailure_mode (s : State) : (prepareFailure s).mode = s.mode := rfl
@[simp] theorem prepareFailure_wh (s : State) : (prepareFailure s).wh = s.wh := rfl
@[simp] theorem prepareFailure_ph (s : State) : (prepareFailure s).ph = s.ph := rfl
@[simp] theorem prepareFailure_fbl (s : State) : (prepareFailure s).fbl = s.fbl := rfl
@[simp] theorem prepareFailure_fbr (s : State) : (prepareFailure s).fbr = s.fbr := rfl
@[simp] theorem prepareFailure_bufL (s : State) : (prepareFailure s).bufL = s.bufL := rfl
@[simp] theorem prepareFailure_bufR (s : State) : (prepareFailure s).bufR = s.bufR := rfl
@[simp] theorem prepareFailure_zeroed (s : State) : (prepareFailure s).zeroed = s.zeroed := rfl
@[simp] theorem prepareFailure_resets (s : State) : (prepareFailure s).resets = s.resets := rfl
@[simp] theorem prepareFailure_pending (s : State) : (prepareFailure s).pending = s.pending := rfl
@[simp] theorem prepareFailure_cpOut (s : State) : (prepareFailure s).cpOut = s.cpOut := rfl
@[simp] theorem prepareFailure_spOut (s : State) : (prepareFailure s).spOut = s.spOut := rfl

@[simp] theorem clear_ready (s : State) : (clear s).ready = s.ready := rfl
@[simp] theorem clear_errPrep (s : State) : (clear s).errPrep = s.errPrep := rfl
@[simp] theorem clear_errNrdy (s : State) : (clear s).errNrdy = s.errNrdy := rfl
@[simp] theorem clear_errAcc (s : State) : (clear s).errAcc = s.errAcc := rfl
@[simp] theorem clear_srate (s : State) : (clear s).srate = s.srate := rfl
@[simp] theorem clear_maxblk (s : State) : (clear s).maxblk = s.maxblk := rfl
@[simp] theorem clear_srAct (s : State) : (clear s).srAct = s.srAct := rfl
@[simp] theorem clear_capacity (s : State) : (clear s).capacity = s.capacity := rfl
@[simp] theorem clear_dryWet (s : State) : (clear s).dryWet = s.dryWet := rfl
@[simp] theorem clear_depth (s : State) : (clear s).depth = s.depth := rfl
@[simp] theorem clear_rate (s : State) : (clear s).rate = s.rate := rfl
@[simp] theorem clear_phaseOff (s : State) : (clear s).phaseOff = s.phaseOff := rfl
@[simp] theorem clear_feedback (s : State) : (clear s).feedback = s.feedback := rfl
@[simp] theorem clear_mode (s : State) : (clear s).mode = s.mode := rfl
@[simp] theorem clear_wh (s : State) : (clear s).wh = 0 := rfl
@[simp] theorem clear_ph (s : State) : (clear s).ph = posZero := rfl
@[simp] theorem clear_fbl (s : State) : (clear s).fbl = posZero := rfl
@[simp] theorem clear_fbr (s : State) : (clear s).fbr = posZero := rfl
@[simp] theorem clear_bufL (s : State) : (clear s).bufL = Memory.zeroBelow s.bufL (capacityNat s) := rfl
@[simp] theorem clear_bufR (s : State) : (clear s).bufR = Memory.zeroBelow s.bufR (capacityNat s) := rfl
@[simp] theorem clear_zeroed (s : State) : (clear s).zeroed = max s.zeroed (capacityNat s) := rfl
@[simp] theorem clear_resets (s : State) : (clear s).resets = s.resets := rfl
@[simp] theorem clear_pending (s : State) : (clear s).pending = s.pending := rfl
@[simp] theorem clear_cpOut (s : State) : (clear s).cpOut = s.cpOut := rfl
@[simp] theorem clear_spOut (s : State) : (clear s).spOut = s.spOut := rfl

@[simp] theorem restoreDefaults_ready (s : State) : (restoreDefaults s).ready = s.ready := rfl
@[simp] theorem restoreDefaults_errPrep (s : State) : (restoreDefaults s).errPrep = s.errPrep := rfl
@[simp] theorem restoreDefaults_errNrdy (s : State) : (restoreDefaults s).errNrdy = s.errNrdy := rfl
@[simp] theorem restoreDefaults_errAcc (s : State) : (restoreDefaults s).errAcc = s.errAcc := rfl
@[simp] theorem restoreDefaults_srate (s : State) : (restoreDefaults s).srate = s.srate := rfl
@[simp] theorem restoreDefaults_maxblk (s : State) : (restoreDefaults s).maxblk = s.maxblk := rfl
@[simp] theorem restoreDefaults_srAct (s : State) : (restoreDefaults s).srAct = s.srAct := rfl
@[simp] theorem restoreDefaults_capacity (s : State) : (restoreDefaults s).capacity = s.capacity := rfl
@[simp] theorem restoreDefaults_dryWet (s : State) : (restoreDefaults s).dryWet = 0x3F000000 := rfl
@[simp] theorem restoreDefaults_depth (s : State) : (restoreDefaults s).depth = 0x3F000000 := rfl
@[simp] theorem restoreDefaults_rate (s : State) : (restoreDefaults s).rate = 0x41200000 := rfl
@[simp] theorem restoreDefaults_phaseOff (s : State) : (restoreDefaults s).phaseOff = 0x00000000 := rfl
@[simp] theorem restoreDefaults_feedback (s : State) : (restoreDefaults s).feedback = 0x3F000000 := rfl
@[simp] theorem restoreDefaults_mode (s : State) : (restoreDefaults s).mode = .chorus := rfl
@[simp] theorem restoreDefaults_wh (s : State) : (restoreDefaults s).wh = s.wh := rfl
@[simp] theorem restoreDefaults_ph (s : State) : (restoreDefaults s).ph = s.ph := rfl
@[simp] theorem restoreDefaults_fbl (s : State) : (restoreDefaults s).fbl = s.fbl := rfl
@[simp] theorem restoreDefaults_fbr (s : State) : (restoreDefaults s).fbr = s.fbr := rfl
@[simp] theorem restoreDefaults_bufL (s : State) : (restoreDefaults s).bufL = s.bufL := rfl
@[simp] theorem restoreDefaults_bufR (s : State) : (restoreDefaults s).bufR = s.bufR := rfl
@[simp] theorem restoreDefaults_zeroed (s : State) : (restoreDefaults s).zeroed = s.zeroed := rfl
@[simp] theorem restoreDefaults_resets (s : State) : (restoreDefaults s).resets = s.resets := rfl
@[simp] theorem restoreDefaults_pending (s : State) : (restoreDefaults s).pending = s.pending := rfl
@[simp] theorem restoreDefaults_cpOut (s : State) : (restoreDefaults s).cpOut = s.cpOut := rfl
@[simp] theorem restoreDefaults_spOut (s : State) : (restoreDefaults s).spOut = s.spOut := rfl

@[simp] theorem performIllegal_ready (w : PortWord) (s : State) : (performIllegal w s).ready = s.ready := rfl
@[simp] theorem performIllegal_errPrep (w : PortWord) (s : State) : (performIllegal w s).errPrep = s.errPrep := rfl
@[simp] theorem performIllegal_errNrdy (w : PortWord) (s : State) : (performIllegal w s).errNrdy = s.errNrdy := rfl
@[simp] theorem performIllegal_errAcc (w : PortWord) (s : State) : (performIllegal w s).errAcc = true := rfl
@[simp] theorem performIllegal_srate (w : PortWord) (s : State) : (performIllegal w s).srate = s.srate := rfl
@[simp] theorem performIllegal_maxblk (w : PortWord) (s : State) : (performIllegal w s).maxblk = s.maxblk := rfl
@[simp] theorem performIllegal_srAct (w : PortWord) (s : State) : (performIllegal w s).srAct = s.srAct := rfl
@[simp] theorem performIllegal_capacity (w : PortWord) (s : State) : (performIllegal w s).capacity = s.capacity := rfl
@[simp] theorem performIllegal_dryWet (w : PortWord) (s : State) : (performIllegal w s).dryWet = s.dryWet := rfl
@[simp] theorem performIllegal_depth (w : PortWord) (s : State) : (performIllegal w s).depth = s.depth := rfl
@[simp] theorem performIllegal_rate (w : PortWord) (s : State) : (performIllegal w s).rate = s.rate := rfl
@[simp] theorem performIllegal_phaseOff (w : PortWord) (s : State) : (performIllegal w s).phaseOff = s.phaseOff := rfl
@[simp] theorem performIllegal_feedback (w : PortWord) (s : State) : (performIllegal w s).feedback = s.feedback := rfl
@[simp] theorem performIllegal_mode (w : PortWord) (s : State) : (performIllegal w s).mode = s.mode := rfl
@[simp] theorem performIllegal_wh (w : PortWord) (s : State) : (performIllegal w s).wh = s.wh := rfl
@[simp] theorem performIllegal_ph (w : PortWord) (s : State) : (performIllegal w s).ph = s.ph := rfl
@[simp] theorem performIllegal_fbl (w : PortWord) (s : State) : (performIllegal w s).fbl = s.fbl := rfl
@[simp] theorem performIllegal_fbr (w : PortWord) (s : State) : (performIllegal w s).fbr = s.fbr := rfl
@[simp] theorem performIllegal_bufL (w : PortWord) (s : State) : (performIllegal w s).bufL = s.bufL := rfl
@[simp] theorem performIllegal_bufR (w : PortWord) (s : State) : (performIllegal w s).bufR = s.bufR := rfl
@[simp] theorem performIllegal_zeroed (w : PortWord) (s : State) : (performIllegal w s).zeroed = s.zeroed := rfl
@[simp] theorem performIllegal_resets (w : PortWord) (s : State) : (performIllegal w s).resets = s.resets := rfl
@[simp] theorem performIllegal_pending (w : PortWord) (s : State) : (performIllegal w s).pending = s.pending := rfl
@[simp] theorem performIllegal_cpOut (w : PortWord) (s : State) : (performIllegal w s).cpOut = s.cpOut ++ [if w.extractLsb' 56 8 = (0x01 : BitVec 8) then .resp 0x00000000 else .ack] := rfl
@[simp] theorem performIllegal_spOut (w : PortWord) (s : State) : (performIllegal w s).spOut = s.spOut := rfl

@[simp] theorem reset_ready : State.reset.ready = false := rfl
@[simp] theorem reset_errPrep : State.reset.errPrep = false := rfl
@[simp] theorem reset_errNrdy : State.reset.errNrdy = false := rfl
@[simp] theorem reset_errAcc : State.reset.errAcc = false := rfl
@[simp] theorem reset_srate : State.reset.srate = 0 := rfl
@[simp] theorem reset_maxblk : State.reset.maxblk = 0 := rfl
@[simp] theorem reset_srAct : State.reset.srAct = 0 := rfl
@[simp] theorem reset_capacity : State.reset.capacity = 0 := rfl
@[simp] theorem reset_dryWet : State.reset.dryWet = 0x3F000000 := rfl
@[simp] theorem reset_depth : State.reset.depth = 0x3F000000 := rfl
@[simp] theorem reset_rate : State.reset.rate = 0x41200000 := rfl
@[simp] theorem reset_phaseOff : State.reset.phaseOff = 0 := rfl
@[simp] theorem reset_feedback : State.reset.feedback = 0x3F000000 := rfl
@[simp] theorem reset_mode : State.reset.mode = .chorus := rfl
@[simp] theorem reset_wh : State.reset.wh = 0 := rfl
@[simp] theorem reset_ph : State.reset.ph = 0 := rfl
@[simp] theorem reset_fbl : State.reset.fbl = 0 := rfl
@[simp] theorem reset_fbr : State.reset.fbr = 0 := rfl
@[simp] theorem reset_bufL : State.reset.bufL = [] := rfl
@[simp] theorem reset_bufR : State.reset.bufR = [] := rfl
@[simp] theorem reset_zeroed : State.reset.zeroed = 0 := rfl
@[simp] theorem reset_resets : State.reset.resets = 0 := rfl
@[simp] theorem reset_pending : State.reset.pending = [] := rfl
@[simp] theorem reset_cpOut : State.reset.cpOut = [] := rfl
@[simp] theorem reset_spOut : State.reset.spOut = [] := rfl

@[simp] theorem hardwareReset_ready (s : State) : (hardwareReset s).ready = false := rfl
@[simp] theorem hardwareReset_errPrep (s : State) : (hardwareReset s).errPrep = false := rfl
@[simp] theorem hardwareReset_errNrdy (s : State) : (hardwareReset s).errNrdy = false := rfl
@[simp] theorem hardwareReset_errAcc (s : State) : (hardwareReset s).errAcc = false := rfl
@[simp] theorem hardwareReset_srate (s : State) : (hardwareReset s).srate = 0 := rfl
@[simp] theorem hardwareReset_maxblk (s : State) : (hardwareReset s).maxblk = 0 := rfl
@[simp] theorem hardwareReset_srAct (s : State) : (hardwareReset s).srAct = 0 := rfl
@[simp] theorem hardwareReset_capacity (s : State) : (hardwareReset s).capacity = 0 := rfl
@[simp] theorem hardwareReset_dryWet (s : State) : (hardwareReset s).dryWet = 0x3F000000 := rfl
@[simp] theorem hardwareReset_depth (s : State) : (hardwareReset s).depth = 0x3F000000 := rfl
@[simp] theorem hardwareReset_rate (s : State) : (hardwareReset s).rate = 0x41200000 := rfl
@[simp] theorem hardwareReset_phaseOff (s : State) : (hardwareReset s).phaseOff = 0 := rfl
@[simp] theorem hardwareReset_feedback (s : State) : (hardwareReset s).feedback = 0x3F000000 := rfl
@[simp] theorem hardwareReset_mode (s : State) : (hardwareReset s).mode = .chorus := rfl
@[simp] theorem hardwareReset_wh (s : State) : (hardwareReset s).wh = 0 := rfl
@[simp] theorem hardwareReset_ph (s : State) : (hardwareReset s).ph = 0 := rfl
@[simp] theorem hardwareReset_fbl (s : State) : (hardwareReset s).fbl = 0 := rfl
@[simp] theorem hardwareReset_fbr (s : State) : (hardwareReset s).fbr = 0 := rfl
@[simp] theorem hardwareReset_bufL (s : State) : (hardwareReset s).bufL = [] := rfl
@[simp] theorem hardwareReset_bufR (s : State) : (hardwareReset s).bufR = [] := rfl
@[simp] theorem hardwareReset_zeroed (s : State) : (hardwareReset s).zeroed = 0 := rfl
@[simp] theorem hardwareReset_resets (s : State) : (hardwareReset s).resets = s.resets + 1 := rfl
@[simp] theorem hardwareReset_pending (s : State) : (hardwareReset s).pending = s.pending := rfl
@[simp] theorem hardwareReset_cpOut (s : State) : (hardwareReset s).cpOut = s.cpOut := rfl
@[simp] theorem hardwareReset_spOut (s : State) : (hardwareReset s).spOut = s.spOut := rfl

@[simp] theorem sampleBypass_ready (l r : F32) (s : State) : (sampleBypass l r s).ready = s.ready := rfl
@[simp] theorem sampleBypass_errPrep (l r : F32) (s : State) : (sampleBypass l r s).errPrep = s.errPrep := rfl
@[simp] theorem sampleBypass_errNrdy (l r : F32) (s : State) : (sampleBypass l r s).errNrdy = true := rfl
@[simp] theorem sampleBypass_errAcc (l r : F32) (s : State) : (sampleBypass l r s).errAcc = s.errAcc := rfl
@[simp] theorem sampleBypass_srate (l r : F32) (s : State) : (sampleBypass l r s).srate = s.srate := rfl
@[simp] theorem sampleBypass_maxblk (l r : F32) (s : State) : (sampleBypass l r s).maxblk = s.maxblk := rfl
@[simp] theorem sampleBypass_srAct (l r : F32) (s : State) : (sampleBypass l r s).srAct = s.srAct := rfl
@[simp] theorem sampleBypass_capacity (l r : F32) (s : State) : (sampleBypass l r s).capacity = s.capacity := rfl
@[simp] theorem sampleBypass_dryWet (l r : F32) (s : State) : (sampleBypass l r s).dryWet = s.dryWet := rfl
@[simp] theorem sampleBypass_depth (l r : F32) (s : State) : (sampleBypass l r s).depth = s.depth := rfl
@[simp] theorem sampleBypass_rate (l r : F32) (s : State) : (sampleBypass l r s).rate = s.rate := rfl
@[simp] theorem sampleBypass_phaseOff (l r : F32) (s : State) : (sampleBypass l r s).phaseOff = s.phaseOff := rfl
@[simp] theorem sampleBypass_feedback (l r : F32) (s : State) : (sampleBypass l r s).feedback = s.feedback := rfl
@[simp] theorem sampleBypass_mode (l r : F32) (s : State) : (sampleBypass l r s).mode = s.mode := rfl
@[simp] theorem sampleBypass_wh (l r : F32) (s : State) : (sampleBypass l r s).wh = s.wh := rfl
@[simp] theorem sampleBypass_ph (l r : F32) (s : State) : (sampleBypass l r s).ph = s.ph := rfl
@[simp] theorem sampleBypass_fbl (l r : F32) (s : State) : (sampleBypass l r s).fbl = s.fbl := rfl
@[simp] theorem sampleBypass_fbr (l r : F32) (s : State) : (sampleBypass l r s).fbr = s.fbr := rfl
@[simp] theorem sampleBypass_bufL (l r : F32) (s : State) : (sampleBypass l r s).bufL = s.bufL := rfl
@[simp] theorem sampleBypass_bufR (l r : F32) (s : State) : (sampleBypass l r s).bufR = s.bufR := rfl
@[simp] theorem sampleBypass_zeroed (l r : F32) (s : State) : (sampleBypass l r s).zeroed = s.zeroed := rfl
@[simp] theorem sampleBypass_resets (l r : F32) (s : State) : (sampleBypass l r s).resets = s.resets := rfl
@[simp] theorem sampleBypass_pending (l r : F32) (s : State) : (sampleBypass l r s).pending = s.pending := rfl
@[simp] theorem sampleBypass_cpOut (l r : F32) (s : State) : (sampleBypass l r s).cpOut = s.cpOut := rfl
@[simp] theorem sampleBypass_spOut (l r : F32) (s : State) : (sampleBypass l r s).spOut = s.spOut ++ [r ++ l] := rfl

end Sys2Proof.Machine
end

