-- ==== Sys2Proof/Laws/Memory.lean ====
section
/-! SUPPORT. The delay memories: reading after writing and zeroing (20_memory.md R62, R63), and that every operation keeps the
canonical form. -/

namespace Sys2Proof.Machine

/-! ### Lists of cells -/

theorem Memory.lookup_put (m : Memory) (i j : Nat) (v : F32) (h : Memory.rising m = true) :
    (m.put i v).lookup j = if i = j then some v else m.lookup j := by
  induction m with
  | nil => simp [Memory.put, Memory.lookup]
  | cons c m ih =>
    obtain ⟨k, w⟩ := c
    have hm : Memory.rising m = true := by
      cases m with
      | nil => rfl
      | cons d m => simp only [Memory.rising, Bool.and_eq_true] at h; exact h.2
    simp only [Memory.put]
    split
    · simp [Memory.lookup]
    · split
      · subst_vars
        simp only [Memory.lookup]
        split <;> rfl
      · simp only [Memory.lookup, ih hm]
        split
        · subst_vars; split
          · omega
          · rfl
        · rfl

theorem Memory.rising_tail {c : Nat × F32} {m : Memory} (h : Memory.rising (c :: m) = true) : Memory.rising m = true := by
  cases m with
  | nil => rfl
  | cons d m => simp only [Memory.rising, Bool.and_eq_true] at h; exact h.2

theorem Memory.rising_head {c : Nat × F32} {m : Memory} (h : Memory.rising (c :: m) = true) : ∀ d ∈ m, c.1 < d.1 := by
  induction m generalizing c with
  | nil => simp
  | cons e m ih =>
    have h1 : c.1 < e.1 := by
      simp only [Memory.rising, Bool.and_eq_true, decide_eq_true_eq] at h; exact h.1
    intro d hd
    rcases List.mem_cons.1 hd with rfl | hd
    · exact h1
    · exact lt_trans h1 (ih (Memory.rising_tail h) d hd)

theorem Memory.rising_cons {c : Nat × F32} {m : Memory} (h : Memory.rising m = true) (hc : ∀ d ∈ m, c.1 < d.1) :
    Memory.rising (c :: m) = true := by
  cases m with
  | nil => rfl
  | cons e m => simp [Memory.rising, h, hc e (by simp)]

theorem Memory.rising_filter (q : Nat × F32 → Bool) {m : Memory} (h : Memory.rising m = true) :
    Memory.rising (m.filter q) = true := by
  induction m with
  | nil => rfl
  | cons c m ih =>
    rw [List.filter_cons]
    split
    · exact Memory.rising_cons (ih (Memory.rising_tail h)) fun d hd => Memory.rising_head h d (List.mem_of_mem_filter hd)
    · exact ih (Memory.rising_tail h)

theorem Memory.mem_put {m : Memory} {i : Nat} {v : F32} {d : Nat × F32} (h : d ∈ m.put i v) : d = (i, v) ∨ d ∈ m := by
  induction m with
  | nil => simpa [Memory.put] using h
  | cons c m ih =>
    simp only [Memory.put] at h
    split at h
    · simpa using h
    · split at h
      · rcases List.mem_cons.1 h with h | h
        · exact .inl h
        · exact .inr (List.mem_cons_of_mem _ h)
      · rcases List.mem_cons.1 h with h | h
        · exact .inr (by simp [h])
        · exact (ih h).imp_right (List.mem_cons_of_mem _)

theorem Memory.rising_put {m : Memory} (i : Nat) (v : F32) (h : Memory.rising m = true) : Memory.rising (m.put i v) = true := by
  induction m with
  | nil => rfl
  | cons c m ih =>
    obtain ⟨k, w⟩ := c
    have hhead := Memory.rising_head h
    simp only [Memory.put]
    split
    · next hlt =>
      refine Memory.rising_cons h fun d hd => ?_
      rcases List.mem_cons.1 hd with rfl | hd
      · exact hlt
      · exact lt_trans hlt (hhead d hd)
    · split
      · next heq => exact Memory.rising_cons (Memory.rising_tail h) fun d hd => heq ▸ hhead d hd
      · refine Memory.rising_cons (ih (Memory.rising_tail h)) fun d hd => ?_
        rcases Memory.mem_put hd with rfl | hd
        · show k < i; omega
        · exact hhead d hd

theorem Memory.lookup_filter_of_true (q : Nat → Bool) (m : Memory) (i : Nat) (h : q i = true) :
    Memory.lookup (m.filter fun c => q c.1) i = m.lookup i := by
  induction m with
  | nil => rfl
  | cons c m ih =>
    rw [List.filter_cons]
    split
    · simp only [Memory.lookup, ih]
    · next hc =>
      have : c.1 ≠ i := fun e => hc (e ▸ h)
      simp [Memory.lookup, this, ih]

theorem Memory.lookup_filter_of_false (q : Nat → Bool) (m : Memory) (i : Nat) (h : q i = false) :
    Memory.lookup (m.filter fun c => q c.1) i = none := by
  induction m with
  | nil => rfl
  | cons c m ih =>
    rw [List.filter_cons]
    split
    · next hc =>
      have : c.1 ≠ i := fun e => by rw [e, h] at hc; cases hc
      simp [Memory.lookup, this, ih]
    · exact ih

theorem Memory.lookup_drop (m : Memory) (i j : Nat) :
    (m.drop i).lookup j = if i = j then none else m.lookup j := by
  split
  · next h =>
    subst h
    exact Memory.lookup_filter_of_false (fun k => k != i) m i (by simp)
  · next h => exact Memory.lookup_filter_of_true (fun k => k != i) m j (by simpa using Ne.symm h)

/-- A read after a write, through the value an unlisted index reads as. -/
theorem Memory.lookup_write (u : Nat → F32) (m : Memory) (i j : Nat) (v : F32) (h : Memory.rising m = true) :
    ((m.write u i v).lookup j).getD (u j) = if i = j then v else (m.lookup j).getD (u j) := by
  unfold Memory.write
  split
  · next hv =>
    rw [Memory.lookup_drop]
    split
    · next hij => subst hij; exact hv.symm
    · rfl
  · rw [Memory.lookup_put _ _ _ _ h]
    split <;> rfl

theorem Memory.lookup_zeroBelow (m : Memory) (c i : Nat) :
    (m.zeroBelow c).lookup i = if c ≤ i then m.lookup i else none := by
  split
  · next h => exact Memory.lookup_filter_of_true (fun k => decide (c ≤ k)) m i (by simpa using h)
  · next h => exact Memory.lookup_filter_of_false (fun k => decide (c ≤ k)) m i (by simpa using h)

theorem Memory.wf_iff (u : Nat → F32) (m : Memory) :
    Memory.wf u m = true ↔ Memory.rising m = true ∧ ∀ c ∈ m, c.2 ≠ u c.1 := by
  simp only [Memory.wf, Bool.and_eq_true, List.all_eq_true, bne_iff_ne]

/-- A write keeps the canonical form. -/
theorem Memory.wf_write {u : Nat → F32} {m : Memory} (i : Nat) (v : F32) (h : Memory.wf u m = true) :
    Memory.wf u (m.write u i v) = true := by
  rw [Memory.wf_iff] at h ⊢
  unfold Memory.write
  split
  · exact ⟨Memory.rising_filter _ h.1, fun c hc => h.2 c (List.mem_of_mem_filter hc)⟩
  · next hv =>
    refine ⟨Memory.rising_put i v h.1, fun c hc => ?_⟩
    rcases Memory.mem_put hc with rfl | hc
    · exact hv
    · exact h.2 c hc

theorem Memory.mem_write {u : Nat → F32} {m : Memory} {i : Nat} {v : F32} {d : Nat × F32} (h : d ∈ m.write u i v) :
    d = (i, v) ∨ d ∈ m := by
  unfold Memory.write at h
  split at h
  · exact .inr (List.mem_of_mem_filter h)
  · exact Memory.mem_put h

theorem Memory.mem_zeroBelow {m : Memory} {c : Nat} {d : Nat × F32} (h : d ∈ m.zeroBelow c) : c ≤ d.1 ∧ d ∈ m := by
  have := List.mem_filter.1 h
  exact ⟨by simpa using this.2, this.1⟩

/-- Zeroing the words below `c` keeps the canonical form, where nothing else changes what the words from `c` on read as. -/
theorem Memory.wf_zeroBelow {u u' : Nat → F32} {m : Memory} (c : Nat) (h : Memory.wf u m = true)
    (hu : ∀ i, c ≤ i → u' i = u i) : Memory.wf u' (m.zeroBelow c) = true := by
  rw [Memory.wf_iff] at h ⊢
  exact ⟨Memory.rising_filter _ h.1, fun d hd => by
    obtain ⟨h1, h2⟩ := Memory.mem_zeroBelow hd
    rw [hu d.1 h1]; exact h.2 d h2⟩

/-! ### Words of the state -/

theorem memWf_iff (s : State) :
    memWf s = true ↔ Memory.wf (unlistedWord s .left) s.bufL = true ∧ Memory.wf (unlistedWord s .right) s.bufR = true := by
  simp [memWf]

/-- What an unlisted word reads as depends on the zeroed extent and the reset count alone. -/
theorem unlistedWord_congr {s t : State} (hz : s.zeroed = t.zeroed) (hr : s.resets = t.resets) :
    unlistedWord s = unlistedWord t := by
  funext x i; simp only [unlistedWord, hz, hr]

theorem buf_rising {s : State} (h : memWf s = true) (x : Channel) : Memory.rising (s.buf x) = true := by
  rw [memWf_iff, Memory.wf_iff, Memory.wf_iff] at h
  cases x
  · exact h.1.1
  · exact h.2.1

/-- A state update that leaves the memories, the zeroed extent and the reset count alone leaves every word. -/
theorem wordAt_congr {s t : State} (hl : s.bufL = t.bufL) (hr : s.bufR = t.bufR) (hz : s.zeroed = t.zeroed)
    (hn : s.resets = t.resets) : wordAt s = wordAt t := by
  funext x i
  have : s.buf x = t.buf x := by cases x <;> simp [State.buf, hl, hr]
  simp only [wordAt, this, unlistedWord_congr hz hn]

theorem memWf_congr {s t : State} (hl : s.bufL = t.bufL) (hr : s.bufR = t.bufR) (hz : s.zeroed = t.zeroed)
    (hn : s.resets = t.resets) : memWf s = memWf t := by
  simp only [memWf, hl, hr, unlistedWord_congr hz hn]

/-- A read after a write: the word written, every other word of both memories unchanged (20_memory.md R62, R63). -/
theorem wordAt_setWord {s : State} (h : memWf s = true) (x y : Channel) (i j : Nat) (v : F32) :
    wordAt (s.setWord x i v) y j = if x = y ∧ i = j then v else wordAt s y j := by
  have hu : unlistedWord (s.setWord x i v) = unlistedWord s := by
    cases x <;> exact unlistedWord_congr rfl rfl
  have hl := Memory.lookup_write (unlistedWord s .left) s.bufL i j v (buf_rising h .left)
  have hr := Memory.lookup_write (unlistedWord s .right) s.bufR i j v (buf_rising h .right)
  unfold wordAt
  rw [hu]
  cases x <;> cases y <;> simp [State.buf, hl, hr]

theorem memWf_setWord {s : State} (h : memWf s = true) (x : Channel) (i : Nat) (v : F32) : memWf (s.setWord x i v) = true := by
  rw [memWf_iff] at h ⊢
  cases x
  · exact ⟨Memory.wf_write i v h.1, h.2⟩
  · exact ⟨h.1, Memory.wf_write i v h.2⟩

/-- Zeroing: the words below `c` read `+0` and the others are unchanged (41_delay_line.md R155). -/
theorem wordAt_zeroWords (s : State) (c : Nat) (x : Channel) (i : Nat) :
    wordAt (s.zeroWords c) x i = if i < c then posZero else wordAt s x i := by
  have hz : (s.zeroWords c).buf x = (s.buf x).zeroBelow c := by cases x <;> rfl
  have hu : unlistedWord (s.zeroWords c) x i = if i < max s.zeroed c then posZero else Config.powerOnWord s.resets x i := rfl
  unfold wordAt
  rw [hz, hu, Memory.lookup_zeroBelow]
  by_cases h : i < c
  · simp [h, Nat.not_le.2 h]
  · have hc : c ≤ i := Nat.not_lt.1 h
    have : i < max s.zeroed c ↔ i < s.zeroed := by omega
    simp [h, hc, this, unlistedWord]

theorem memWf_zeroWords {s : State} (h : memWf s = true) (c : Nat) : memWf (s.zeroWords c) = true := by
  rw [memWf_iff] at h ⊢
  have hu : ∀ x i, c ≤ i → unlistedWord (s.zeroWords c) x i = unlistedWord s x i := fun x i hi => by
    have : i < max s.zeroed c ↔ i < s.zeroed := by omega
    simp [unlistedWord, this]
  exact ⟨Memory.wf_zeroBelow c h.1 (hu .left), Memory.wf_zeroBelow c h.2 (hu .right)⟩

theorem memWf_reset : memWf State.reset = true := rfl

theorem memWf_hardwareReset (s : State) : memWf (hardwareReset s) = true := rfl

/-- MemRead answers the word exactly where its precondition holds (20_memory.md R61). -/
theorem memRead_ok_iff (p : Config.Params) (x : Channel) (i : Nat) (s : State) (v : F32) :
    memRead p x i s = .ok v ↔ i < p.dlDepth ∧ i < capacityNat s ∧ v = wordAt s x i := by
  unfold memRead accessFault resultUnless
  by_cases h1 : p.dlDepth ≤ i
  · simp [h1]
  · by_cases h2 : capacityNat s ≤ i
    · simp [h1, h2]
    · simp only [h1, h2, if_false, Except.ok.injEq]
      constructor
      · rintro rfl; exact ⟨by omega, by omega, rfl⟩
      · rintro ⟨-, -, rfl⟩; rfl

/-- MemWrite sets the word exactly where its precondition holds (20_memory.md R62). -/
theorem memWrite_ok_iff (p : Config.Params) (x : Channel) (i : Nat) (v : F32) (s t : State) :
    memWrite p x i v s = .ok t ↔ i < p.dlDepth ∧ i < capacityNat s ∧ t = s.setWord x i v := by
  unfold memWrite accessFault resultUnless
  by_cases h1 : p.dlDepth ≤ i
  · simp [h1]
  · by_cases h2 : capacityNat s ≤ i
    · simp [h1, h2]
    · simp only [h1, h2, if_false, Except.ok.injEq]
      constructor
      · rintro rfl; exact ⟨by omega, by omega, rfl⟩
      · rintro ⟨-, -, rfl⟩; rfl

end Sys2Proof.Machine
end

