-- ==== Sys2Proof/Laws/Step.lean ====
section
/-! SUPPORT. Everything a datapath function, an instruction and a step can do, said once: the lemmas later proofs cite instead of
unfolding the meanings. -/

namespace Sys2Proof.Machine

@[simp] theorem andThen_ok {α β : Type} (v : α) (f : α → Except Fault β) : andThen (.ok v) f = f v := rfl

@[simp] theorem andThen_error {α β : Type} (e : Fault) (f : α → Except Fault β) : andThen (.error e) f = .error e := rfl

/-- A sequence answers exactly when both parts do. -/
theorem andThen_ok_iff {α β : Type} (a : Except Fault α) (f : α → Except Fault β) (w : β) :
    andThen a f = .ok w ↔ ∃ v, a = .ok v ∧ f v = .ok w := by
  cases a <;> simp

/-! ### The delay line -/

/-- DL_READ_INTERP answers exactly where floor is defined and both words may be read (41_delay_line.md R152). -/
theorem dlReadInterp_ok_iff (p : Config.Params) (x : Channel) (d : F32) (s : State) (y : F32) :
    dlReadInterp p x d s = .ok y ↔ ∃ n, floorF (readPosition d s) = some n
      ∧ (olderIndex s n < p.dlDepth ∧ olderIndex s n < capacityNat s)
      ∧ (nextIndex s (olderIndex s n) < p.dlDepth ∧ nextIndex s (olderIndex s n) < capacityNat s)
      ∧ y = interpolate (subF (readPosition d s) (toF32 n)) (wordAt s x (olderIndex s n))
          (wordAt s x (nextIndex s (olderIndex s n))) := by
  have read : ∀ i, (i < p.dlDepth ∧ i < capacityNat s ∧ memRead p x i s = .ok (wordAt s x i))
      ∨ (¬(i < p.dlDepth ∧ i < capacityNat s) ∧ ∃ e, memRead p x i s = .error e) := by
    intro i
    by_cases h : i < p.dlDepth ∧ i < capacityNat s
    · exact .inl ⟨h.1, h.2, (memRead_ok_iff ..).2 ⟨h.1, h.2, rfl⟩⟩
    · refine .inr ⟨h, ?_⟩
      cases hm : memRead p x i s with
      | error e => exact ⟨e, rfl⟩
      | ok v => exact absurd ⟨((memRead_ok_iff ..).1 hm).1, ((memRead_ok_iff ..).1 hm).2.1⟩ h
  unfold dlReadInterp readAround
  generalize readPosition d s = r
  generalize floorF r = f
  cases f with
  | none => simp [positionFloor]
  | some n =>
    simp only [positionFloor, andThen_ok, Option.some.injEq, exists_eq_left']
    rcases read (olderIndex s n) with ⟨h1, h2, h3⟩ | ⟨h1, e, h3⟩
    · rw [h3, andThen_ok]
      rcases read (nextIndex s (olderIndex s n)) with ⟨h4, h5, h6⟩ | ⟨h4, e, h6⟩
      · rw [h6, andThen_ok]
        simp [h1, h2, h4, h5, eq_comm]
      · rw [h6, andThen_error]
        simp [h4]
    · rw [h3, andThen_error]
      simp [h1]

/-- A read depends on the write head, the capacity and the words below the capacity alone. -/
theorem dlReadInterp_congr {p : Config.Params} {x y : Channel} {d v : F32} {s t : State} (hw : s.wh = t.wh)
    (hc : s.capacity = t.capacity) (h : ∀ i, i < capacityNat s → wordAt s x i = wordAt t y i)
    (hr : dlReadInterp p x d s = .ok v) : dlReadInterp p y d t = .ok v := by
  have hcap : capacityNat t = capacityNat s := by simp only [capacityNat, hc]
  have hpos : readPosition d t = readPosition d s := by simp only [readPosition, capacityF, hw, hcap]
  have ho : ∀ n, olderIndex t n = olderIndex s n := fun n => by simp only [olderIndex, hcap]
  have hn : ∀ n, nextIndex t n = nextIndex s n := fun n => by simp only [nextIndex, hcap]
  obtain ⟨n, h1, h2, h3, rfl⟩ := (dlReadInterp_ok_iff _ _ _ _ _).1 hr
  refine (dlReadInterp_ok_iff _ _ _ _ _).2 ⟨n, by rw [hpos]; exact h1, by rw [ho, hcap]; exact h2,
    by rw [ho, hn, hcap]; exact h3, ?_⟩
  rw [hpos, ho, hn, h _ h2.2, h _ h3.2]

/-! ### SAMPLE -/

/-- The state after steps 4 and 5 of 43_sample_engine.md R200: the phase advanced, both words at the write head written. -/
def sampleWritten (l r : F32) (s : State) : State :=
  ((lfoAdvance (lfoInc s.rate s) s).setWord .left s.wh.toNat (addF l s.fbl)).setWord .right s.wh.toNat (addF r s.fbr)

@[simp] theorem sampleWritten_wh (l r : F32) (s : State) : (sampleWritten l r s).wh = s.wh := by simp [sampleWritten]
@[simp] theorem sampleWritten_capacity (l r : F32) (s : State) : (sampleWritten l r s).capacity = s.capacity := by
  simp [sampleWritten]

/-- Steps 4 and 5 complete exactly when the write head is a word in use. -/
theorem sampleWrites_ok_iff (p : Config.Params) (l r : F32) (s t : State) :
    sampleWrites p (snapshot s) l r s = .ok t ↔
      (s.wh.toNat < p.dlDepth ∧ s.wh.toNat < capacityNat s) ∧ t = sampleWritten l r s := by
  have hw : (lfoAdvance (lfoInc (snapshot s).rate s) s).wh = s.wh := by simp
  have hc : capacityNat (lfoAdvance (lfoInc (snapshot s).rate s) s) = capacityNat s := by simp [capacityNat]
  have hr : (snapshot s).rate = s.rate := rfl
  have h1 : ((lfoAdvance (lfoInc (snapshot s).rate s) s).setWord .left s.wh.toNat (writeValue .left l s)).wh = s.wh := by simp
  have h2 : capacityNat ((lfoAdvance (lfoInc (snapshot s).rate s) s).setWord .left s.wh.toNat (writeValue .left l s))
      = capacityNat s := by simp [capacityNat]
  have h3 : writeValue .right r
      ((lfoAdvance (lfoInc (snapshot s).rate s) s).setWord .left s.wh.toNat (writeValue .left l s)) = addF r s.fbr := by
    simp [writeValue, feedbackOf]
  have h4 : writeValue .left l s = addF l s.fbl := by simp [writeValue, feedbackOf]
  unfold sampleWrites dlWrite
  rw [hw, andThen_ok_iff]
  constructor
  · rintro ⟨v, hv, ht⟩
    obtain ⟨ha, hb, rfl⟩ := (memWrite_ok_iff ..).1 hv
    rw [h1, h3] at ht
    obtain ⟨-, -, rfl⟩ := (memWrite_ok_iff ..).1 ht
    rw [hc] at hb
    exact ⟨⟨ha, hb⟩, by rw [hr, h4, sampleWritten]⟩
  · rintro ⟨⟨ha, hb⟩, rfl⟩
    refine ⟨_, (memWrite_ok_iff ..).2 ⟨ha, by rw [hc]; exact hb, rfl⟩, ?_⟩
    rw [h1, h3]
    exact (memWrite_ok_iff ..).2 ⟨ha, by rw [h2]; exact hb, by rw [hr, h4, sampleWritten]⟩

/-- A prepared sample step completes exactly when the write head is a word in use and both reads answer (43_sample_engine.md R200). -/
theorem samplePrepared_ok_iff (p : Config.Params) (l r : F32) (s t : State) :
    samplePrepared p l r s = .ok t ↔ (s.wh.toNat < p.dlDepth ∧ s.wh.toNat < capacityNat s)
      ∧ ∃ yL yR, dlReadInterp p .left (channelDelay p (snapshot s) .left s) (sampleWritten l r s) = .ok yL
        ∧ dlReadInterp p .right (channelDelay p (snapshot s) .right s) (sampleWritten l r s) = .ok yR
        ∧ t = sampleFinish (snapshot s) l r yL yR (sampleWritten l r s) := by
  unfold samplePrepared sampleReads
  simp only [andThen_ok_iff, sampleWrites_ok_iff]
  constructor
  · rintro ⟨u, ⟨hin, rfl⟩, yL, hL, yR, hR, ht⟩
    exact ⟨hin, yL, yR, hL, hR, (Except.ok.inj ht).symm⟩
  · rintro ⟨hin, yL, yR, hL, hR, rfl⟩
    exact ⟨_, ⟨hin, rfl⟩, yL, hL, yR, hR, rfl⟩

/-- What a finished sample step leaves, as one record update of the written state. -/
theorem sampleFinish_eq (q : Snapshot) (l r yL yR : F32) (s : State) :
    sampleFinish q l r yL yR s = { s with
      fbl := mulF yL q.feedback, fbr := mulF yR q.feedback
      wh := BitVec.ofNat 32 (nextIndex s s.wh.toNat)
      spOut := s.spOut ++ [mix r yR q.dryWet ++ mix l yL q.dryWet] } := rfl

/-- Finishing a sample step changes no word. -/
theorem wordAt_sampleFinish (q : Snapshot) (l r yL yR : F32) (s : State) :
    wordAt (sampleFinish q l r yL yR s) = wordAt s := by
  rw [sampleFinish_eq]
  exact wordAt_congr rfl rfl rfl rfl

theorem memWf_sampleFinish (q : Snapshot) (l r yL yR : F32) (s : State) :
    memWf (sampleFinish q l r yL yR s) = memWf s := by
  rw [sampleFinish_eq]
  exact memWf_congr rfl rfl rfl rfl

/-- The words after the writes of a step. -/
theorem wordAt_sampleWritten {s : State} (h : memWf s = true) (l r : F32) (x : Channel) (i : Nat) :
    wordAt (sampleWritten l r s) x i
      = if i = s.wh.toNat then (match x with | .left => addF l s.fbl | .right => addF r s.fbr) else wordAt s x i := by
  have h0 : memWf (lfoAdvance (lfoInc s.rate s) s) = true := h
  have h1 := memWf_setWord h0 .left s.wh.toNat (addF l s.fbl)
  unfold sampleWritten
  rw [wordAt_setWord h1, wordAt_setWord h0]
  have hb : wordAt (lfoAdvance (lfoInc s.rate s) s) = wordAt s := wordAt_congr rfl rfl rfl rfl
  rw [hb]
  cases x <;> simp [eq_comm]

theorem memWf_sampleWritten {s : State} (h : memWf s = true) (l r : F32) : memWf (sampleWritten l r s) = true :=
  memWf_setWord (memWf_setWord (s := lfoAdvance (lfoInc s.rate s) s) h .left _ _) .right _ _

/-! ### PREPARE -/

/-- The capacity of the reference configuration, `ceil(SRATE / 20)` (44_control.md R241). -/
theorem prepareCapacity_params (sr : Nat) : prepareCapacity params sr = (sr + 19) / 20 := by
  simp [prepareCapacity, ceilDiv, params]

/-- PREPARE's test in the reference configuration comes down to the range of rates (44_control.md R241). -/
theorem prepareOk_params (sr : Nat) : prepareOk params sr = true ↔ 1000 ≤ sr ∧ sr ≤ 384000 := by
  have h1 : params.srMin = 1000 := rfl
  have h2 : params.srMax = 384000 := rfl
  have h3 : params.dlDepth = 32768 := rfl
  unfold prepareOk
  rw [prepareCapacity_params, h1, h2, h3]
  simp only [ceilDiv, Bool.and_eq_true, decide_eq_true_eq]
  constructor
  · rintro ⟨⟨⟨h5, h6⟩, -⟩, -⟩
    exact ⟨h5, h6⟩
  · rintro ⟨h5, h6⟩
    exact ⟨⟨⟨h5, h6⟩, by omega⟩, decide_eq_true (by omega)⟩

/-! ### Instructions -/

/-- The write of a clamped parameter, as an instruction. -/
def paramWrite : Param → Word → Instr
  | .dryWet => .wrDrywet
  | .depth => .wrDepth
  | .rate => .wrRate
  | .phaseOff => .wrPhaseoff
  | .feedback => .wrFeedback

/-- The instructions that change no state but the reply they return. -/
def Instr.isQuiet : Instr → Bool
  | .nop | .cmdNone | .rdId | .rdCtrl | .rdStatus | .rdSrate | .rdMaxblk | .rdSrAct | .rdCapacity | .rdDrywet | .rdDepth
  | .rdRate | .rdPhaseoff | .rdFeedback | .rdMode | .rdWhead | .rdPhase | .rdFbl | .rdFbr => true
  | _ => false

/-- Everything an instruction that completes can do. -/
theorem exec_cases {i : Instr} {s t : State} (h : exec i s = .next t) :
    (Instr.isQuiet i = true ∧ ∃ r, t = s.reply r)
    ∨ (∃ v, i = .wrSrate v ∧ t = State.reply .ack { s with srate := v })
    ∨ (∃ v, i = .wrMaxblk v ∧ t = State.reply .ack { s with maxblk := v })
    ∨ (∃ q v, i = paramWrite q v ∧ t = State.reply .ack (s.setParam q (clampParam q v)))
    ∨ (∃ v, i = .wrMode v ∧ t = State.reply .ack { s with mode := modeOf v })
    ∨ (i = .cmdPrepare ∧ t = State.reply .ack (prepare params s))
    ∨ (i = .cmdClear ∧ t = State.reply .ack (clear s))
    ∨ (i = .cmdDefaults ∧ t = State.reply .ack (restoreDefaults s))
    ∨ (i = .cmdErrclr ∧ t = State.reply .ack s.clearErrors)
    ∨ (∃ l r, i = .sample l r ∧ s.ready = false ∧ t = sampleBypass l r s)
    ∨ (∃ l r, i = .sample l r ∧ s.ready = true ∧ samplePrepared params l r s = .ok t) := by
  have inj : ∀ {u : State}, (Host.Outcome.next u : Host.Outcome State Fault Refusal) = .next t → t = u := by
    intro u hu; cases hu; rfl
  cases i with
  | wrSrate v => exact .inr (.inl ⟨v, rfl, inj h⟩)
  | wrMaxblk v => exact .inr (.inr (.inl ⟨v, rfl, inj h⟩))
  | wrDrywet v => exact .inr (.inr (.inr (.inl ⟨.dryWet, v, rfl, inj h⟩)))
  | wrDepth v => exact .inr (.inr (.inr (.inl ⟨.depth, v, rfl, inj h⟩)))
  | wrRate v => exact .inr (.inr (.inr (.inl ⟨.rate, v, rfl, inj h⟩)))
  | wrPhaseoff v => exact .inr (.inr (.inr (.inl ⟨.phaseOff, v, rfl, inj h⟩)))
  | wrFeedback v => exact .inr (.inr (.inr (.inl ⟨.feedback, v, rfl, inj h⟩)))
  | wrMode v => exact .inr (.inr (.inr (.inr (.inl ⟨v, rfl, inj h⟩))))
  | cmdPrepare => exact .inr (.inr (.inr (.inr (.inr (.inl ⟨rfl, inj h⟩)))))
  | cmdClear => exact .inr (.inr (.inr (.inr (.inr (.inr (.inl ⟨rfl, inj h⟩))))))
  | cmdDefaults => exact .inr (.inr (.inr (.inr (.inr (.inr (.inr (.inl ⟨rfl, inj h⟩)))))))
  | cmdErrclr => exact .inr (.inr (.inr (.inr (.inr (.inr (.inr (.inr (.inl ⟨rfl, inj h⟩))))))))
  | sample l r =>
    cases hr : s.ready with
    | false =>
      have : exec (.sample l r) s = .next (sampleBypass l r s) := by simp [exec, execSample, sampleStep, hr]
      exact .inr (.inr (.inr (.inr (.inr (.inr (.inr (.inr (.inr (.inl ⟨l, r, rfl, rfl, inj (this ▸ h)⟩)))))))))
    | true =>
      have he : exec (.sample l r) s = outcomeOf (samplePrepared params l r s) := by
        simp [exec, execSample, sampleStep, hr]
      rw [he] at h
      cases hs : samplePrepared params l r s with
      | error e => rw [hs] at h; cases h
      | ok u =>
        rw [hs] at h
        exact .inr (.inr (.inr (.inr (.inr (.inr (.inr (.inr (.inr (.inr ⟨l, r, rfl, rfl, hs.trans (by rw [inj h])⟩)))))))))
  | _ => exact .inl ⟨rfl, _, inj h⟩

/-! ### Steps -/

theorem take_eq {s : State} {t : Transaction} {rest : List Transaction} (h : s.pending = t :: rest) :
    s.take = { s with pending := rest } := by simp [State.take, h]

/-- A step on a pending transaction is what the transaction asks for, in the state without it. -/
theorem step_eq {s : State} {t : Transaction} {rest : List Transaction} (h : s.pending = t :: rest) :
    step s = match fetchedOf t with
      | .idle => .next s
      | .reset => .next (hardwareReset { s with pending := rest })
      | .illegal w _ => .next (performIllegal w { s with pending := rest })
      | .instr i => exec i { s with pending := rest } := by
  rw [← take_eq h]
  unfold step fetch
  rw [h]
  rfl

theorem step_idle {s : State} (h : s.pending = []) : step s = .next s := by
  unfold step fetch
  rw [h]
  rfl

/-- Everything a step that completes can do. -/
theorem step_cases {s t : State} (h : step s = .next t) :
    (s.pending = [] ∧ t = s)
    ∨ ∃ tr rest, s.pending = tr :: rest
      ∧ ((tr = .rst ∧ t = hardwareReset { s with pending := rest })
        ∨ (∃ w k, tr = .cp w ∧ decodeCp w = .error k ∧ t = performIllegal w { s with pending := rest })
        ∨ ∃ i, decodeTransaction tr = some (.ok i) ∧ exec i { s with pending := rest } = .next t) := by
  cases hp : s.pending with
  | nil => rw [step_idle hp] at h; cases h; exact .inl ⟨rfl, rfl⟩
  | cons tr rest =>
    rw [step_eq hp] at h
    refine .inr ⟨tr, rest, rfl, ?_⟩
    cases tr with
    | rst => cases h; exact .inl ⟨rfl, rfl⟩
    | sp b => exact .inr (.inr ⟨decodeSp b, rfl, h⟩)
    | cp w =>
      cases hd : decodeCp w with
      | error k =>
        simp only [fetchedOf, fetchedCp, hd] at h; cases h
        exact .inr (.inl ⟨w, k, rfl, hd, rfl⟩)
      | ok i =>
        simp only [fetchedOf, fetchedCp, hd] at h
        exact .inr (.inr ⟨i, by rw [decodeTransaction, hd], h⟩)

end Sys2Proof.Machine
end

