-- ==== Sys2Proof/Laws/DelayLine.lean ====
section
/-! SUPPORT. Where an interpolated read completes (41_delay_line.md R152, R154). -/

namespace Sys2Proof.Machine

/-- `1.0` is one unit. -/
theorem valF_oneF : valF oneF = unitF := by decide +kernel

theorem valF_posZero : valF posZero = 0 := by decide +kernel

/-- With the write head at `w < c` words and a delay from 0 to `c` words, the read position is a finite number from 0 to `c`
(41_delay_line.md R152; 90_conflicts.md C5: `c` itself can be reached). -/
theorem readPosition_bounds {s : State} {d : F32} (hw : s.wh.toNat < capacityNat s) (hc : capacityNat s < 2 ^ 24)
    (hd : isFiniteF d = true) (h0 : 0 ≤ valF d) (h1 : valF d ≤ (capacityNat s : Int) * unitF) :
    isFiniteF (readPosition d s) = true ∧ 0 ≤ valF (readPosition d s)
      ∧ valF (readPosition d s) ≤ (capacityNat s : Int) * unitF := by
  obtain ⟨w1, -, w3⟩ := toF32_exact (n := s.wh.toNat) (by omega)
  obtain ⟨c1, c2, c3⟩ := toF32_exact hc
  have hwc : (s.wh.toNat : Int) * unitF ≤ capacityNat s * unitF := by
    exact_mod_cast Nat.mul_le_mul_right unitF hw.le
  have hwp : (0 : Int) ≤ s.wh.toNat * unitF := by positivity
  have zf : isFiniteF posZero = true := by decide
  have hn : isFiniteF (negF (toF32 (capacityNat s))) = true := by rw [isFiniteF_negF]; exact c1
  unfold readPosition capacityF
  rw [← w3] at hwc hwp
  rw [← c3] at h1 hwc ⊢
  clear w3 c3
  generalize toF32 s.wh.toNat = w at *
  generalize toF32 (capacityNat s) = c at *
  have hs := subF_between w1 hd hn c1 (by rw [valF_negF]; omega) (by omega)
  rw [valF_negF] at hs
  split
  · next hlt =>
    rw [ltF_iff hs.1 zf, valF_posZero] at hlt
    have ha := addF_between hs.1 c1 zf c1 (by rw [valF_posZero]; omega) (by omega)
    rw [valF_posZero] at ha
    exact ha
  · next hlt =>
    rw [Bool.not_eq_true, ← Bool.not_eq_true, ltF_iff hs.1 zf, valF_posZero] at hlt
    exact ⟨hs.1, by omega, hs.2.2⟩

/-- An interpolated read completes whenever the write head is a word in use and the delay is from 0 to `C` (41_delay_line.md R152, R154). -/
theorem dlReadInterp_completes {p : Config.Params} {s : State} {d : F32} (x : Channel) (hw : s.wh.toNat < capacityNat s)
    (hc : capacityNat s ≤ p.dlDepth) (hp : p.dlDepth < 2 ^ 24)
    (hd : isFiniteF d = true) (h0 : 0 ≤ valF d) (h1 : valF d ≤ (capacityNat s : Int) * unitF) :
    ∃ y, dlReadInterp p x d s = .ok y := by
  obtain ⟨hr, hr0, hr1⟩ := readPosition_bounds hw (by omega) hd h0 h1
  have hn := floor_le hr0 hr1
  have ho : olderIndex s (magF (readPosition d s) / unitF) < capacityNat s := by
    unfold olderIndex
    split <;> omega
  have hx : nextIndex s (olderIndex s (magF (readPosition d s) / unitF)) < capacityNat s := Nat.mod_lt _ (by omega)
  exact ⟨_, (dlReadInterp_ok_iff ..).2 ⟨_, floorF_of_nonneg hr hr0, ⟨by omega, ho⟩, ⟨by omega, hx⟩, rfl⟩⟩

end Sys2Proof.Machine
end

