-- ==== Sys2Proof/Laws/Encoding.lean ====
section
/-! SUPPORT. The fields of an encoded command word and the lanes of an encoded beat (30_encoding.md R90, R92). -/

namespace Sys2Proof

@[simp] theorem opc_cpWordOf (o a : BitVec 8) (d : Word) : CpWord.opc (cpWordOf o a d) = o := by
  unfold CpWord.opc cpWordOf
  ext i hi
  simp only [BitVec.getElem_extractLsb', BitVec.getLsbD_append]
  grind

@[simp] theorem rsv_cpWordOf (o a : BitVec 8) (d : Word) : CpWord.rsv (cpWordOf o a d) = 0 := by
  unfold CpWord.rsv cpWordOf
  ext i hi
  simp only [BitVec.getElem_extractLsb', BitVec.getLsbD_append]
  grind

@[simp] theorem addr_cpWordOf (o a : BitVec 8) (d : Word) : CpWord.addr (cpWordOf o a d) = a := by
  unfold CpWord.addr cpWordOf
  ext i hi
  simp only [BitVec.getElem_extractLsb', BitVec.getLsbD_append]
  grind

@[simp] theorem data_cpWordOf (o a : BitVec 8) (d : Word) : CpWord.data (cpWordOf o a d) = d := by
  unfold CpWord.data cpWordOf
  ext i hi
  simp only [BitVec.getElem_extractLsb', BitVec.getLsbD_append]
  grind

@[simp] theorem lowLane_beatOf (l r : F32) : (beatOf l r).extractLsb' 0 32 = l := by
  unfold beatOf
  ext i hi
  simp only [BitVec.getElem_extractLsb', BitVec.getLsbD_append]
  grind

@[simp] theorem highLane_beatOf (l r : F32) : (beatOf l r).extractLsb' 32 32 = r := by
  unfold beatOf
  ext i hi
  simp only [BitVec.getElem_extractLsb', BitVec.getLsbD_append]
  grind

/-- Every register is found at its address, and no address names two (30_encoding.md R96). -/
@[simp] theorem regAt_regAddr (r : Machine.Reg) : Machine.regAt (Machine.regAddr r) = some r := by
  cases r <;> decide

end Sys2Proof
end

