-- ==== Sys2Proof/Laws/PerInstr.lean ====
section
/-! SUPPORT. Per instruction: its encoding is a legal word on its own port (30_encoding.md R90, R92, R97, R99). -/

namespace Sys2Proof.Laws.EncodesLegal

/-- The instruction is well-formed; if it goes out on the control port its word is of none of the eight illegal kinds, and if on the
sample port it is a SAMPLE; no instruction is a reset. -/
def Statement (i : Instr) : Prop :=
  Instr.wf i = true ∧ match encode i with
    | .cp w => CpWord.wf w = true
    | .sp _ => ∃ l r, i = .sample l r
    | .rst => False

/-- A write to a register that takes any DATA is legal (30_encoding.md R98). -/
theorem wf_writeWord {r : Machine.Reg} (h : Machine.regAccess r = .rw ∨ Machine.regAccess r = .warl) (v : Word) :
    CpWord.wf (writeWord r v) = true := by
  have ha : (Machine.regAddr r).extractLsb' 0 2 = 0 := by cases r <;> decide
  have hc : r ≠ .ctrl := by rintro rfl; revert h; decide
  have hro : Machine.regAccess r ≠ .ro := by rcases h with h | h <;> rw [h] <;> decide
  simp [CpWord.wf, writeWord, CpWord.badNop, CpWord.badOpc, CpWord.badRsv, CpWord.misaligned, CpWord.reservedAddr,
    CpWord.readWithData, CpWord.writeToReadOnly, CpWord.badCommand, ha, hc, hro]

theorem nop : Statement .nop := ⟨rfl, rfl⟩

theorem rdId : Statement .rdId := ⟨rfl, rfl⟩

theorem rdCtrl : Statement .rdCtrl := ⟨rfl, rfl⟩

theorem rdStatus : Statement .rdStatus := ⟨rfl, rfl⟩

theorem rdSrate : Statement .rdSrate := ⟨rfl, rfl⟩

theorem rdMaxblk : Statement .rdMaxblk := ⟨rfl, rfl⟩

theorem rdSrAct : Statement .rdSrAct := ⟨rfl, rfl⟩

theorem rdCapacity : Statement .rdCapacity := ⟨rfl, rfl⟩

theorem rdDrywet : Statement .rdDrywet := ⟨rfl, rfl⟩

theorem rdDepth : Statement .rdDepth := ⟨rfl, rfl⟩

theorem rdRate : Statement .rdRate := ⟨rfl, rfl⟩

theorem rdPhaseoff : Statement .rdPhaseoff := ⟨rfl, rfl⟩

theorem rdFeedback : Statement .rdFeedback := ⟨rfl, rfl⟩

theorem rdMode : Statement .rdMode := ⟨rfl, rfl⟩

theorem rdWhead : Statement .rdWhead := ⟨rfl, rfl⟩

theorem rdPhase : Statement .rdPhase := ⟨rfl, rfl⟩

theorem rdFbl : Statement .rdFbl := ⟨rfl, rfl⟩

theorem rdFbr : Statement .rdFbr := ⟨rfl, rfl⟩

theorem cmdNone : Statement .cmdNone := ⟨rfl, rfl⟩

theorem cmdPrepare : Statement .cmdPrepare := ⟨rfl, rfl⟩

theorem cmdClear : Statement .cmdClear := ⟨rfl, rfl⟩

theorem cmdDefaults : Statement .cmdDefaults := ⟨rfl, rfl⟩

theorem cmdErrclr : Statement .cmdErrclr := ⟨rfl, rfl⟩

theorem wrSrate (data : Word) : Statement (.wrSrate data) := ⟨rfl, wf_writeWord (by decide) data⟩

theorem wrMaxblk (data : Word) : Statement (.wrMaxblk data) := ⟨rfl, wf_writeWord (by decide) data⟩

theorem wrDrywet (data : Word) : Statement (.wrDrywet data) := ⟨rfl, wf_writeWord (by decide) data⟩

theorem wrDepth (data : Word) : Statement (.wrDepth data) := ⟨rfl, wf_writeWord (by decide) data⟩

theorem wrRate (data : Word) : Statement (.wrRate data) := ⟨rfl, wf_writeWord (by decide) data⟩

theorem wrPhaseoff (data : Word) : Statement (.wrPhaseoff data) := ⟨rfl, wf_writeWord (by decide) data⟩

theorem wrFeedback (data : Word) : Statement (.wrFeedback data) := ⟨rfl, wf_writeWord (by decide) data⟩

theorem wrMode (data : Word) : Statement (.wrMode data) := ⟨rfl, wf_writeWord (by decide) data⟩

theorem sample (inL inR : F32) : Statement (.sample inL inR) := ⟨rfl, inL, inR, rfl⟩

end Sys2Proof.Laws.EncodesLegal
end

