-- ==== Sys2Proof/Laws/Rounding.lean ====
section
/-! SUPPORT. What rounding does, in the terms of the claims: nearest, ties to even, with its overflow threshold (40_numerics.md R121). -/

namespace Sys2Proof.Machine

/-- The last bit of a rounded pattern is that of its significand. -/
theorem roundPat_mod_two (num den : Nat) : roundPat num den % 2 = roundEven num (den * 2 ^ ulpExp num den) % 2 := by
  unfold roundPat; omega

/-- Where another multiple of the weight is as close as the rounded one, the rounded one is even. -/
theorem roundEven_tie {num w : Nat} (hw : 0 < w) {c : Nat}
    (h : |((roundEven num w * w : Nat) : Int) - num| = |((c * w : Nat) : Int) - num|) : c = roundEven num w ∨ roundEven num w % 2 = 0 := by
  obtain ⟨s1, s2, s3⟩ := roundEven_spec num w hw
  generalize roundEven num w = r at *
  by_cases ht : 2 * (r * w) = 2 * num + w ∨ 2 * num = 2 * (r * w) + w
  · exact .inr (s3 ht)
  refine .inl ?_
  rw [not_or] at ht
  rcases Nat.lt_trichotomy c r with hc | hc | hc
  · have : (c + 1) * w ≤ r * w := Nat.mul_le_mul_right w hc
    rw [Nat.add_mul, Nat.one_mul] at this
    rcases abs_cases (((r * w : Nat) : Int) - num) with ⟨e, -⟩ | ⟨e, -⟩ <;>
      rcases abs_cases (((c * w : Nat) : Int) - num) with ⟨e', -⟩ | ⟨e', -⟩ <;> rw [e, e'] at h <;> omega
  · exact hc
  · have : (r + 1) * w ≤ c * w := Nat.mul_le_mul_right w hc
    rw [Nat.add_mul, Nat.one_mul] at this
    rcases abs_cases (((r * w : Nat) : Int) - num) with ⟨e, -⟩ | ⟨e, -⟩ <;>
      rcases abs_cases (((c * w : Nat) : Int) - num) with ⟨e', -⟩ | ⟨e', -⟩ <;> rw [e, e'] at h <;> omega

/-- Where another pattern's magnitude is as close as the rounded one, it is the same or the rounded pattern is even. -/
theorem roundPat_tie {num den : Nat} (hd : 0 < den) {m : Nat}
    (h : |(magOfPat (roundPat num den) * den : Int) - num| = |(magOfPat m * den : Int) - num|) :
    m = roundPat num den ∨ roundPat num den % 2 = 0 := by
  rw [roundPat_mod_two]
  rw [← magOfPat_inj]
  rw [magOfPat_roundPat num den hd] at h ⊢
  obtain ⟨k, hk⟩ : ∃ k, k = ulpExp num den := ⟨_, rfl⟩
  obtain ⟨w, hw⟩ : ∃ w, w = den * 2 ^ k := ⟨_, rfl⟩
  rw [← hk, ← hw] at h ⊢
  have hwpos : 0 < w := hw ▸ Nat.mul_pos hd (Nat.two_pow_pos _)
  have e1 : ((roundEven num w * 2 ^ k : Nat) : Int) * den = ((roundEven num w * w : Nat) : Int) := by rw [hw]; push_cast; ring
  rw [e1] at h
  obtain ⟨j, q, -, hq, hj, hm⟩ := magOfPat_split m
  by_cases hjk : k ≤ j
  · have e2 : (magOfPat m * den : Int) = ((q * 2 ^ (j - k) * w : Nat) : Int) := by
      rw [hm, hw]; push_cast
      rw [show (2 : Int) ^ j = 2 ^ (j - k) * 2 ^ k by rw [← pow_add]; congr 1; omega]; ring
    rw [e2] at h
    refine (roundEven_tie hwpos h).imp_left fun hc => ?_
    rw [hm, ← hc, Nat.mul_assoc, ← pow_add]; congr 2; omega
  · have hlow : 2 ^ 23 * w ≤ num := by rw [hw, hk]; exact le_of_ulpExp (by omega)
    have hmle : magOfPat m ≤ 2 ^ 23 * 2 ^ k := by
      have h1 : q * 2 ^ j ≤ 2 ^ 24 * 2 ^ (k - 1) := Nat.mul_le_mul hq.le (Nat.pow_le_pow_right (by norm_num) (by omega))
      have h2 : 2 ^ 24 * 2 ^ (k - 1) = 2 ^ 23 * 2 ^ k := by
        rw [← pow_add, ← pow_add]; congr 1; omega
      omega
    have hmw : magOfPat m * den ≤ 2 ^ 23 * w := by
      calc magOfPat m * den ≤ 2 ^ 23 * 2 ^ k * den := Nat.mul_le_mul_right _ hmle
        _ = 2 ^ 23 * w := by rw [hw]; ring
    have hc : ((magOfPat m * den : Nat) : Int) = (magOfPat m * den : Int) := by push_cast; rfl
    have hr : 2 ^ 23 ≤ roundEven num w := le_roundEven_of_le hwpos hlow
    obtain ⟨s1, s2, -⟩ := roundEven_spec num w hwpos
    have hrw : 2 ^ 23 * w ≤ roundEven num w * w := Nat.mul_le_mul_right _ hr
    rw [← hc] at h
    have h24 : |((2 ^ 23 * w : Nat) : Int) - num| = num - (2 ^ 23 * w : Nat) := by
      rw [abs_sub_comm, abs_of_nonneg (by omega)]
    have hmabs : |((magOfPat m * den : Nat) : Int) - num| = num - (magOfPat m * den : Nat) := by
      rw [abs_sub_comm, abs_of_nonneg (by omega)]
    rw [hmabs] at h
    by_cases heq : roundEven num w = 2 ^ 23
    · rw [heq, h24] at h
      refine .inl (Nat.eq_of_mul_eq_mul_right hd ?_)
      rw [heq]
      have : magOfPat m * den = 2 ^ 23 * w := by omega
      rw [this, hw]; ring
    · have hr1 : (2 ^ 23 + 1) * w ≤ roundEven num w * w := Nat.mul_le_mul_right _ (by omega)
      rw [Nat.add_mul, Nat.one_mul] at hr1
      have h0 := h
      rcases abs_cases (((roundEven num w * w : Nat) : Int) - num) with ⟨e, -⟩ | ⟨e, -⟩ <;> rw [e] at h
      · -- the exact value is below the rounded one: half way, from 2^23 or above
        have : |((roundEven num w * w : Nat) : Int) - num| = |((2 ^ 23 * w : Nat) : Int) - num| := by rw [h24, e]; omega
        rcases roundEven_tie hwpos this with hx | hx
        · omega
        · exact .inr hx
      · omega

theorem infPat_split : infPat = 253 * 2 ^ 23 + 2 ^ 24 := rfl

/-- The magnitude of the largest finite number, and of what would be next. -/
theorem magOfPat_infPat : magOfPat infPat = 2 ^ 24 * 2 ^ 253 := by
  rw [infPat_split]; exact magOfPat_parts 253 (2 ^ 24) (by norm_num) (.inr (by norm_num))

theorem magOfPat_largest : magOfPat (infPat - 1) = (2 ^ 24 - 1) * 2 ^ 253 := by
  rw [show infPat - 1 = 253 * 2 ^ 23 + (2 ^ 24 - 1) from rfl]; exact magOfPat_parts 253 (2 ^ 24 - 1) (by norm_num) (.inr (by norm_num))

theorem overflowUnits_half : 2 * overflowUnits = magOfPat (infPat - 1) + magOfPat infPat := by
  rw [magOfPat_infPat, magOfPat_largest]; unfold overflowUnits; norm_num

/-- A magnitude rounds beyond the largest finite value from half a last place above it on. -/
theorem infPat_le_roundPat {num den : Nat} (hd : 0 < den) : infPat ≤ roundPat num den ↔ overflowUnits * den ≤ num := by
  have ho := overflowUnits_half
  have hlt : magOfPat (infPat - 1) < magOfPat infPat := magOfPat_lt_iff.2 (by decide)
  have h1 : 2 * (overflowUnits * den) = magOfPat (infPat - 1) * den + magOfPat infPat * den := by rw [← Nat.mul_assoc, ho, Nat.add_mul]
  have n1 := roundPat_nearest num den hd infPat
  have n2 := roundPat_nearest num den hd (infPat - 1)
  have hL : magOfPat (infPat - 1) * den < magOfPat infPat * den := Nat.mul_lt_mul_of_pos_right hlt hd
  rcases Nat.lt_or_ge (roundPat num den) infPat with hc | hc
  · refine ⟨fun h => absurd h (by omega), fun h => ?_⟩
    exfalso
    have hle : magOfPat (roundPat num den) * den ≤ magOfPat (infPat - 1) * den := Nat.mul_le_mul_right _ (magOfPat_le_iff.2 (by omega))
    have e : ∀ n : Nat, (magOfPat n * den : Int) = ((magOfPat n * den : Nat) : Int) := fun n => by push_cast; rfl
    have hrp : roundPat num den = infPat - 1 ∧ num = overflowUnits * den := by
      rw [e, e] at n1
      have hx : |((magOfPat (roundPat num den) * den : Nat) : Int) - num| = num - (magOfPat (roundPat num den) * den : Nat) := by
        rw [abs_sub_comm, abs_of_nonneg (by omega)]
      rw [hx] at n1
      have hb : magOfPat (infPat - 1) * den ≤ magOfPat (roundPat num den) * den ∧ num = overflowUnits * den := by
        rcases abs_cases (((magOfPat infPat * den : Nat) : Int) - num) with ⟨q, -⟩ | ⟨q, -⟩ <;> rw [q] at n1 <;> omega
      refine ⟨magOfPat_inj.1 (Nat.eq_of_mul_eq_mul_right hd (by omega)), hb.2⟩
    have ht := roundPat_tie (num := num) hd (m := infPat) (by
      rw [hrp.1, e, e, abs_sub_comm, abs_of_nonneg (by omega), abs_of_nonneg (by omega)]; omega)
    rw [hrp.1] at ht
    rcases ht with ht | ht <;> exact absurd ht (by decide)
  · refine ⟨fun _ => ?_, fun _ => hc⟩
    have hle : magOfPat infPat * den ≤ magOfPat (roundPat num den) * den := Nat.mul_le_mul_right _ (magOfPat_le_iff.2 hc)
    have e : ∀ n : Nat, (magOfPat n * den : Int) = ((magOfPat n * den : Nat) : Int) := fun n => by push_cast; rfl
    rw [e, e] at n2
    by_contra hlt'
    rw [abs_of_nonneg (by omega)] at n2
    rcases abs_cases (((magOfPat (infPat - 1) * den : Nat) : Int) - num) with ⟨q, -⟩ | ⟨q, -⟩ <;> rw [q] at n2 <;> omega

/-- Everything `roundF` can do: it rounds correctly (40_numerics.md R121). -/
theorem roundF_roundsTo (neg : Bool) (num den : Nat) (hd : 0 < den) : RoundsTo (signedInt neg num) den (roundF neg num den) := by
  have hn : (signedInt neg num).natAbs = num := by unfold signedInt; split <;> simp
  refine ⟨isNaNF_roundF .., fun h => ?_, fun h => ?_, fun h => ?_, fun h => ?_⟩
  · rw [hn] at h
    have hp : roundPat num den < infPat := by
      by_contra hc
      have := (infPat_le_roundPat hd).1 (by omega : infPat ≤ roundPat num den)
      omega
    have hfin : absPat (roundF neg num den) = roundPat num den := by rw [absPat_roundF]; omega
    refine ⟨by rw [isFiniteF_iff, hfin]; exact hp, fun f hf => ?_⟩
    -- the distance does not depend on the sign, and a number of the other sign is no closer than zero
    have hv : |valF (roundF neg num den) * den - signedInt neg num| = |(magOfPat (roundPat num den) * den : Int) - num| := by
      rw [valF_eq, signF_roundF, hfin]
      cases neg
      · simp [signedInt]
      · simp only [signedInt, if_true]; rw [← abs_neg]; congr 1; ring
    rw [hv]
    by_cases hs : signF f = neg
    · have hvf : |valF f * den - signedInt neg num| = |(magOfPat (absPat f) * den : Int) - num| := by
        rw [valF_eq, hs]
        cases neg
        · simp [signedInt]
        · simp only [signedInt, if_true]; rw [← abs_neg]; congr 1; ring
      rw [hvf]
      refine ⟨roundPat_nearest num den hd _, fun ht => ?_⟩
      rcases roundPat_tie hd ht with hm | hm
      · left
        rw [valF_eq, valF_eq, signF_roundF, hfin, hs, hm]
      · right
        rw [toNat_eq, hfin]; split <;> omega
    · have h0 := roundPat_nearest num den hd 0
      have hz : |(magOfPat 0 * den : Int) - num| = num := by simp
      have hvf : |valF f * den - signedInt neg num| = magOfPat (absPat f) * den + num := by
        have hp0 : (0 : Int) ≤ magOfPat (absPat f) * den := by positivity
        rw [valF_eq]
        cases neg
        · have hs' : signF f = true := by simpa using hs
          simp only [hs', signedInt, if_true, Bool.false_eq_true, if_false]
          rw [← abs_neg, abs_of_nonneg] <;> [ring; skip]
          rw [Int.neg_mul]; omega
        · have hs' : signF f = false := by simpa using hs
          simp only [hs', signedInt, if_true, Bool.false_eq_true, if_false]
          rw [abs_of_nonneg] <;> [ring; omega]
      rw [hvf]
      have hp0 : (0 : Int) ≤ magOfPat (absPat f) * den := by positivity
      refine ⟨by omega, fun ht => ?_⟩
      have hf0 : (magOfPat (absPat f) : Int) * den = 0 := by omega
      have hf1 : magOfPat (absPat f) = 0 := by
        rcases Int.mul_eq_zero.1 hf0 with h | h
        · exact_mod_cast h
        · omega
      have ht' : |(magOfPat (roundPat num den) * den : Int) - num| = |(magOfPat 0 * den : Int) - num| := by rw [hz]; omega
      rcases roundPat_tie hd ht' with hm | hm
      · left; rw [valF_eq, valF_eq, hfin, hf1, ← hm]; simp
      · right; rw [toNat_eq, hfin]; split <;> omega
  · rw [hn] at h
    have := (infPat_le_roundPat hd).2 h
    simp only [isInfF, absPat_roundF, decide_eq_true_eq]; omega
  · rw [signF_roundF]; revert h; unfold signedInt; cases neg <;> simp
  · rw [signF_roundF]; revert h; unfold signedInt; cases neg <;> simp

end Sys2Proof.Machine
end

