-- ==== Sys2Proof/Laws/Sine.lean ====
section
/-! SUPPORT. The fixed-point sine of Machine/Sine.lean beside Mathlib's: the enclosure of `2π` by Machin's formula, the truncation of the
Taylor series, and the rounding of its terms (40_numerics.md R131 property 3; log 9). -/

namespace Sys2Proof.Machine

open Real

/-! ### The constant -/

/-- The partial sums of the arctangent series alternate around the arctangent. -/
theorem arctan_partial_sum (x : ℝ) (h0 : 0 ≤ x) (h1 : x < 1) (n : ℕ) :
    |arctan x - ∑ i ∈ Finset.range n, (-1) ^ i * (x ^ (2 * i + 1) / (2 * i + 1 : ℕ))| ≤ x ^ (2 * n + 1) / (2 * n + 1 : ℕ) := by
  have h := hasSum_arctan (x := x) (by rw [norm_eq_abs, abs_of_nonneg h0]; exact h1)
  have hs : Summable fun i : ℕ => x ^ (2 * i + 1) / ((2 * i + 1 : ℕ) : ℝ) := by
    refine Summable.of_nonneg_of_le (fun i => by positivity) (fun i => ?_) (summable_geometric_of_lt_one h0 h1)
    rw [div_le_iff₀ (by positivity)]
    calc x ^ (2 * i + 1) ≤ x ^ i := pow_le_pow_of_le_one h0 h1.le (by omega)
      _ ≤ x ^ i * (2 * i + 1 : ℕ) := le_mul_of_one_le_right (by positivity) (by exact_mod_cast (by omega : 1 ≤ 2 * i + 1))
  have ha : Antitone fun i : ℕ => x ^ (2 * i + 1) / ((2 * i + 1 : ℕ) : ℝ) := by
    refine antitone_nat_of_succ_le fun i => ?_
    have hp : x ^ (2 * (i + 1) + 1) ≤ x ^ (2 * i + 1) := pow_le_pow_of_le_one h0 h1.le (by omega)
    have hc : ((2 * i + 1 : ℕ) : ℝ) ≤ ((2 * (i + 1) + 1 : ℕ) : ℝ) := by exact_mod_cast (by omega : 2 * i + 1 ≤ 2 * (i + 1) + 1)
    exact div_le_div₀ (by positivity) hp (by positivity) hc
  have := alternating_series_error_bound _ ha hs n
  simp only [mul_div_assoc] at h
  rwa [h.tsum_eq] at this

set_option maxRecDepth 10000 in
/-- `twoPiFixed` is `2π · 2^250` cut to an integer (Machin's formula). -/
theorem twoPiFixed_bounds : (twoPiFixed : ℝ) ≤ 2 ^ 250 * (2 * π) ∧ 2 ^ 250 * (2 * π) ≤ twoPiFixed + 1 := by
  have h5 := arctan_partial_sum 5⁻¹ (by norm_num) (by norm_num) 56
  have h239 := arctan_partial_sum 239⁻¹ (by norm_num) (by norm_num) 17
  have hm := four_mul_arctan_inv_5_sub_arctan_inv_239
  unfold twoPiFixed
  generalize arctan 5⁻¹ = a at *
  generalize arctan 239⁻¹ = b at *
  simp only [Finset.sum_range_succ, Finset.sum_range_zero] at h5 h239
  norm_num1 at h5 h239
  rw [abs_le] at h5 h239
  rw [show π = 16 * a - 4 * b by linarith]
  push_cast
  constructor <;> linarith

/-! ### The series -/

/-- The partial sums of the sine series alternate around the sine. -/
theorem sin_partial_sum (x : ℝ) (h0 : 0 ≤ x) (h2 : x ≤ 2) (n : ℕ) :
    |sin x - ∑ i ∈ Finset.range n, (-1) ^ i * (x ^ (2 * i + 1) / (2 * i + 1).factorial)|
      ≤ x ^ (2 * n + 1) / (2 * n + 1).factorial := by
  have h := hasSum_sin x
  have hs : Summable fun i : ℕ => x ^ (2 * i + 1) / ((2 * i + 1).factorial : ℝ) :=
    (summable_pow_div_factorial x).comp_injective (i := fun i : ℕ => 2 * i + 1) fun a b h => by simpa using h
  have ha : Antitone fun i : ℕ => x ^ (2 * i + 1) / ((2 * i + 1).factorial : ℝ) := by
    refine antitone_nat_of_succ_le fun i => ?_
    rw [show 2 * (i + 1) + 1 = 2 * i + 1 + 1 + 1 by ring, Nat.factorial_succ, Nat.factorial_succ, pow_succ, pow_succ,
      div_le_div_iff₀ (by positivity) (by positivity)]
    have hxx : x * x ≤ ((2 * i + 1 + 1 + 1 : ℕ) : ℝ) * ((2 * i + 1 + 1 : ℕ) : ℝ) := by
      have : (4 : ℝ) ≤ ((2 * i + 1 + 1 + 1 : ℕ) : ℝ) * ((2 * i + 1 + 1 : ℕ) : ℝ) := by
        exact_mod_cast (by nlinarith : 4 ≤ (2 * i + 1 + 1 + 1) * (2 * i + 1 + 1))
      nlinarith
    push_cast at hxx ⊢
    have := mul_le_mul_of_nonneg_left hxx (by positivity : 0 ≤ x ^ (2 * i + 1) * ((2 * i + 1).factorial : ℝ))
    linarith
  have := alternating_series_error_bound _ ha hs n
  simp only [mul_div_assoc] at h
  rwa [h.tsum_eq] at this

/-- One term of the fixed-point series from the one before: a term low by at most 5 gives a term low by at most 5. -/
theorem sineTerm_step {a T q : ℕ} {r : ℝ} (ha : a ≤ 2 * 2 ^ 250) (hT : T ≤ 2 * 2 ^ 250) (hq : 6 ≤ q) (h0 : 0 ≤ r - T) (h5 : r - T ≤ 5) :
    T * (a * a / 2 ^ 250) / 2 ^ 250 / q ≤ 2 * 2 ^ 250
      ∧ 0 ≤ r * (a / 2 ^ 250) ^ 2 / q - (T * (a * a / 2 ^ 250) / 2 ^ 250 / q : ℕ)
      ∧ r * (a / 2 ^ 250) ^ 2 / q - (T * (a * a / 2 ^ 250) / 2 ^ 250 / q : ℕ) ≤ 5 := by
  obtain ⟨D, hD⟩ : ∃ D : ℕ, D = 2 ^ 250 := ⟨_, rfl⟩
  have hDp : 0 < D := by rw [hD]; positivity
  have hDr : (2 : ℝ) ^ 250 = D := by rw [hD]; norm_num
  rw [hDr]
  rw [← hD] at ha hT ⊢
  have hDpr : (0 : ℝ) < D := by exact_mod_cast hDp
  have hqr : (6 : ℝ) ≤ q := by exact_mod_cast hq
  obtain ⟨x, hx⟩ : ∃ x, x = a * a / D := ⟨_, rfl⟩
  obtain ⟨y, hy⟩ : ∃ y, y = T * x / D := ⟨_, rfl⟩
  obtain ⟨z, hz⟩ : ∃ z, z = y / q := ⟨_, rfl⟩
  rw [← hx, ← hy, ← hz]
  have x1 : x * D ≤ a * a := hx ▸ Nat.div_mul_le_self _ _
  have x2 : a * a < (x + 1) * D := by rw [hx, Nat.add_mul, Nat.one_mul]; exact Nat.lt_div_mul_add hDp
  have y1 : y * D ≤ T * x := hy ▸ Nat.div_mul_le_self _ _
  have y2 : T * x < (y + 1) * D := by rw [hy, Nat.add_mul, Nat.one_mul]; exact Nat.lt_div_mul_add hDp
  have z1 : z * q ≤ y := hz ▸ Nat.div_mul_le_self _ _
  have z2 : y < (z + 1) * q := by rw [hz, Nat.add_mul, Nat.one_mul]; exact Nat.lt_div_mul_add (by omega)
  obtain ⟨α, hα⟩ : ∃ α : ℝ, α = a / D := ⟨_, rfl⟩
  have haα : (a : ℝ) = α * D := by rw [hα]; field_simp
  have x1' : (x : ℝ) * D ≤ a * a := by exact_mod_cast x1
  have x2' : (a : ℝ) * a < (x + 1) * D := by exact_mod_cast x2
  have y1' : (y : ℝ) * D ≤ T * x := by exact_mod_cast y1
  have y2' : (T : ℝ) * x < (y + 1) * D := by exact_mod_cast y2
  have z1' : (z : ℝ) * q ≤ y := by exact_mod_cast z1
  have z2' : (y : ℝ) < (z + 1) * q := by exact_mod_cast z2
  have haD : (a : ℝ) ≤ 2 * D := by exact_mod_cast ha
  have hTD : (T : ℝ) ≤ 2 * D := by exact_mod_cast hT
  have hα2 : α ≤ 2 := by rw [hα, div_le_iff₀ hDpr]; linarith
  have hα0 : 0 ≤ α := by rw [hα]; positivity
  have hT0 : (0 : ℝ) ≤ T := by positivity
  rw [← hα]
  rw [haα] at x1' x2'
  have x3 : (x : ℝ) ≤ α ^ 2 * D := by
    refine le_of_mul_le_mul_right ?_ hDpr; linarith
  have x4 : α ^ 2 * D ≤ x + 1 := by
    refine le_of_mul_le_mul_right ?_ hDpr; linarith
  have hα4 : α ^ 2 ≤ 4 := by nlinarith
  have y3 : (y : ℝ) ≤ T * α ^ 2 := by
    refine le_of_mul_le_mul_right ?_ hDpr
    have := mul_le_mul_of_nonneg_left x3 hT0
    linarith
  have y4 : (T : ℝ) * α ^ 2 ≤ y + 3 := by
    refine le_of_mul_le_mul_right ?_ hDpr
    have := mul_le_mul_of_nonneg_left x4 hT0
    linarith
  have r1 : (T : ℝ) * α ^ 2 ≤ r * α ^ 2 := mul_le_mul_of_nonneg_right (by linarith) (by positivity)
  have r2 : r * α ^ 2 ≤ T * α ^ 2 + 20 := by
    have := mul_le_mul_of_nonneg_right h5 (by positivity : 0 ≤ α ^ 2)
    linarith
  refine ⟨?_, ?_, ?_⟩
  · have : (z : ℝ) ≤ 2 * D := by
      have h1 : (T : ℝ) * α ^ 2 ≤ T * 4 := mul_le_mul_of_nonneg_left hα4 hT0
      have h2 : (z : ℝ) * 6 ≤ z * q := mul_le_mul_of_nonneg_left hqr (by positivity)
      linarith
    exact_mod_cast this
  · rw [sub_nonneg, le_div_iff₀ (by linarith)]; linarith
  · rw [sub_le_iff_le_add, div_le_iff₀ (by linarith)]
    nlinarith

/-- The fixed-point series and the real one: each of the terms is low by at most 5. -/
theorem sineSeries_error {a : ℕ} (ha : a ≤ 2 * 2 ^ 250) (n : ℕ) : ∀ (j T : ℕ), T ≤ 2 * 2 ^ 250 →
    0 ≤ 2 ^ 250 * ((a / 2 ^ 250 : ℝ) ^ (2 * j + 1) / (2 * j + 1).factorial) - T →
    2 ^ 250 * ((a / 2 ^ 250 : ℝ) ^ (2 * j + 1) / (2 * j + 1).factorial) - T ≤ 5 →
    |(sineSeries n (j + 1) (a * a / 2 ^ 250) T : ℝ)
      - ∑ i ∈ Finset.range n, (-1) ^ i * (2 ^ 250 * ((a / 2 ^ 250 : ℝ) ^ (2 * (j + i) + 1) / (2 * (j + i) + 1).factorial))| ≤ 5 * n := by
  induction n with
  | zero => intro j T _ _ _; simp [sineSeries]
  | succ n ih =>
    intro j T hT h0 h5
    have hq : 6 ≤ 2 * (j + 1) * (2 * (j + 1) + 1) := by nlinarith
    obtain ⟨t1, t2, t3⟩ := sineTerm_step ha hT hq h0 h5
    have he : 2 ^ 250 * ((a / 2 ^ 250 : ℝ) ^ (2 * j + 1) / (2 * j + 1).factorial) * (a / 2 ^ 250) ^ 2
          / ((2 * (j + 1) * (2 * (j + 1) + 1) : ℕ) : ℝ)
        = 2 ^ 250 * ((a / 2 ^ 250 : ℝ) ^ (2 * (j + 1) + 1) / (2 * (j + 1) + 1).factorial) := by
      rw [show (2 * (j + 1) + 1).factorial = (2 * (j + 1) + 1) * ((2 * j + 1 + 1) * (2 * j + 1).factorial) by
        rw [show 2 * (j + 1) + 1 = (2 * j + 1 + 1) + 1 by ring, Nat.factorial_succ, Nat.factorial_succ]]
      push_cast
      have : ((2 * j + 1).factorial : ℝ) ≠ 0 := by positivity
      generalize (a / 2 ^ 250 : ℝ) = x
      field_simp
      ring
    rw [he] at t2 t3
    have := ih (j + 1) _ t1 t2 t3
    rw [sineSeries, Finset.sum_range_succ', show sineBits = 250 from rfl]
    have hs : ∑ i ∈ Finset.range n, (-1) ^ (i + 1)
          * (2 ^ 250 * ((a / 2 ^ 250 : ℝ) ^ (2 * (j + (i + 1)) + 1) / (2 * (j + (i + 1)) + 1).factorial))
        = -∑ i ∈ Finset.range n, (-1) ^ i
          * (2 ^ 250 * ((a / 2 ^ 250 : ℝ) ^ (2 * (j + 1 + i) + 1) / (2 * (j + 1 + i) + 1).factorial)) := by
      rw [← Finset.sum_neg_distrib]
      refine Finset.sum_congr rfl fun i _ => ?_
      rw [show j + (i + 1) = j + 1 + i by ring, pow_succ]; ring
    rw [hs]
    rw [abs_le] at this ⊢
    push_cast at this ⊢
    simp only [pow_zero, one_mul, add_zero]
    constructor <;> linarith [this.1, this.2]

/-- Cutting an approximation of a number between 0 and `D` to that range brings it no further away. -/
theorem clamp_error {Z : ℤ} {D : ℕ} {x e : ℝ} (h0 : 0 ≤ x) (h1 : x ≤ 1) (h : |(Z : ℝ) - D * x| ≤ e) :
    |((min Z.toNat D : ℕ) : ℝ) - D * x| ≤ e := by
  have hb1 : (0 : ℝ) ≤ D * x := mul_nonneg (Nat.cast_nonneg D) h0
  have hb2 : D * x ≤ (D : ℝ) := mul_le_of_le_one_right (Nat.cast_nonneg D) h1
  have hz : ((Z.toNat : ℕ) : ℝ) = max (Z : ℝ) 0 := by
    rw [← Int.cast_natCast, Int.toNat_eq_max]; push_cast; rfl
  rw [Nat.cast_min, hz]
  rw [abs_le] at h ⊢
  constructor
  · rcases le_total (max (Z : ℝ) 0) D with hc | hc
    · rw [min_eq_left hc]; linarith [le_max_left (Z : ℝ) 0]
    · rw [min_eq_right hc]; linarith
  · rcases le_total (Z : ℝ) 0 with hc | hc
    · rw [max_eq_right hc]; linarith [min_le_left (0 : ℝ) D]
    · rw [max_eq_left hc]; linarith [min_le_left (Z : ℝ) D]

/-- Three errors in a row: of the series' terms, of its truncation, of its angle. -/
theorem error_chain {D Z S s t e : ℝ} (hD : 0 < D) (h1 : |Z - D * S| ≤ e) (h2 : |t - S| ≤ 1 / D) (h3 : |s - t| ≤ 2 / D) :
    |Z - D * s| ≤ e + 3 := by
  have h2' : |D * (t - S)| ≤ 1 := by rwa [abs_mul, abs_of_pos hD, ← le_div_iff₀' hD]
  have h3' : |D * (s - t)| ≤ 2 := by rwa [abs_mul, abs_of_pos hD, ← le_div_iff₀' hD]
  rw [abs_le] at *
  constructor <;> linarith

/-- The fixed-point sine of a quarter cycle is within 2^8 of its last place of the sine. -/
theorem quarterSine_error (u : ℕ) (hu : u ≤ 2 ^ 147) :
    |(quarterSine u : ℝ) - 2 ^ 250 * sin (2 * π * u / 2 ^ 149)| ≤ 2 ^ 8 := by
  obtain ⟨hp1, hp2⟩ := twoPiFixed_bounds
  have hunit : unitF = 2 ^ 149 := by unfold unitF; rfl
  obtain ⟨a, ha⟩ : ∃ a, a = twoPiFixed * u / unitF := ⟨_, rfl⟩
  have hur : (u : ℝ) ≤ 2 ^ 147 := by exact_mod_cast hu
  have hu0 : (0 : ℝ) ≤ u := by positivity
  have a1 : a * 2 ^ 149 ≤ twoPiFixed * u := by rw [ha, hunit]; exact Nat.div_mul_le_self _ _
  have a2 : twoPiFixed * u < (a + 1) * 2 ^ 149 := by
    rw [ha, hunit, Nat.add_mul, Nat.one_mul]; exact Nat.lt_div_mul_add (by positivity)
  have a1' : (a : ℝ) * 2 ^ 149 ≤ twoPiFixed * u := by exact_mod_cast a1
  have a2' : (twoPiFixed : ℝ) * u < (a + 1) * 2 ^ 149 := by exact_mod_cast a2
  obtain ⟨θ, hθ⟩ : ∃ θ : ℝ, θ = 2 * π * u / 2 ^ 149 := ⟨_, rfl⟩
  have hθ0 : 0 ≤ θ := by rw [hθ]; positivity
  have hθ1 : θ ≤ π / 2 := by
    rw [hθ, div_le_iff₀ (by positivity)]
    have := mul_le_mul_of_nonneg_left hur (by positivity : 0 ≤ 2 * π)
    nlinarith
  have m1 := mul_le_mul_of_nonneg_right hp1 hu0
  have m2 := mul_le_mul_of_nonneg_right hp2 hu0
  have hθm : θ * 2 ^ 149 = 2 * π * u := by rw [hθ]; field_simp
  have d1 : (a : ℝ) ≤ 2 ^ 250 * θ := by
    refine le_of_mul_le_mul_right (a := (2 : ℝ) ^ 149) ?_ (by positivity)
    rw [mul_assoc, hθm]; linarith
  have d2 : 2 ^ 250 * θ ≤ a + 2 := by
    refine le_of_mul_le_mul_right (a := (2 : ℝ) ^ 149) ?_ (by positivity)
    rw [mul_assoc, hθm]; nlinarith
  have hal : (a : ℝ) ≤ 2 * 2 ^ 250 := by
    have := pi_lt_four
    have := mul_le_mul_of_nonneg_left (by linarith : θ ≤ 2) (by positivity : (0 : ℝ) ≤ 2 ^ 250)
    linarith
  have hal' : a ≤ 2 * 2 ^ 250 := by exact_mod_cast hal
  have hα0 : (0 : ℝ) ≤ a / 2 ^ 250 := by positivity
  have hα2 : (a / 2 ^ 250 : ℝ) ≤ 2 := by rw [div_le_iff₀ (by positivity)]; exact hal
  obtain ⟨n, hn⟩ : ∃ n, n = 40 := ⟨_, rfl⟩
  have first : ∀ D : ℝ, D ≠ 0 → D * ((a / D) ^ (2 * 0 + 1) / ((2 * 0 + 1).factorial : ℝ)) = a := by
    intro D hD; simp; field_simp
  have e1 := sineSeries_error hal' n 0 a hal' (by rw [first _ (by positivity)]; simp) (by rw [first _ (by positivity)]; simp)
  have e2 := sin_partial_sum (a / 2 ^ 250) hα0 hα2 n
  have e3 : (a / 2 ^ 250 : ℝ) ^ (2 * n + 1) / ((2 * n + 1).factorial : ℝ) ≤ 1 / 2 ^ 250 := by
    have : (a / 2 ^ 250 : ℝ) ^ (2 * n + 1) ≤ 2 ^ (2 * n + 1) := pow_le_pow_left₀ hα0 hα2 _
    have hf : (2 : ℝ) ^ (2 * n + 1) * 2 ^ 250 ≤ ((2 * n + 1).factorial : ℝ) := by
      rw [hn]; norm_num [Nat.factorial]
    rw [div_le_div_iff₀ (by positivity) (by positivity), one_mul]
    exact (mul_le_mul_of_nonneg_right this (by positivity)).trans hf
  have e4 : |sin θ - sin (a / 2 ^ 250)| ≤ 2 / 2 ^ 250 := by
    refine (abs_sin_sub_sin_le ..).trans ?_
    rw [abs_le]
    have h1 : (a / 2 ^ 250 : ℝ) ≤ θ := by rw [div_le_iff₀ (by positivity)]; linarith
    have h2 : θ ≤ a / 2 ^ 250 + 2 / 2 ^ 250 := by rw [← add_div, le_div_iff₀ (by positivity)]; linarith
    constructor
    · have : (0 : ℝ) ≤ 2 / 2 ^ 250 := by positivity
      linarith
    · linarith
  simp only [Nat.zero_add] at e1
  have hsum : ∑ i ∈ Finset.range n, (-1) ^ i * (2 ^ 250 * ((a / 2 ^ 250 : ℝ) ^ (2 * i + 1) / (2 * i + 1).factorial))
      = 2 ^ 250 * ∑ i ∈ Finset.range n, (-1) ^ i * ((a / 2 ^ 250 : ℝ) ^ (2 * i + 1) / (2 * i + 1).factorial) := by
    rw [Finset.mul_sum]; exact Finset.sum_congr rfl fun i _ => by ring
  rw [hsum] at e1
  generalize ∑ i ∈ Finset.range n, (-1) ^ i * ((a / 2 ^ 250 : ℝ) ^ (2 * i + 1) / (2 * i + 1).factorial) = S at e1 e2
  have hs0 : 0 ≤ sin θ := sin_nonneg_of_nonneg_of_le_pi hθ0 (by linarith [pi_pos])
  have hs1 : sin θ ≤ 1 := sin_le_one θ
  have hq : quarterSine u = min (sineSeries n 1 (a * a / 2 ^ 250) a).toNat (2 ^ 250) := by
    rw [ha, hn]; rfl
  rw [← hθ, hq]
  obtain ⟨Z, hZ⟩ : ∃ Z, Z = sineSeries n 1 (a * a / 2 ^ 250) a := ⟨_, rfl⟩
  rw [← hZ] at e1 ⊢
  have key : |(Z : ℝ) - 2 ^ 250 * sin θ| ≤ 2 ^ 8 :=
    (error_chain (pow_pos zero_lt_two 250) e1 (e2.trans e3) e4).trans (by rw [hn]; norm_num)
  have hD : ((2 ^ 250 : ℕ) : ℝ) = 2 ^ 250 := by rw [Nat.cast_pow, Nat.cast_ofNat]
  rw [← hD] at key ⊢
  exact clamp_error hs0 hs1 key

end Sys2Proof.Machine
end

