-- ==== Sys2Proof/Tests/Slice0.lean ====
section
/-! SUPPORT. Tests: words written out from the encodings of spec/, one step of each instruction with results taken from
95_test_vectors.md and the examples of 44_control.md, and a state or operands that meet the hypotheses of every obligation. -/

namespace Sys2Proof.Tests

open Sys2Proof.Machine

/-! ### States and observations -/

/-- The next state, if there is one. -/
def nextOf : Host.Outcome State Fault Refusal → Option State
  | .next t => some t
  | _ => none

/-- A block prepared at 1000 Hz: `C = 50` (95_test_vectors.md section 2.7). -/
def ready1000 : State :=
  { State.reset with ready := true, srate := 1000, srAct := 1000, capacity := 50, zeroed := 50 }

/-- The state of program P1 before beat 3 (95_test_vectors.md): Flanger, `DEPTH = 0`, `FEEDBACK = 0`, `DRYWET = 1`. -/
def p1Beat3 : State :=
  { ready1000 with
    mode := .flanger, depth := 0, feedback := 0, dryWet := 0x3F800000, wh := 3, ph := 0x3CF5C28F
    bufL := [(0, 0x3F800000)], bufR := [(0, 0x3F000000)] }

/-- The parameters of P4 and L1.5: `SR_ACT = 1024`, Chorus, `DEPTH = 1`, `PHASEOFF = 0.25`, at phase 0.25. -/
def p4Beat16 : State :=
  { State.reset with ready := true, srate := 1024, srAct := 1024, capacity := 52, zeroed := 52, depth := 0x3F800000,
                     phaseOff := 0x3E800000, rate := 0x41800000, feedback := 0, dryWet := 0, wh := 16, ph := 0x3E800000 }

/-- A state with a list of pending transactions. -/
def pend (s : State) (ts : List Transaction) : State := { s with pending := ts }

/-- A state whose pending transaction is a word that a family of claims speaks of. -/
def pendCp (s : State) (w : PortWord) : State := pend s [.cp w]

/-! ### Decoding: words written out bit by bit (30_encoding.md R90, R96, R99; 44_control.md; 95_test_vectors.md section 2.7) -/

theorem test_decode_nop : decodeCp 0x0000000000000000 = .ok .nop := by decide
theorem test_decode_rdId : decodeCp 0x0100000000000000 = .ok .rdId := by decide
theorem test_decode_rdCtrl : decodeCp 0x0100000400000000 = .ok .rdCtrl := by decide
theorem test_decode_rdStatus : decodeCp 0x0100000800000000 = .ok .rdStatus := by decide
theorem test_decode_rdSrate : decodeCp 0x0100000C00000000 = .ok .rdSrate := by decide
theorem test_decode_rdMaxblk : decodeCp 0x0100001000000000 = .ok .rdMaxblk := by decide
theorem test_decode_rdSrAct : decodeCp 0x0100001400000000 = .ok .rdSrAct := by decide
theorem test_decode_rdCapacity : decodeCp 0x0100001800000000 = .ok .rdCapacity := by decide
theorem test_decode_rdDrywet : decodeCp 0x0100002000000000 = .ok .rdDrywet := by decide
theorem test_decode_rdDepth : decodeCp 0x0100002400000000 = .ok .rdDepth := by decide
theorem test_decode_rdRate : decodeCp 0x0100002800000000 = .ok .rdRate := by decide
theorem test_decode_rdPhaseoff : decodeCp 0x0100002C00000000 = .ok .rdPhaseoff := by decide
theorem test_decode_rdFeedback : decodeCp 0x0100003000000000 = .ok .rdFeedback := by decide
theorem test_decode_rdMode : decodeCp 0x0100003400000000 = .ok .rdMode := by decide
theorem test_decode_rdWhead : decodeCp 0x0100004000000000 = .ok .rdWhead := by decide
theorem test_decode_rdPhase : decodeCp 0x0100004400000000 = .ok .rdPhase := by decide
theorem test_decode_rdFbl : decodeCp 0x0100004800000000 = .ok .rdFbl := by decide
theorem test_decode_rdFbr : decodeCp 0x0100004C00000000 = .ok .rdFbr := by decide
theorem test_decode_cmdNone : decodeCp 0x0200000400000000 = .ok .cmdNone := by decide
theorem test_decode_cmdPrepare : decodeCp 0x0200000400000001 = .ok .cmdPrepare := by decide
theorem test_decode_cmdClear : decodeCp 0x0200000400000002 = .ok .cmdClear := by decide
theorem test_decode_cmdDefaults : decodeCp 0x0200000400000004 = .ok .cmdDefaults := by decide
theorem test_decode_cmdErrclr : decodeCp 0x0200000400000008 = .ok .cmdErrclr := by decide
theorem test_decode_wrSrate : decodeCp 0x0200000C0000BB80 = .ok (.wrSrate 48000) := by decide
theorem test_decode_wrMaxblk : decodeCp 0x0200001000000200 = .ok (.wrMaxblk 512) := by decide
theorem test_decode_wrDrywet : decodeCp 0x020000203F400000 = .ok (.wrDrywet 0x3F400000) := by decide
theorem test_decode_wrDepth : decodeCp 0x0200002400000000 = .ok (.wrDepth 0) := by decide
theorem test_decode_wrRate : decodeCp 0x020000283F800000 = .ok (.wrRate 0x3F800000) := by decide
theorem test_decode_wrPhaseoff : decodeCp 0x0200002C3E800000 = .ok (.wrPhaseoff 0x3E800000) := by decide
theorem test_decode_wrFeedback : decodeCp 0x020000303F000000 = .ok (.wrFeedback 0x3F000000) := by decide
theorem test_decode_wrMode : decodeCp 0x02000034FFFFFFFF = .ok (.wrMode 0xFFFFFFFF) := by decide
theorem test_decode_sample : decodeSp 0xBF8000003F800000 = .sample 0x3F800000 0xBF800000 := by decide

/-! ### Well-formedness smoke: an ill-formed word for each kind of 30_encoding.md R97, refused by the check and by the decoder -/

theorem test_wf_nopWithBits : CpWord.badNop 0x0000000000000001 = true ∧ CpWord.wf 0x0000000000000001 = false := by decide
theorem test_wf_opcode : CpWord.badOpc 0x0300000000000000 = true ∧ CpWord.wf 0xFF00000000000000 = false := by decide
theorem test_wf_reservedBits : CpWord.badRsv 0x0101000800000000 = true ∧ CpWord.wf 0x0101000800000000 = false := by decide
theorem test_wf_misaligned : CpWord.misaligned 0x0100000900000000 = true ∧ CpWord.wf 0x020000223F800000 = false := by decide
theorem test_wf_reservedAddress :
    CpWord.reservedAddr 0x0100001C00000000 = true ∧ CpWord.wf 0x0100005000000000 = false := by decide
theorem test_wf_readWithData : CpWord.readWithData 0x0100000800000001 = true ∧ CpWord.wf 0x0100000000000005 = false := by decide
theorem test_wf_writeToReadOnly :
    CpWord.writeToReadOnly 0x0200000800000000 = true ∧ CpWord.wf 0x0200000000000000 = false := by decide
theorem test_wf_badCommand : CpWord.badCommand 0x0200000400000003 = true ∧ CpWord.wf 0x0200000400000010 = false := by decide
theorem test_wf_accepts : CpWord.wf 0x0200002040000000 = true ∧ CpWord.wf 0x0000000000000000 = true := by decide
theorem test_decode_refuses_nopWithBits : decodeCp 0x0000000000000001 = .error .nopWithBits := by decide
theorem test_decode_refuses_opcode : decodeCp 0x0300000000000000 = .error .opcode := by decide
theorem test_decode_refuses_reservedBits : decodeCp 0x0101000800000000 = .error .reservedBits := by decide
theorem test_decode_refuses_misaligned : decodeCp 0x0100000900000000 = .error .misaligned := by decide
theorem test_decode_refuses_reservedAddress : decodeCp 0x0100001C00000000 = .error .reservedAddress := by decide
theorem test_decode_refuses_readWithData : decodeCp 0x0100000800000001 = .error .readWithData := by decide
theorem test_decode_refuses_writeToReadOnly : decodeCp 0x0200000800000000 = .error .writeToReadOnly := by decide
theorem test_decode_refuses_badCommand : decodeCp 0x0200000400000003 = .error .badCommand := by decide

/-! ### The assembler's refusals and expansions (30_encoding.md R99) -/

theorem test_assemble_unknown_name :
    assembleLine "RD GAIN".toList = none ∧ assembleLine "WR STATUS, 0".toList = none := by decide
theorem test_assemble_bad_command :
    assembleLine "WR CTRL, 3".toList = none ∧ assembleLine "WR ctrl, 2".toList = some [.cp 0x0200000400000002] := by decide
theorem test_assemble_wr :
    assembleLine "WR SRATE, 48000 ; Hz".toList = some [.cp 0x0200000C0000BB80]
      ∧ assembleLine "WR RATE, 4294967296".toList = none ∧ assembleLine "; nothing".toList = some [] := by decide
theorem test_assemble_wrf :
    assembleLine "WRF DRYWET, 1.0".toList = some [.cp 0x020000203F800000]
      ∧ assembleLine "WRF FEEDBACK, nan".toList = some [.cp 0x020000307FC00000]
      ∧ assembleLine "WRF RATE, 1e-1".toList = some [.cp 0x020000283DCCCCCD] := by decide +kernel
/-- The grammar of log 21: no leading `+`, digits on one side of the point, `f32:` only before `0x`, and a number without `.` or exponent is no float. -/
theorem test_assemble_float_grammar :
    readFloat "+1.0".toList = none ∧ readFloat ".5".toList = some (.decimal false 5 10) ∧ readFloat "1.".toList = some (.decimal false 1 1)
      ∧ readFloat ".".toList = none ∧ readFloat "f32:1".toList = none ∧ readFloat "f32:0x1".toList = some (.pattern 1)
      ∧ readFloat "f32:0x100000000".toList = none ∧ readFloat "1".toList = none := by decide +kernel
theorem test_assemble_sample :
    assembleLine "SAMPLE 1.0, -2.0".toList = some [.sp 0xC00000003F800000]
      ∧ assembleLine "SAMPLE f32:0x7FA00001, -inf".toList = some [.sp 0xFF8000007FA00001] := by decide +kernel
theorem test_assemble_prep :
    assembleText ["PREP 1000, 64".toList, "FLANGER".toList]
      = some [.cp 0x0200000C000003E8, .cp 0x0200001000000040, .cp 0x0200000400000001, .cp 0x0200003400000001] := by decide

/-! ### The host's questions (log 14) -/

theorem test_table_word_cp : decodeTableWord 64 0x0200000400000001 = some .cmdPrepare := by decide
theorem test_table_word_sp : decodeTableWord 64 0x3F0000003F800000 = some (.sample 0x3F800000 0x3F000000) := by decide
theorem test_withFetchWord_runs :
    nextOf (step (State.reset.withFetchWord 64 0x0200000C0000BB80)) = some { State.reset with srate := 48000, cpOut := [.ack] } := by
  decide

/-! ### Register reads (44_control.md R221 to R237) -/

theorem test_rdId : (nextOf (exec .rdId State.reset)).map (·.cpOut) = some [.resp 0x444C5931] := by decide
theorem test_rdCtrl : (nextOf (exec .rdCtrl ready1000)).map (·.cpOut) = some [.resp 0x00000000] := by decide
theorem test_rdStatus :
    (nextOf (exec .rdStatus { State.reset with errPrep := true, errNrdy := true, errAcc := true })).map (·.cpOut)
      = some [.resp 0x0000000E] := by decide
theorem test_rdStatus_ready :
    (nextOf (exec .rdStatus { ready1000 with errAcc := true })).map (·.cpOut) = some [.resp 0x00000009] := by decide
theorem test_rdSrate : (nextOf (exec .rdSrate { State.reset with srate := 500 })).map (·.cpOut) = some [.resp 0x000001F4] := by decide
theorem test_rdMaxblk : (nextOf (exec .rdMaxblk { State.reset with maxblk := 512 })).map (·.cpOut) = some [.resp 0x00000200] := by
  decide
theorem test_rdSrAct :
    (nextOf (exec .rdSrAct { ready1000 with srate := 999 })).map (·.cpOut) = some [.resp 1000] := by decide
theorem test_rdCapacity : (nextOf (exec .rdCapacity ready1000)).map (·.cpOut) = some [.resp 50] := by decide
theorem test_rdDrywet : (nextOf (exec .rdDrywet State.reset)).map (·.cpOut) = some [.resp 0x3F000000] := by decide
theorem test_rdDepth : (nextOf (exec .rdDepth State.reset)).map (·.cpOut) = some [.resp 0x3F000000] := by decide
theorem test_rdRate : (nextOf (exec .rdRate State.reset)).map (·.cpOut) = some [.resp 0x41200000] := by decide
theorem test_rdPhaseoff :
    (nextOf (exec .rdPhaseoff { State.reset with phaseOff := 0x3F800000 })).map (·.cpOut) = some [.resp 0x3F800000] := by decide
theorem test_rdFeedback : (nextOf (exec .rdFeedback State.reset)).map (·.cpOut) = some [.resp 0x3F000000] := by decide
theorem test_rdMode : (nextOf (exec .rdMode { State.reset with mode := .flanger })).map (·.cpOut) = some [.resp 1] := by decide
theorem test_rdWhead : (nextOf (exec .rdWhead { ready1000 with wh := 13 })).map (·.cpOut) = some [.resp 0x0000000D] := by decide
theorem test_rdPhase : (nextOf (exec .rdPhase p1Beat3)).map (·.cpOut) = some [.resp 0x3CF5C28F] := by decide
theorem test_rdFbl : (nextOf (exec .rdFbl { ready1000 with fbl := 0x80000000 })).map (·.cpOut) = some [.resp 0x80000000] := by
  decide
theorem test_rdFbr : (nextOf (exec .rdFbr { ready1000 with fbr := 0x7FC00000 })).map (·.cpOut) = some [.resp 0x7FC00000] := by
  decide

/-! ### NOP and commands (44_control.md R238 to R245; 95_test_vectors.md section 2.7) -/

theorem test_nop : nextOf (exec .nop p1Beat3) = some { p1Beat3 with cpOut := [.ack] } := by decide
theorem test_cmdNone : nextOf (exec .cmdNone p1Beat3) = some { p1Beat3 with cpOut := [.ack] } := by decide
theorem test_cmdPrepare_48000 :
    (nextOf (exec .cmdPrepare { State.reset with srate := 48000 })).map (fun t => (statusWord t, t.capacity, t.srAct))
      = some (0x00000001, 2400, 48000) := by decide
theorem test_cmdPrepare_999 :
    (nextOf (exec .cmdPrepare { p1Beat3 with srate := 999 })).map (fun t => (statusWord t, t.capacity, t.srAct, t.wh, t.ph))
      = some (0x00000002, 0, 0, 0, 0) := by decide
theorem test_cmdPrepare_limits :
    ((nextOf (exec .cmdPrepare { State.reset with srate := 1001 })).map (·.capacity) = some 51)
      ∧ ((nextOf (exec .cmdPrepare { State.reset with srate := 384000 })).map (·.capacity) = some 19200)
      ∧ ((nextOf (exec .cmdPrepare { State.reset with srate := 384001 })).map statusWord = some 0x00000002) := by decide
theorem test_cmdClear :
    nextOf (exec .cmdClear { p1Beat3 with fbl := 0x3F800000 })
      = some { p1Beat3 with wh := 0, ph := 0, bufL := [], bufR := [], cpOut := [.ack] } := by decide
theorem test_cmdClear_keeps_words_above :
    (nextOf (exec .cmdClear { ready1000 with zeroed := 100, bufL := [(49, 1), (50, 2)] })).map (·.bufL) = some [(50, 2)] := by decide
theorem test_cmdDefaults :
    nextOf (exec .cmdDefaults { p1Beat3 with rate := 0x3DCCCCCD, phaseOff := 0x3F800000 })
      = some { p1Beat3 with
          dryWet := 0x3F000000, depth := 0x3F000000, rate := 0x41200000, phaseOff := 0x00000000, feedback := 0x3F000000
          mode := .chorus, cpOut := [.ack] } := by decide
theorem test_cmdErrclr :
    (nextOf (exec .cmdErrclr { ready1000 with errPrep := true, errNrdy := true, errAcc := true })).map statusWord
      = some 0x00000001 := by decide

/-! ### Register writes (44_control.md R246 to R253) -/

theorem test_wrSrate : nextOf (exec (.wrSrate 48000) ready1000) = some { ready1000 with srate := 0x0000BB80, cpOut := [.ack] } := by
  decide
theorem test_wrMaxblk : (nextOf (exec (.wrMaxblk 0xFFFFFFFF) State.reset)).map (·.maxblk) = some 0xFFFFFFFF := by decide
theorem test_wrDrywet :
    ([0xBF800000, 0x80000000, 0x40000000, 0xFF800001, 0x00000001, 0x7F800000].map fun v =>
        (nextOf (exec (.wrDrywet v) State.reset)).map (·.dryWet))
      = [some 0x00000000, some 0x00000000, some 0x3F800000, some 0x3F000000, some 0x00000001, some 0x3F800000] := by
  decide +kernel
theorem test_wrDepth : (nextOf (exec (.wrDepth 0x40000000) State.reset)).map (·.depth) = some 0x3F800000 := by decide +kernel
theorem test_wrRate :
    ([0x00000000, 0x3DCCCCCC, 0x41F00000, 0x7F800000, 0xFFC00000, 0x3F800000].map fun v =>
        (nextOf (exec (.wrRate v) State.reset)).map (·.rate))
      = [some 0x3DCCCCCD, some 0x3DCCCCCD, some 0x41A00000, some 0x41A00000, some 0x41200000, some 0x3F800000] := by
  decide +kernel
theorem test_wrPhaseoff :
    ([0x3F800000, 0x3F800001, 0x7FC00000].map fun v => (nextOf (exec (.wrPhaseoff v) State.reset)).map (·.phaseOff))
      = [some 0x3F800000, some 0x3F800000, some 0x00000000] := by decide +kernel
theorem test_wrFeedback :
    ([0x3F7AE149, 0x3F7AE147, 0x7FC00000].map fun v => (nextOf (exec (.wrFeedback v) State.reset)).map (·.feedback))
      = [some 0x3F7AE148, some 0x3F7AE147, some 0x3F000000] := by decide +kernel
theorem test_wrMode :
    ([1, 0, 3, 0x80000001].map fun v => (nextOf (exec (.wrMode v) State.reset)).map (·.mode))
      = [some .flanger, some .chorus, some .chorus, some .chorus] := by decide

/-! ### ILLEGAL and reset (60_exceptions.md R283; 70_reset_and_hazards.md R310) -/

theorem test_illegal_read :
    nextOf (step (pendCp ready1000 0x0100000000000005)) = some { ready1000 with errAcc := true, cpOut := [.resp 0] } := by decide
theorem test_illegal_write :
    nextOf (step (pendCp ready1000 0x0200000000000000)) = some { ready1000 with errAcc := true, cpOut := [.ack] } := by decide
theorem test_reset :
    (nextOf (step (pend { p1Beat3 with cpOut := [.ack] } [.rst, .cp 0]))).map (fun t => (statusWord t, t.capacity, t.wh, t.cpOut, t.pending))
      = some (0, 0, 0, [.ack], [.cp 0]) := by decide

/-! ### SAMPLE (43_sample_engine.md R200; 95_test_vectors.md sections 2.8, 3) -/

/-- 95_test_vectors.md section 2.8: the bypass returns the patterns unchanged. -/
theorem test_sample_bypass :
    nextOf (step (pend State.reset [.sp 0x800000007FA00001]))
      = some { State.reset with errNrdy := true, spOut := [0x800000007FA00001] } := by decide

/-- 95_test_vectors.md program P1, beat 3. -/
theorem test_sample_p1_beat3 :
    nextOf (exec (.sample 0 0) p1Beat3)
      = some { p1Beat3 with wh := 4, ph := 0x3D23D70A, spOut := [0x3F0000003F800000] } := by decide +kernel

/-! ### Datapath functions (95_test_vectors.md section 2) -/

/-- 41_delay_line.md R152, the example. -/
theorem test_readInterp :
    dlReadInterp params .left 0x40200000 { ready1000 with wh := 10, bufL := [(7, 0x428C0000), (8, 0x42A00000)] } = .ok 0x42960000 := by
  decide +kernel

/-- 41_delay_line.md R152: a position that rounds up to `CF` reads word 0. -/
theorem test_readInterp_guard :
    floorF (readPosition 0x42400001 { State.reset with wh := 48, capacity := 2400 }) = some 2400
      ∧ dlReadInterp params .left 0x42400001
          { State.reset with wh := 48, capacity := 2400, zeroed := 2400, bufL := [(0, 0x40E00000), (1, 0x41100000)] }
        = .ok 0x40E00000 := by decide +kernel

/-- 42_oscillator.md R171, R172, the examples and bounds. -/
theorem test_phase :
    divF 0x41200000 (toF32 48000) = 0x395A740E ∧ divF 0x3DCCCCCD (toF32 384000) = 0x348BCF65
      ∧ divF 0x41A00000 (toF32 1000) = 0x3CA3D70A ∧ nextPhase 0x3F7C0000 0x3C800000 = 0x00000000 := by decide +kernel

/-- 95_test_vectors.md program P4 at n = 16: quadrant points only. -/
theorem test_delays_p4 :
    mapDelay (lfoValue params 0 p4Beat16) p4Beat16.depth p4Beat16.mode p4Beat16 = 0x41F5C28E
      ∧ mapDelay (lfoValue params p4Beat16.phaseOff p4Beat16) p4Beat16.depth p4Beat16.mode p4Beat16 = 0x418F5C28 := by
  decide +kernel

/-- 43_sample_engine.md R191, the example. -/
theorem test_mapper : mulF (mapSeconds 0x3F800000 0x3F000000 .chorus) (toF32 48000) = 0x448E8000 := by decide +kernel

/-- 95_test_vectors.md section 2.5. -/
theorem test_mix :
    mix 0x3F800000 0x40400000 0x3E800000 = 0x3FC00000 ∧ mix 0x3E99999A 0x3F333333 0x3F800000 = 0x3F333333
      ∧ mix 0x3F800000 0x7F800000 0x00000000 = 0x7FC00000 ∧ mix 0x80000000 0x80000000 0x3F000000 = 0x80000000
      ∧ mix 0x7F7FFFFF 0x7F7FFFFF 0x3F000000 = 0x7F7FFFFF ∧ mix 0x00000000 0x80000000 0x3F800000 = 0x00000000 := by decide +kernel

/-- 95_test_vectors.md section 2.5: subnormal ties, `-0`, `inf ⊗ 0`. -/
theorem test_feedback :
    mulF 0x00000001 0x3F000000 = 0x00000000 ∧ mulF 0x00000003 0x3F000000 = 0x00000002
      ∧ mulF 0xBF000000 0x00000000 = 0x80000000 ∧ mulF 0x3F000000 0x3F7AE148 = 0x3EFAE148
      ∧ mulF 0x7F800000 0x00000000 = 0x7FC00000 := by decide +kernel

/-! ### States and operands that meet the hypotheses of the obligations -/

theorem reset_meets_inv : Inv State.reset :=
  ⟨by decide, by decide, by decide, by decide, by decide⟩

theorem ready1000_meets_inv : Inv ready1000 :=
  ⟨by decide, by decide, by decide, by decide, by decide⟩

/-- With words listed, Flanger and a phase inside the cycle. -/
theorem p1Beat3_meets_inv : Inv p1Beat3 :=
  ⟨by decide, by decide, by decide, by decide, by decide⟩

theorem p4Beat16_meets_inv : Inv p4Beat16 :=
  ⟨by decide, by decide, by decide, by decide, by decide⟩

/-- EncodeDecodeRoundTrip. -/
theorem witness_encodeDecode : ∃ w i, decodeCp w = .ok i := ⟨0x0100000800000000, .rdStatus, by decide⟩

/-- NopAndNoneOnlyAcknowledge: another word with OPC 0x00. -/
theorem witness_nopWithBits : (0x0000000000000001 : PortWord).toNat / 2 ^ 56 = 0 ∧ (0x0000000000000001 : PortWord) ≠ 0 := by decide

/-- StepRunsTheDecodedInstruction, IllegalWordOnlyRaisesAccessError, HardwareResetSetsEveryRegister: each kind of pending transaction. -/
theorem witness_pending :
    (pendCp State.reset 0).pending = [.cp 0] ∧ decodeCp 0 = .ok .nop
      ∧ (pend State.reset [.sp 0]).pending = [.sp 0]
      ∧ (pendCp State.reset 1).pending = [.cp 1] ∧ (∃ k, decodeCp 1 = .error k)
      ∧ (pend State.reset [.rst]).pending = [.rst] ∧ State.reset.pending = [] :=
  ⟨rfl, by decide, rfl, rfl, ⟨.nopWithBits, by decide⟩, rfl, rfl⟩

/-- EachTransactionGetsOneReply, ErrorsHaveOneCauseEach, ParametersChangeOnlyByTheirWrites, WordsAboveCapacityAreNotTouched: steps that complete. -/
theorem witness_steps :
    (∃ t, step (pendCp ready1000 0) = .next t) ∧ (∃ t, step (pend State.reset [.sp 0]) = .next t)
      ∧ (∃ t, step (pend ready1000 [.rst]) = .next t) :=
  ⟨⟨_, rfl⟩, ⟨_, rfl⟩, ⟨_, rfl⟩⟩

/-- WritingBackAReadKeepsTheParameters, at the ends of the ranges. -/
theorem witness_paramsInRange :
    ParamsInRange { State.reset with dryWet := 0, depth := 0, rate := 0x3DCCCCCD, phaseOff := 0, feedback := 0 }
      ∧ ParamsInRange { State.reset with dryWet := 0x3F800000, depth := 0x3F800000, rate := 0x41A00000, phaseOff := 0x3F800000,
                                         feedback := 0x3F7AE148 } := by decide

/-- PrepareSucceedsInRange and PrepareFailsOutOfRange, where they meet. -/
theorem witness_prepare_range :
    (1000 ≤ (1000 : Word).toNat ∧ (1000 : Word).toNat ≤ 384000) ∧ (1000 ≤ (384000 : Word).toNat ∧ (384000 : Word).toNat ≤ 384000)
      ∧ ((999 : Word).toNat < 1000 ∨ 384000 < (999 : Word).toNat) ∧ ((384001 : Word).toNat < 1000 ∨ 384000 < (384001 : Word).toNat) := by
  decide

/-- ClearEqualsPrepareAtTheSameRate, PreparedSampleComputesTheStep, MappedDelaysAreAdmissible. -/
theorem witness_prepared : Inv p1Beat3 ∧ p1Beat3.ready = true ∧ p1Beat3.srate = p1Beat3.srAct :=
  ⟨p1Beat3_meets_inv, rfl, rfl⟩

/-- SampleBypassesWhileNotReady. -/
theorem witness_notReady : State.reset.ready = false := rfl

/-- HistoryShiftsByOneSample, ChannelsAreIndependent: prepared beats that complete, with two right channels. -/
theorem witness_samples :
    (nextOf (exec (.sample 0 0) p1Beat3)).isSome = true ∧ (3 : Nat) + 1 < p1Beat3.capacity.toNat
      ∧ (nextOf (exec (.sample 0 0x3F800000) { p1Beat3 with fbr := 0x3F000000, bufR := [] })).isSome = true
      ∧ (nextOf (exec (.sample 0x3F800000 0) { p1Beat3 with fbl := 0x3F000000, bufL := [] })).isSome = true := by decide +kernel

/-- EqualChannelsStayEqual. -/
theorem witness_equalChannels :
    memWf { p1Beat3 with bufR := p1Beat3.bufL } = true ∧ p1Beat3.phaseOff = 0 ∧ p1Beat3.fbl = p1Beat3.fbr
      ∧ (∀ i, i < 50 → wordAt { p1Beat3 with bufR := p1Beat3.bufL } .left i = wordAt { p1Beat3 with bufR := p1Beat3.bufL } .right i)
      ∧ (nextOf (exec (.sample 0x3F800000 0x3F800000) { p1Beat3 with bufR := p1Beat3.bufL })).isSome = true := by decide +kernel

/-- ReadInterpolatesTwoNeighbours: a position inside the memory, and one equal to `C`. -/
theorem witness_readPositions :
    floorF (subF (toF32 10) 0x40200000) = some 7
      ∧ floorF (addF (subF (toF32 48) 0x42400001) (toF32 2400)) = some 2400 ∧ ltF (subF (toF32 48) 0x42400001) 0 = true := by
  decide +kernel

/-- MapperIsTheStatedFormula, MapperStaysInItsRange, DepthZeroFixesTheDelay: at the ends. -/
theorem witness_mapper :
    isFiniteF 0xBF800000 = true ∧ absPat 0xBF800000 ≤ absPat oneF ∧ absPat 0x3F800000 ≤ absPat oneF ∧ paramInRange .depth 0
      ∧ paramInRange .depth 0x3F800000 ∧ isFiniteF 0x3F800000 = true := by decide

/-- PhaseStaysBelowOne, PhaseNeverSticks: at the ends. -/
theorem witness_phase :
    (0x00000000 : F32).toNat < 0x3F800000 ∧ (0x3F7FFFFF : F32).toNat < 0x3F800000 ∧ paramInRange .rate 0x3DCCCCCD
      ∧ paramInRange .rate 0x41A00000 ∧ 1000 ≤ (1000 : Nat) ∧ (384000 : Nat) ≤ 384000 := by decide

/-- SineMeetsItsGuarantees, SineStaysWithinItsErrorBound: the ends of the domain, and SIN_ERR at 0.5. -/
theorem witness_sine :
    inSineDomain 0x00000000 = true ∧ inSineDomain 0x40000000 = true ∧ inSineDomain 0x3DCCCCCD = true
      ∧ { params with sinErrNum := 1, sinErrDen := 2 }.sinErrDen ≤ 2 * { params with sinErrNum := 1, sinErrDen := 2 }.sinErrNum := by
  decide +kernel

/-- A waveform that is exact at the quadrant points and `+0` elsewhere. -/
def coarseSine (t : F32) : F32 := if magF t % 2 ^ 147 = 0 then quadrantSine (magF t / 2 ^ 147) else posZero

theorem coarseSine_cases (t : F32) : coarseSine t = posZero ∨ coarseSine t = oneF ∨ coarseSine t = negF oneF := by
  unfold coarseSine quadrantSine
  split
  · split
    · exact .inr (.inl rfl)
    · split
      · exact .inr (.inr rfl)
      · exact .inl rfl
  · exact .inl rfl

theorem coarseSine_quadrants : (∀ k : Nat, k ≤ 8 → coarseSine (divF (toF32 k) (toF32 4))
    = if k % 4 = 1 then 0x3F800000 else if k % 4 = 3 then 0xBF800000 else 0x00000000) := by decide +kernel

theorem coarseSine_bound (t : F32) : absPat (coarseSine t) ≤ absPat oneF ∧ |(valF (coarseSine t) : ℝ)| ≤ 2 ^ 149 := by
  have h0 : valF posZero = 0 := by decide
  have h1 : valF oneF = 2 ^ 149 := by decide +kernel
  have h2 : valF (negF oneF) = -2 ^ 149 := by decide +kernel
  rcases coarseSine_cases t with h | h | h <;> rw [h]
  · exact ⟨by decide, by rw [h0]; simp⟩
  · exact ⟨by decide, by rw [h1]; push_cast; norm_num⟩
  · exact ⟨by decide, by rw [h2]; push_cast; norm_num⟩

theorem coarseSine_within (t : F32) : SineWithin (2 ^ 200) 1 0 (magF t) (coarseSine t) := by
  have h1 := (coarseSine_bound t).2
  unfold SineWithin
  generalize ulpExp _ 1 = e
  generalize hx : 2 ^ 149 * Real.sin (2 * Real.pi * magF t / 2 ^ 149) = x
  generalize (valF (coarseSine t) : ℝ) = v at h1
  have h2 : |x| ≤ 2 ^ 149 := by
    rw [← hx, abs_mul, abs_of_pos (by positivity)]
    exact mul_le_of_le_one_right (by positivity) (Real.abs_sin_le_one _)
  have h3 := (abs_sub v x).trans (add_le_add h1 h2)
  have h4 : (1 : ℝ) ≤ 2 ^ e := one_le_pow₀ (by norm_num)
  simp only [Nat.cast_pow, Nat.cast_ofNat, Nat.cast_one, mul_one, add_zero]
  nlinarith

/-- SineMayBeAnyFunctionTheRuleAllows: with a SIN_ERR of `2^200` R131 allows the coarse waveform. -/
theorem witness_sineRule : MeetsSineRule (2 ^ 200) 1 coarseSine :=
  ⟨coarseSine_quadrants, fun t _ => ⟨(coarseSine_bound t).1, coarseSine_within t⟩⟩

/-- OperationsRoundCorrectly: the largest and smallest magnitudes, and a nonzero divisor of each sign. -/
theorem witness_finite :
    isFiniteF 0x7F7FFFFF = true ∧ isFiniteF 0x80000001 = true ∧ isZeroF 0x80000001 = false ∧ isZeroF 0x00000001 = false := by decide

/-- NanResultsAreCanonical, NanReadsPoisonTheChannel. -/
theorem witness_nan : isNaNF 0x7FA00001 = true ∧ isNaNF 0xFF800001 = true := by decide

/-- InfinitiesFollowTheStandard: an infinity beside each kind of operand. -/
theorem witness_infinities :
    isInfF 0x7F800000 = true ∧ isInfF 0xFF800000 = true ∧ signF 0x7F800000 ≠ signF 0xFF800000 ∧ isFiniteF 0x3F800000 = true
      ∧ subF 0x3F800000 0x7F800000 = 0xFF800000 ∧ subF 0x7F800000 0xFF800000 = 0x7F800000
      ∧ isZeroF 0x80000000 = true ∧ isNaNF 0xFF800000 = false ∧ isZeroF 0xFF800000 = false := by decide +kernel

/-- SignedZerosFollowTheStandard: zeros and products that are not NaN. -/
theorem witness_zeros :
    isFiniteF 0x80000000 = true ∧ isFiniteF 0xBF000000 = true ∧ isNaNF (mulF 0xBF000000 0x00000000) = false := by decide +kernel

/-- ExactnessFacts, each clause at an end of its range. -/
theorem witness_exactness :
    (0x3F800000 ≤ (0x3F800000 : F32).toNat ∧ (0x3FFFFFFF : F32).toNat < 0x40000000)
      ∧ floorF 0x80000000 = some 0 ∧ floorF 0x42460001 = some 49 ∧ (isFiniteF 0x01000000 = true ∧ 2 ^ 24 ≤ absPat 0x01000000)
      ∧ isNaNF 0x80000000 = false ∧ isNaNF 0xFF800000 = false := by decide +kernel

/-- MixAtTheEndsPassesOneSide, each clause. -/
theorem witness_mix_ends :
    isFiniteF 0x80000000 = true ∧ isNaNF 0x7F800000 = false ∧ isFiniteF 0x7F800000 = false ∧ signF 0x80000000 = true := by decide

/-- MemoryReadsBackWhatWasWritten: the last word in use; and a write of the value an unlisted word reads as. -/
theorem witness_memWrite :
    memWf p1Beat3 = true ∧ 49 < p1Beat3.capacity.toNat ∧ p1Beat3.capacity.toNat ≤ params.dlDepth
      ∧ (memWrite params .left 0 0 p1Beat3).toOption.map (·.bufL) = some [] := by decide

/-- WordsAboveCapacityAreNotTouched: a step and a word above the capacity. -/
theorem witness_above :
    memWf { ready1000 with zeroed := 60, bufL := [(55, 1)] } = true ∧ Transaction.cp 0 ≠ Transaction.rst
      ∧ ready1000.capacity.toNat ≤ 55 := by decide

/-- UnusedWordsAreNeverObserved: two states that differ above the capacity. -/
theorem witness_unused :
    SameButMemories (pendCp ready1000 0) { pendCp ready1000 0 with zeroed := 60, bufL := [(55, 1)] }
      ∧ memWf (pendCp ready1000 0) = true ∧ memWf { pendCp ready1000 0 with zeroed := 60, bufL := [(55, 1)] } = true
      ∧ SameWordsInUse (pendCp ready1000 0) { pendCp ready1000 0 with zeroed := 60, bufL := [(55, 1)] } := by
  refine ⟨by decide, by decide, by decide, ?_⟩
  intro x i hi
  have h50 : i < 50 := hi
  have h60 : i < 60 := by omega
  have h55 : ¬ 55 = i := by omega
  cases x <;> simp [wordAt, unlistedWord, State.buf, pendCp, pend, ready1000, State.reset, Memory.lookup, h50, h60, h55]

/-- EveryStepKeepsTheInvariant, EveryStepCompletes, RunsPerformEveryTransaction: a state with transactions of every port pending. -/
theorem witness_run : Inv (pend p1Beat3 [.cp 0, .sp 0, .rst, .cp 1]) :=
  ⟨by decide, by decide, by decide, by decide, by decide⟩

/-- StoredNansStayCanonical: with a NaN stored. -/
theorem witness_storedNan :
    NaNsCanonical { p1Beat3 with fbl := 0x7FC00000, bufL := [(0, 0x7FC00000)] } := by decide

/-- ErrorBitsAreSticky, OnlyPrepareChangesReadiness, ParametersChangeOnlyByTheirWrites: a transaction that is none of those excepted. -/
theorem witness_neither (q : Instr → Prop) (h : ¬ q .nop) : NeitherResetNor (.cp 0) q := by
  refine ⟨by decide, fun i hi => ?_⟩
  have : i = .nop := by
    have h0 : decodeTransaction (.cp 0) = some (.ok .nop) := by decide
    rw [h0] at hi; cases hi; rfl
  exact this ▸ h

/-- ErrorsHaveOneCauseEach: each bit raised by its cause. -/
theorem witness_causes :
    ((nextOf (step (pendCp State.reset 0x0200000400000001))).map (·.errPrep) = some true)
      ∧ ((nextOf (step (pend State.reset [.sp 0]))).map (·.errNrdy) = some true)
      ∧ ((nextOf (step (pendCp State.reset 1))).map (·.errAcc) = some true) := by decide

/-- AssemblerExpandsPseudoInstructions, each clause: writable registers, a float literal that is a command, read-only registers, values that are no
command, and a name that no register has. -/
theorem witness_assembler :
    writeInstr .mode 0xFFFFFFFF = .ok (.wrMode 0xFFFFFFFF) ∧ writeInstr .ctrl (litBits (.pattern 8)) = .ok .cmdErrclr
      ∧ writeInstr .dryWet (litBits (.decimal true 1 2)) = .ok (.wrDrywet 0xBF000000) ∧ regAccess .id = .ro ∧ regAccess .fbr = .ro
      ∧ ((3 : Word) ≠ 0 ∧ (3 : Word) ≠ 1 ∧ (3 : Word) ≠ 2 ∧ (3 : Word) ≠ 4 ∧ (3 : Word) ≠ 8)
      ∧ ∀ reg : Reg, ['g'].map Char.toUpper ≠ (regName reg).toList := by
  refine ⟨by decide, by decide, by decide +kernel, by decide, by decide, by decide, fun reg => ?_⟩
  cases reg <;> decide

/-- BridgeIsLittleEndian: an address between two registers and the last address. -/
theorem witness_bridge (a : BitVec 8) (h : a = 0x1C ∨ a = 0xFF) (q : Reg) :
    a.toNat < (regAddr q).toNat ∨ (regAddr q).toNat + 4 ≤ a.toNat := by
  rcases h with rfl | rfl <;> cases q <;> decide

end Sys2Proof.Tests
end

/-! ## The delay memories: what an instruction reads of them and changes (10_state.md R39, R40, 70_reset_and_hazards.md R312) -/

namespace Sys2Proof.Machine

/-! ### The memories as one part of the state -/

/-- The state `s` with the delay memories of `u`, and `u`'s record of them. -/
def State.withMemoriesOf (s u : State) : State :=
  { s with bufL := u.bufL, bufR := u.bufR, zeroed := u.zeroed, resets := u.resets }

/-- An update that neither reads nor changes the delay memories, nor changes the capacity. -/
structure MemoryBlind (f : State → State) : Prop where
  commutes : ∀ s u : State, f (s.withMemoriesOf u) = (f s).withMemoriesOf u
  capacity : ∀ s, (f s).capacity = s.capacity

theorem MemoryBlind.eq_withMemoriesOf {f : State → State} (hf : MemoryBlind f) (s : State) : f s = (f s).withMemoriesOf s :=
  hf.commutes s s

theorem MemoryBlind.wordAt {f : State → State} (hf : MemoryBlind f) (s : State) : wordAt (f s) = wordAt s := by
  rw [hf.eq_withMemoriesOf]
  exact wordAt_congr rfl rfl rfl rfl

theorem MemoryBlind.memWf {f : State → State} (hf : MemoryBlind f) (s : State) : memWf (f s) = memWf s := by
  rw [hf.eq_withMemoriesOf]
  exact memWf_congr rfl rfl rfl rfl

theorem memoryBlind_setPending (ts : List Transaction) : MemoryBlind fun s => { s with pending := ts } :=
  ⟨fun _ _ => rfl, fun _ => rfl⟩

theorem memoryBlind_reply (r : CpReply) : MemoryBlind (State.reply r) := ⟨fun _ _ => rfl, fun _ => rfl⟩

theorem memoryBlind_performIllegal (w : PortWord) : MemoryBlind (performIllegal w) := ⟨fun _ _ => rfl, fun _ => rfl⟩

theorem memoryBlind_zeroTransient : MemoryBlind zeroTransient := ⟨fun _ _ => rfl, fun _ => rfl⟩

theorem memoryBlind_sampleBypass (l r : F32) : MemoryBlind (sampleBypass l r) := ⟨fun _ _ => rfl, fun _ => rfl⟩

theorem memoryBlind_sampleFinish (q : Snapshot) (l r yL yR : F32) : MemoryBlind (sampleFinish q l r yL yR) :=
  ⟨fun s u => by rw [sampleFinish_eq, sampleFinish_eq]; rfl, fun s => by rw [sampleFinish_eq]⟩

/-- The instructions that read or write a delay memory, or set its capacity. -/
def Instr.usesMemory : Instr → Bool
  | .cmdPrepare | .cmdClear | .sample _ _ => true
  | _ => false

/-- Every other instruction completes in every state, with an update that leaves the memories alone. -/
theorem exec_memoryBlind {i : Instr} (h : Instr.usesMemory i = false) :
    ∃ f, MemoryBlind f ∧ ∀ s, exec i s = .next (f s) := by
  cases i with
  | cmdPrepare | cmdClear | sample => cases h
  | _ => refine ⟨_, ?_, fun _ => rfl⟩; exact ⟨fun _ _ => rfl, fun _ => rfl⟩

/-- The instructions by what they do with the memories: nothing, PREPARE, CLEAR, SAMPLE. -/
theorem Instr.usesMemory_cases (i : Instr) :
    Instr.usesMemory i = false ∨ i = .cmdPrepare ∨ i = .cmdClear ∨ ∃ l r, i = .sample l r := by
  cases i with
  | cmdPrepare => exact .inr (.inl rfl)
  | cmdClear => exact .inr (.inr (.inl rfl))
  | sample l r => exact .inr (.inr (.inr ⟨l, r, rfl⟩))
  | _ => exact .inl rfl

/-! ### PREPARE and CLEAR -/

theorem clear_eq (s : State) : clear s = zeroTransient (s.zeroWords (capacityNat s)) := rfl

theorem wordAt_clear (s : State) (x : Channel) (i : Nat) :
    wordAt (clear s) x i = if i < capacityNat s then posZero else wordAt s x i := by
  rw [clear_eq, memoryBlind_zeroTransient.wordAt, wordAt_zeroWords]

theorem memWf_clear {s : State} (h : memWf s = true) : memWf (clear s) = true := by
  rw [clear_eq, memoryBlind_zeroTransient.memWf, memWf_zeroWords h]

theorem prepare_of_ok {s : State} (h : prepareOk params s.srate.toNat = true) :
    prepare params s = prepareSuccess params (zeroTransient s) := by simp [prepare, h]

theorem prepare_of_not_ok {s : State} (h : prepareOk params s.srate.toNat = false) :
    prepare params s = prepareFailure (zeroTransient s) := by simp [prepare, h]

/-- A rate that PREPARE accepts gives a capacity of at least 50 words that the memories hold (44_control.md R241). -/
theorem prepareCapacity_bounds {sr : Nat} (h : prepareOk params sr = true) :
    50 ≤ prepareCapacity params sr ∧ prepareCapacity params sr ≤ params.dlDepth := by
  rw [prepareOk_params] at h
  rw [prepareCapacity_params]
  have hd : params.dlDepth = 32768 := rfl
  omega

theorem capacityNat_prepareSuccess {s : State} (h : prepareOk params s.srate.toNat = true) :
    capacityNat (prepareSuccess params s) = prepareCapacity params s.srate.toNat := by
  have hd : params.dlDepth = 32768 := rfl
  have := (prepareCapacity_bounds h).2
  rw [capacityNat, prepareSuccess_capacity, BitVec.toNat_ofNat, Nat.mod_eq_of_lt (by omega)]

theorem wordAt_prepareSuccess (s : State) (x : Channel) (i : Nat) :
    wordAt (prepareSuccess params s) x i
      = if i < prepareCapacity params s.srate.toNat then posZero else wordAt s x i :=
  (congrFun (congrFun (wordAt_congr rfl rfl rfl rfl) x) i).trans (wordAt_zeroWords s _ x i)

theorem memWf_prepareSuccess {s : State} (h : memWf s = true) : memWf (prepareSuccess params s) = true :=
  (memWf_congr rfl rfl rfl rfl).trans (memWf_zeroWords h (prepareCapacity params s.srate.toNat))

theorem wordAt_prepareFailure (s : State) : wordAt (prepareFailure s) = wordAt s := wordAt_congr rfl rfl rfl rfl

theorem memWf_prepareFailure (s : State) : memWf (prepareFailure s) = memWf s := memWf_congr rfl rfl rfl rfl

/-! ### SAMPLE -/

theorem exec_sample_notReady {s : State} (h : s.ready = false) (l r : F32) :
    exec (.sample l r) s = .next (sampleBypass l r s) := by
  simp [exec, execSample, sampleStep, h]

theorem exec_sample_ready_iff {s t : State} (h : s.ready = true) (l r : F32) :
    exec (.sample l r) s = .next t ↔ samplePrepared params l r s = .ok t := by
  simp only [exec, execSample, sampleStep, h, if_true]
  cases samplePrepared params l r s <;> simp [outcomeOf]

/-! ### Steps, by what the pending transaction decodes to -/

theorem step_of_instr {s : State} {tr : Transaction} {rest : List Transaction} {i : Instr} (hp : s.pending = tr :: rest)
    (hd : decodeTransaction tr = some (.ok i)) : step s = exec i { s with pending := rest } := by
  rw [step_eq hp]
  cases tr with
  | rst => cases hd
  | sp b => cases hd; rfl
  | cp w =>
    rw [decodeTransaction, Option.some.injEq] at hd
    simp only [fetchedOf, fetchedCp, hd]

theorem step_of_illegal {s : State} {w : PortWord} {rest : List Transaction} {k : IllegalKind} (hp : s.pending = .cp w :: rest)
    (hd : decodeCp w = .error k) : step s = .next (performIllegal w { s with pending := rest }) := by
  rw [step_eq hp]
  simp only [fetchedOf, fetchedCp, hd]

/-! ### Two states that no observer tells apart -/

/-- Two states in canonical form that agree on all but the delay words outside those in use. -/
structure ObservedAlike (s t : State) : Prop where
  wf_left : memWf s = true
  wf_right : memWf t = true
  same : SameButMemories s t
  words : SameWordsInUse s t

namespace ObservedAlike

variable {s t : State}

/-- The second of two such states is the first with other memories. -/
theorem exists_withMemoriesOf (h : ObservedAlike s t) : ∃ u, t = s.withMemoriesOf u := ⟨t, h.same.symm⟩

theorem capacityNat_eq (h : ObservedAlike s t) : capacityNat t = capacityNat s := by
  obtain ⟨u, rfl⟩ := h.exists_withMemoriesOf
  rfl

/-- An update that leaves the memories alone keeps the relation. -/
theorem map {f : State → State} (hf : MemoryBlind f) (h : ObservedAlike s t) : ObservedAlike (f s) (f t) where
  wf_left := by rw [hf.memWf, h.wf_left]
  wf_right := by rw [hf.memWf, h.wf_right]
  same := by
    obtain ⟨u, rfl⟩ := h.exists_withMemoriesOf
    rw [hf.commutes]
    rfl
  words x i hi := by
    rw [hf.wordAt, hf.wordAt]
    exact h.words x i (by rwa [capacityNat, hf.capacity] at hi)

/-- A reset leaves no word in use. -/
theorem hardwareReset (h : ObservedAlike s t) : ObservedAlike (hardwareReset s) (hardwareReset t) where
  wf_left := memWf_hardwareReset s
  wf_right := memWf_hardwareReset t
  same := by obtain ⟨u, rfl⟩ := h.exists_withMemoriesOf; rfl
  words _ i hi := absurd hi (Nat.not_lt_zero i)

theorem clear (h : ObservedAlike s t) : ObservedAlike (clear s) (clear t) where
  wf_left := memWf_clear h.wf_left
  wf_right := memWf_clear h.wf_right
  same := by obtain ⟨u, rfl⟩ := h.exists_withMemoriesOf; rfl
  words x i hi := by
    replace hi : i < capacityNat s := hi
    rw [wordAt_clear, wordAt_clear, h.capacityNat_eq, if_pos hi, if_pos hi]

/-- The words in use after a successful PREPARE are those it has zeroed. -/
theorem prepareSuccess (h : ObservedAlike s t) (hok : prepareOk params s.srate.toNat = true) :
    ObservedAlike (prepareSuccess params s) (prepareSuccess params t) where
  wf_left := memWf_prepareSuccess h.wf_left
  wf_right := memWf_prepareSuccess h.wf_right
  same := by obtain ⟨u, rfl⟩ := h.exists_withMemoriesOf; rfl
  words x i hi := by
    have hsr : t.srate = s.srate := by obtain ⟨u, rfl⟩ := h.exists_withMemoriesOf; rfl
    rw [capacityNat_prepareSuccess hok] at hi
    rw [wordAt_prepareSuccess, wordAt_prepareSuccess, hsr, if_pos hi, if_pos hi]

theorem prepareFailure (h : ObservedAlike s t) : ObservedAlike (prepareFailure s) (prepareFailure t) where
  wf_left := by rw [memWf_prepareFailure, h.wf_left]
  wf_right := by rw [memWf_prepareFailure, h.wf_right]
  same := by obtain ⟨u, rfl⟩ := h.exists_withMemoriesOf; rfl
  words _ i hi := absurd hi (Nat.not_lt_zero i)

theorem prepare (h : ObservedAlike s t) : ObservedAlike (prepare params s) (prepare params t) := by
  have hsr : t.srate = s.srate := by obtain ⟨u, rfl⟩ := h.exists_withMemoriesOf; rfl
  have hz := h.map memoryBlind_zeroTransient
  cases hok : prepareOk params s.srate.toNat with
  | true => rw [prepare_of_ok hok, prepare_of_ok (by rwa [hsr])]; exact hz.prepareSuccess hok
  | false => rw [prepare_of_not_ok hok, prepare_of_not_ok (by rwa [hsr])]; exact hz.prepareFailure

/-- Both states have the same words written at the same index. -/
theorem sampleWritten (h : ObservedAlike s t) (l r : F32) : ObservedAlike (sampleWritten l r s) (sampleWritten l r t) where
  wf_left := memWf_sampleWritten h.wf_left l r
  wf_right := memWf_sampleWritten h.wf_right l r
  same := by obtain ⟨u, rfl⟩ := h.exists_withMemoriesOf; rfl
  words x i hi := by
    have hw := h.words x i hi
    rw [wordAt_sampleWritten h.wf_left, wordAt_sampleWritten h.wf_right, hw]
    obtain ⟨u, rfl⟩ := h.exists_withMemoriesOf
    rfl

/-- An interpolated read answers the same word in both. -/
theorem dlReadInterp_eq (h : ObservedAlike s t) {p : Config.Params} {x : Channel} {d y : F32}
    (hr : dlReadInterp p x d s = .ok y) : dlReadInterp p x d t = .ok y := by
  have hw := h.words x
  obtain ⟨u, rfl⟩ := h.exists_withMemoriesOf
  exact dlReadInterp_congr (s := s) rfl rfl hw hr

/-- A prepared sample step that completes in one completes in the other, with the same feedback and output. -/
theorem samplePrepared {s' : State} (h : ObservedAlike s t) {l r : F32} (hs : samplePrepared params l r s = .ok s') :
    ∃ t', samplePrepared params l r t = .ok t' ∧ ObservedAlike s' t' := by
  obtain ⟨hin, yL, yR, hL, hR, rfl⟩ := (samplePrepared_ok_iff ..).1 hs
  have hw := h.sampleWritten l r
  have hf := hw.map (memoryBlind_sampleFinish (snapshot s) l r yL yR)
  replace hL := hw.dlReadInterp_eq hL
  replace hR := hw.dlReadInterp_eq hR
  obtain ⟨u, rfl⟩ := h.exists_withMemoriesOf
  exact ⟨_, (samplePrepared_ok_iff ..).2 ⟨hin, yL, yR, hL, hR, rfl⟩, hf⟩

theorem exec_sample {s' : State} (h : ObservedAlike s t) {l r : F32} (hs : exec (.sample l r) s = .next s') :
    ∃ t', exec (.sample l r) t = .next t' ∧ ObservedAlike s' t' := by
  have hrdy : t.ready = s.ready := by obtain ⟨u, rfl⟩ := h.exists_withMemoriesOf; rfl
  cases hr : s.ready with
  | false =>
    rw [exec_sample_notReady hr] at hs
    cases hs
    exact ⟨_, exec_sample_notReady (hrdy.trans hr) l r, h.map (memoryBlind_sampleBypass l r)⟩
  | true =>
    obtain ⟨t', ht, h'⟩ := h.samplePrepared ((exec_sample_ready_iff hr l r).1 hs)
    exact ⟨t', (exec_sample_ready_iff (hrdy.trans hr) l r).2 ht, h'⟩

theorem exec {s' : State} {i : Instr} (h : ObservedAlike s t) (hs : exec i s = .next s') :
    ∃ t', exec i t = .next t' ∧ ObservedAlike s' t' := by
  rcases Instr.usesMemory_cases i with hi | rfl | rfl | ⟨l, r, rfl⟩
  · obtain ⟨f, hf, hex⟩ := exec_memoryBlind hi
    rw [hex] at hs
    cases hs
    exact ⟨_, hex t, h.map hf⟩
  · cases hs
    exact ⟨_, rfl, h.prepare.map (memoryBlind_reply .ack)⟩
  · cases hs
    exact ⟨_, rfl, h.clear.map (memoryBlind_reply .ack)⟩
  · exact h.exec_sample hs

theorem step {s' : State} (h : ObservedAlike s t) (hs : step s = .next s') :
    ∃ t', step t = .next t' ∧ ObservedAlike s' t' := by
  have hpend : t.pending = s.pending := by obtain ⟨u, rfl⟩ := h.exists_withMemoriesOf; rfl
  rcases step_cases hs with ⟨hp, rfl⟩ | ⟨tr, rest, hp, hcase⟩
  · exact ⟨t, step_idle (hpend.trans hp), h⟩
  · have hrest := h.map (memoryBlind_setPending rest)
    replace hp := hpend.trans hp
    rcases hcase with ⟨rfl, rfl⟩ | ⟨w, k, rfl, hd, rfl⟩ | ⟨i, hd, hex⟩
    · exact ⟨_, step_eq hp, hrest.hardwareReset⟩
    · exact ⟨_, step_of_illegal hp hd, hrest.map (memoryBlind_performIllegal w)⟩
    · rw [step_of_instr hp hd]
      exact hrest.exec hex

end ObservedAlike

/-- Settles O45: whatever a step does in the first state it does in the second, since it reads only words in use and writes the same
words in both. -/
theorem unusedWordsAreNeverObserved : Obligations.UnusedWordsAreNeverObserved := by
  unfold Obligations.UnusedWordsAreNeverObserved
  intro s t s' hs ht hsame hwords hstep
  obtain ⟨t', ht', h'⟩ := (ObservedAlike.mk hs ht hsame hwords).step hstep
  exact ⟨t', ht', h'.same, h'.words, h'.wf_left, h'.wf_right⟩

/-! ### Words above the capacity -/

/-- An instruction changes no word at or above both the old and the new capacity (10_state.md R39). -/
theorem wordAt_exec_above {i : Instr} {s t : State} (h : exec i s = .next t) (hwf : memWf s = true) (x : Channel) {j : Nat}
    (hs : capacityNat s ≤ j) (ht : capacityNat t ≤ j) : wordAt t x j = wordAt s x j := by
  rcases Instr.usesMemory_cases i with hi | rfl | rfl | ⟨l, r, rfl⟩
  · obtain ⟨f, hf, hex⟩ := exec_memoryBlind hi
    cases (hex s).symm.trans h
    rw [hf.wordAt]
  · cases h
    replace ht : capacityNat (prepare params s) ≤ j := ht
    rw [(memoryBlind_reply .ack).wordAt]
    cases hok : prepareOk params s.srate.toNat with
    | true =>
      rw [prepare_of_ok hok, capacityNat_prepareSuccess (s := zeroTransient s) hok] at ht
      rw [prepare_of_ok hok, wordAt_prepareSuccess, if_neg (Nat.not_lt.2 ht), memoryBlind_zeroTransient.wordAt]
    | false => rw [prepare_of_not_ok hok, wordAt_prepareFailure, memoryBlind_zeroTransient.wordAt]
  · cases h
    rw [(memoryBlind_reply .ack).wordAt, wordAt_clear, if_neg (Nat.not_lt.2 hs)]
  · cases hr : s.ready with
    | false =>
      cases (exec_sample_notReady hr l r).symm.trans h
      rw [(memoryBlind_sampleBypass l r).wordAt]
    | true =>
      obtain ⟨⟨-, hwh⟩, yL, yR, -, -, rfl⟩ := (samplePrepared_ok_iff ..).1 ((exec_sample_ready_iff hr l r).1 h)
      rw [wordAt_sampleFinish, wordAt_sampleWritten hwf, if_neg (by omega)]

/-- Settles O44: PREPARE and CLEAR zero only words below a capacity, and SAMPLE writes at the write head, below `C`. -/
theorem wordsAboveCapacityAreNotTouched : Obligations.WordsAboveCapacityAreNotTouched := by
  unfold Obligations.WordsAboveCapacityAreNotTouched
  intro s t tr rest hwf hp hne hstep x j hs ht
  have hpend := (memoryBlind_setPending rest).wordAt s
  rcases step_cases hstep with ⟨h0, -⟩ | ⟨tr', rest', hp', hcase⟩
  · rw [h0] at hp; cases hp
  · cases hp.symm.trans hp'
    rcases hcase with ⟨h, -⟩ | ⟨w, k, -, -, rfl⟩ | ⟨i, -, hex⟩
    · exact absurd h hne
    · rw [(memoryBlind_performIllegal w).wordAt, hpend]
    · rw [wordAt_exec_above hex hwf x hs ht, hpend]

end Sys2Proof.Machine

/-! ## The invariant of the block (10_state.md R27 to R30, R38, R43; 42_oscillator.md R173) -/

namespace Sys2Proof.Machine

/-! ### The clamp of a parameter -/

theorem paramInRange_default (q : Param) : paramInRange q (paramDefault q) := by cases q <;> decide

theorem paramInRange_lo (q : Param) : paramInRange q (paramLo q) := by cases q <;> decide

theorem paramInRange_hi (q : Param) : paramInRange q (paramHi q) := by cases q <;> decide

/-- The bounds of a parameter are finite numbers without the sign bit. -/
theorem paramHi_lt_infPat (q : Param) : (paramHi q).toNat < infPat := by cases q <;> decide

theorem paramLo_le_paramHi (q : Param) : (paramLo q).toNat ≤ (paramHi q).toNat := (paramInRange_lo q).2

/-- Among numbers without the sign bit, `<=` is the order of the patterns (40_numerics.md R125). -/
theorem leF_iff_toNat {a b : F32} (ha : a.toNat < infPat) (hb : b.toNat < infPat) : leF a b = true ↔ a.toNat ≤ b.toNat := by
  have hinf : infPat < 2 ^ 31 := by decide
  rw [leF_iff (valF_of_toNat ha).2 (valF_of_toNat hb).2,
    valF_le_iff_toNat (nonneg_of_toNat_lt (by omega)).1 (nonneg_of_toNat_lt (by omega)).1]

/-- What the clamp answers is in range (10_state.md R38, 40_numerics.md R135). -/
theorem paramInRange_clampParam (q : Param) (v : F32) : paramInRange q (clampParam q v) := by
  have hhi := paramHi_lt_infPat q
  have hlo := paramLo_le_paramHi q
  have hinf : infPat < 2 ^ 31 := by decide
  unfold clampParam
  split
  · exact paramInRange_default q
  split
  · exact paramInRange_lo q
  split
  · exact paramInRange_hi q
  next hnan hle hge =>
    have hnan : isNaNF v = false := by simpa using hnan
    have hlt : valF (paramLo q) < valF v := by
      have := isNaNF_of_finite (valF_of_toNat (lt_of_le_of_lt hlo hhi)).2
      simpa [leF, hnan, this] using hle
    have hgt : valF v < valF (paramHi q) := by
      have := isNaNF_of_finite (valF_of_toNat hhi).2
      simpa [geF, leF, hnan, this] using hge
    have hs : signF v = false := by
      refine signF_of_valF_pos (lt_of_le_of_lt ?_ hlt)
      rw [(valF_of_toNat (lt_of_le_of_lt hlo hhi)).1]
      positivity
    rw [valF_lt_iff_toNat (nonneg_of_toNat_lt (by omega)).1 hs] at hlt
    rw [valF_lt_iff_toNat hs (nonneg_of_toNat_lt (by omega)).1] at hgt
    exact ⟨hlt.le, hgt.le⟩

/-- The clamp keeps a value that is in range (40_numerics.md R135). -/
theorem clampParam_of_inRange {q : Param} {v : F32} (h : paramInRange q v) : clampParam q v = v := by
  obtain ⟨hlo, hhi⟩ := h
  have hinf := paramHi_lt_infPat q
  have hnan : isNaNF v = false := isNaNF_of_finite (valF_of_toNat (by omega)).2
  unfold clampParam
  rw [hnan, if_neg Bool.false_ne_true]
  simp only [geF, leF_iff_toNat (a := v) (b := paramLo q) (by omega) (by omega),
    leF_iff_toNat (a := paramHi q) (b := v) hinf (by omega)]
  split
  · next hle => exact BitVec.eq_of_toNat_eq (by omega)
  split
  · next hge => exact BitVec.eq_of_toNat_eq (by omega)
  · rfl

/-- The write of a clamped parameter stores the clamped pattern (44_control.md R248 to R252). -/
theorem exec_paramWrite (q : Param) (v : Word) (s : State) :
    exec (paramWrite q v) s = .next (State.reply .ack (s.setParam q (clampParam q v))) := by cases q <;> rfl

theorem exec_paramWrite_of_inRange {q : Param} {v : Word} (h : paramInRange q v) (s : State) :
    exec (paramWrite q v) s = .next (State.reply .ack (s.setParam q v)) := by
  rw [exec_paramWrite, clampParam_of_inRange h]

theorem modeOf_modeWord (m : Mode) : modeOf (modeWord m) = m := by cases m <;> rfl

/-- A `MODE` write of the value `MODE` reads as keeps the topology (44_control.md R233, R253). -/
theorem exec_wrMode_modeWord (s : State) : exec (.wrMode (modeWord s.mode)) s = .next (s.reply .ack) := by
  show Host.Outcome.next (State.reply .ack { s with mode := modeOf (modeWord s.mode) }) = _
  rw [modeOf_modeWord]

/-- Settles O16: the clamp keeps a value in range, and `MODE` reads as the value that selects it. -/
theorem writingBackAReadKeepsTheParameters : Obligations.WritingBackAReadKeepsTheParameters := by
  unfold Obligations.WritingBackAReadKeepsTheParameters
  intro s h
  obtain ⟨hdw, hd, hr, hp, hf⟩ := h
  exact ⟨exec_paramWrite_of_inRange hdw s, exec_paramWrite_of_inRange hd s, exec_paramWrite_of_inRange hr s,
    exec_paramWrite_of_inRange hp s, exec_paramWrite_of_inRange hf s, exec_wrMode_modeWord s⟩

/-! ### The phase stays below 1.0 -/

theorem two_mul_valF_halfF : 2 * valF halfF = unitF := by decide +kernel

/-- The increment of the phase lies from 0 to one half (42_oscillator.md R171; it is at most 0.02). -/
theorem lfoIncrement_bounds {rate : F32} {sr : Nat} (hr : paramInRange .rate rate) (h1 : 1000 ≤ sr) (h2 : sr ≤ 384000) :
    isFiniteF (divF rate (toF32 sr)) = true ∧ 0 ≤ valF (divF rate (toF32 sr))
      ∧ valF (divF rate (toF32 sr)) ≤ valF halfF := by
  obtain ⟨hfin, hs, hv⟩ := toF32_exact (n := sr) (by omega)
  have hhi : rate.toNat ≤ 0x41A00000 := hr.2
  obtain ⟨hrv, hrf⟩ := valF_of_toNat (a := rate) (lt_of_le_of_lt hhi (by decide))
  have hrs : signF rate = false := (nonneg_of_toNat_lt (lt_of_le_of_lt hhi (by decide))).1
  have h20 : valF rate ≤ 20 * unitF := by
    have : valF 0x41A00000 = 20 * unitF := by decide +kernel
    rw [← this, valF_le_iff_toNat hrs (by decide)]
    exact hhi
  have hr0 : 0 ≤ valF rate := by rw [hrv]; positivity
  have hu : (0 : Int) < unitF := by exact_mod_cast unitF_pos
  have hsr : (1000 : Int) ≤ sr := by exact_mod_cast h1
  have hz : isZeroF (toF32 sr) = false := by
    by_contra hz
    have hp : absPat (toF32 sr) = 0 := by simpa [isZeroF] using hz
    rw [valF_of_nonneg hs, hp, magOfPat_zero] at hv
    have := Int.mul_pos (by omega : (0 : Int) < sr) hu
    omega
  have hup : valF rate * unitF ≤ valF halfF * valF (toF32 sr) := by
    have hhalf := two_mul_valF_halfF
    have hh : 0 ≤ valF halfF := by omega
    calc valF rate * unitF ≤ 20 * unitF * unitF := Int.mul_le_mul_of_nonneg_right h20 hu.le
      _ = valF halfF * (40 * unitF) := by linear_combination -20 * (unitF : Int) * hhalf
      _ ≤ valF halfF * (sr * unitF) :=
        Int.mul_le_mul_of_nonneg_left (Int.mul_le_mul_of_nonneg_right (by omega) hu.le) hh
      _ = valF halfF * valF (toF32 sr) := by rw [hv]
  obtain ⟨hd, hd0, hd1, -⟩ := divF_between (lo := posZero) (hi := halfF) hrf hfin hrs hs hz (by decide) (by decide)
    (by rw [valF_posZero, Int.zero_mul]; positivity) hup
  exact ⟨hd, valF_posZero ▸ hd0, hd1⟩

/-- A phase in `[+0, 1.0)` advances to a phase in `[+0, 1.0)`, never `-0` or NaN (42_oscillator.md R173). -/
theorem nextPhase_lt_one {ph inc : F32} (hp : ph.toNat < 0x3F800000) (hi : isFiniteF inc = true) (h0 : 0 ≤ valF inc)
    (h1 : valF inc ≤ valF halfF) : (nextPhase ph inc).toNat < 0x3F800000 := by
  obtain ⟨hpv, hpf⟩ := valF_of_toNat (a := ph) (lt_trans hp (by decide))
  have hps : signF ph = false := (nonneg_of_toNat_lt (lt_trans hp (by decide))).1
  have hp0 : 0 ≤ valF ph := by rw [hpv]; positivity
  have hp1 : valF ph < valF oneF := (valF_lt_iff_toNat hps (by decide)).2 hp
  have hhalf := two_mul_valF_halfF
  have hone := valF_oneF
  have hbound : valF 0x3FC00000 = valF oneF + valF halfF := by decide +kernel
  -- the sum lies from 0 to 1.5, and is not -0
  obtain ⟨hsf, hs0, hs1⟩ := addF_between (lo := posZero) (hi := 0x3FC00000) hpf hi (by decide) (by decide)
    (by rw [valF_posZero]; omega) (by omega)
  have hss : signF (addF ph inc) = false := signF_addF_of_nonneg hpf hi hps (by omega)
  unfold nextPhase
  split
  · next hge =>
    rw [geF_iff hsf (by decide)] at hge
    obtain ⟨-, -, hd1⟩ := subF_between (lo := posZero) (hi := halfF) (a := addF ph inc) (b := oneF) hsf (by decide) (by decide)
      (by decide) (by rw [valF_posZero]; omega) (by omega)
    have hds : signF (subF (addF ph inc) oneF) = false :=
      signF_addF_of_nonneg hsf (by decide) hss (by rw [valF_negF]; omega)
    exact lt_of_le_of_lt ((valF_le_iff_toNat hds (by decide)).1 hd1) (by decide)
  · next hge =>
    rw [geF_iff hsf (by decide)] at hge
    exact (valF_lt_iff_toNat hss (b := oneF) (by decide)).1 (by omega)

/-! ### The invariant -/

/-- The state with every field that the invariant does not speak of at its reset value. -/
def State.invariantPart (s : State) : State :=
  { s with
    errPrep := false, errNrdy := false, errAcc := false, srate := 0, maxblk := 0, mode := .chorus
    pending := [], cpOut := [], spOut := [] }

theorem inv_invariantPart_iff (s : State) : Inv s.invariantPart ↔ Inv s :=
  ⟨fun h => ⟨h.paramsInRange, h.phaseInRange, h.readyShape, h.notReadyShape, h.memoryShape⟩,
    fun h => ⟨h.paramsInRange, h.phaseInRange, h.readyShape, h.notReadyShape, h.memoryShape⟩⟩

namespace Inv

variable {s t : State}

/-- An update of fields that the invariant does not speak of keeps it. -/
theorem of_invariantPart_eq (h : Inv s) (heq : t.invariantPart = s.invariantPart) : Inv t := by
  rwa [← inv_invariantPart_iff, heq, inv_invariantPart_iff]

theorem reset : Inv State.reset := ⟨by decide, by decide, by decide, by decide, by decide⟩

theorem hardwareReset (s : State) : Inv (hardwareReset s) :=
  ⟨reset.paramsInRange, reset.phaseInRange, reset.readyShape, reset.notReadyShape, reset.memoryShape⟩

theorem setParam (h : Inv s) {q : Param} {v : F32} (hv : paramInRange q v) : Inv (s.setParam q v) := by
  obtain ⟨hdw, hd, hr, hp, hf⟩ := h.paramsInRange
  cases q
  · exact ⟨⟨hv, hd, hr, hp, hf⟩, h.phaseInRange, h.readyShape, h.notReadyShape, h.memoryShape⟩
  · exact ⟨⟨hdw, hv, hr, hp, hf⟩, h.phaseInRange, h.readyShape, h.notReadyShape, h.memoryShape⟩
  · exact ⟨⟨hdw, hd, hv, hp, hf⟩, h.phaseInRange, h.readyShape, h.notReadyShape, h.memoryShape⟩
  · exact ⟨⟨hdw, hd, hr, hv, hf⟩, h.phaseInRange, h.readyShape, h.notReadyShape, h.memoryShape⟩
  · exact ⟨⟨hdw, hd, hr, hp, hv⟩, h.phaseInRange, h.readyShape, h.notReadyShape, h.memoryShape⟩

theorem restoreDefaults (h : Inv s) : Inv (restoreDefaults s) where
  paramsInRange := ⟨paramInRange_default _, paramInRange_default _, paramInRange_default _, paramInRange_default _,
    paramInRange_default _⟩
  phaseInRange := h.phaseInRange
  readyShape := h.readyShape
  notReadyShape := h.notReadyShape
  memoryShape := h.memoryShape

theorem zeroWords (h : Inv s) {c : Nat} (hc : c ≤ params.dlDepth) : Inv (s.zeroWords c) where
  paramsInRange := h.paramsInRange
  phaseInRange := h.phaseInRange
  readyShape := h.readyShape
  notReadyShape := h.notReadyShape
  memoryShape := by
    obtain ⟨hwf, hl, hr, hcap, hz⟩ := h.memoryShape
    exact ⟨memWf_zeroWords hwf c, fun d hd => lt_of_lt_of_le (hl d (Memory.mem_zeroBelow hd).2) (le_max_left _ _),
      fun d hd => lt_of_lt_of_le (hr d (Memory.mem_zeroBelow hd).2) (le_max_left _ _), le_max_of_le_left hcap, max_le hz hc⟩

theorem zeroTransient (h : Inv s) : Inv (zeroTransient s) where
  paramsInRange := h.paramsInRange
  phaseInRange := show posZero.toNat < 0x3F800000 by decide
  readyShape hr := by
    obtain ⟨hok, hcap, hpos, hle, -⟩ := h.readyShape hr
    exact ⟨hok, hcap, hpos, hle, hpos⟩
  notReadyShape hr := by
    obtain ⟨hcap, hsr, -⟩ := h.notReadyShape hr
    exact ⟨hcap, hsr, rfl, rfl, rfl, rfl⟩
  memoryShape := h.memoryShape

theorem clear (h : Inv s) : Inv (clear s) := by
  obtain ⟨-, -, -, hcap, hz⟩ := h.memoryShape
  exact (h.zeroWords (hcap.trans hz)).zeroTransient

theorem prepareSuccess (h : Inv s) (hwh : s.wh = 0) (hok : prepareOk params s.srate.toNat = true) :
    Inv (prepareSuccess params s) := by
  obtain ⟨hpos, hle⟩ := prepareCapacity_bounds hok
  have hcap := capacityNat_prepareSuccess hok
  have hz := h.zeroWords hle
  refine ⟨h.paramsInRange, h.phaseInRange, fun _ => ⟨hok, hcap, ?_, ?_, ?_⟩, fun hr => Bool.noConfusion hr, ?_⟩
  · omega
  · omega
  · rw [hcap, prepareSuccess_wh, hwh]
    exact lt_of_lt_of_le (by decide) hpos
  · obtain ⟨hwf, -⟩ := h.memoryShape
    obtain ⟨-, hl, hr, -, hd⟩ := hz.memoryShape
    exact ⟨memWf_prepareSuccess hwf, hl, hr, hcap.trans_le (le_max_right _ _), hd⟩

theorem prepareFailure (h : Inv s) (hwh : s.wh = 0) (hph : s.ph = 0) (hl : s.fbl = 0) (hr : s.fbr = 0) :
    Inv (prepareFailure s) where
  paramsInRange := h.paramsInRange
  phaseInRange := h.phaseInRange
  readyShape hr := by cases hr
  notReadyShape _ := ⟨rfl, rfl, hwh, hph, hl, hr⟩
  memoryShape := by
    obtain ⟨hwf, hl, hr, -, hz⟩ := h.memoryShape
    exact ⟨hwf, hl, hr, Nat.zero_le _, hz⟩

theorem prepare (h : Inv s) : Inv (prepare params s) := by
  cases hok : prepareOk params s.srate.toNat with
  | true => rw [prepare_of_ok hok]; exact h.zeroTransient.prepareSuccess rfl hok
  | false => rw [prepare_of_not_ok hok]; exact h.zeroTransient.prepareFailure rfl rfl rfl rfl

/-- The phase of a prepared step stays in range (42_oscillator.md R173). -/
theorem nextPhase (h : Inv s) (hr : s.ready = true) : (nextPhase s.ph (lfoInc s.rate s)).toNat < 0x3F800000 := by
  obtain ⟨-, -, hrate, -⟩ := h.paramsInRange
  obtain ⟨hok, -⟩ := h.readyShape hr
  obtain ⟨hlo, hhi⟩ := (prepareOk_params _).1 hok
  obtain ⟨hfin, h0, h1⟩ := lfoIncrement_bounds hrate hlo hhi
  exact nextPhase_lt_one h.phaseInRange hfin h0 h1

/-- Writing a word in use and advancing the phase. -/
theorem sampleWritten (h : Inv s) (hr : s.ready = true) (l r : F32) : Inv (sampleWritten l r s) where
  paramsInRange := h.paramsInRange
  phaseInRange := h.nextPhase hr
  readyShape := h.readyShape
  notReadyShape hn := by cases hr.symm.trans hn
  memoryShape := by
    obtain ⟨hwf, hl, hrt, hcap, hz⟩ := h.memoryShape
    obtain ⟨-, -, -, -, hwh⟩ := h.readyShape hr
    refine ⟨memWf_sampleWritten hwf l r, fun c hc => ?_, fun c hc => ?_, hcap, hz⟩
    · rcases Memory.mem_write hc with rfl | hc
      · exact hwh.trans_le hcap
      · exact hl c hc
    · rcases Memory.mem_write hc with rfl | hc
      · exact hwh.trans_le hcap
      · exact hrt c hc

theorem sampleFinish (h : Inv s) (hr : s.ready = true) (q : Snapshot) (l r yL yR : F32) :
    Inv (sampleFinish q l r yL yR s) := by
  obtain ⟨hok, hcap, hpos, hle, -⟩ := h.readyShape hr
  have hwh : nextIndex s s.wh.toNat < capacityNat s := Nat.mod_lt _ hpos
  have hcap32 : capacityNat s < 2 ^ 32 := s.capacity.isLt
  have hmod : (BitVec.ofNat 32 (nextIndex s s.wh.toNat)).toNat < capacityNat s := by
    rwa [BitVec.toNat_ofNat, Nat.mod_eq_of_lt (by omega)]
  rw [sampleFinish_eq]
  exact ⟨h.paramsInRange, h.phaseInRange, fun _ => ⟨hok, hcap, hpos, hle, hmod⟩, fun hn => absurd (hr.symm.trans hn) (by decide),
    h.memoryShape⟩

theorem samplePrepared (h : Inv s) (hr : s.ready = true) {l r : F32} (hs : samplePrepared params l r s = .ok t) : Inv t := by
  obtain ⟨-, yL, yR, -, -, rfl⟩ := (samplePrepared_ok_iff ..).1 hs
  exact (h.sampleWritten hr l r).sampleFinish hr _ l r yL yR

theorem reply (h : Inv s) (r : CpReply) : Inv (s.reply r) := h.of_invariantPart_eq rfl

theorem exec {i : Instr} (h : Inv s) (hs : exec i s = .next t) : Inv t := by
  rcases exec_cases hs with ⟨-, r, rfl⟩ | ⟨v, -, rfl⟩ | ⟨v, -, rfl⟩ | ⟨q, v, -, rfl⟩ | ⟨v, -, rfl⟩ | ⟨-, rfl⟩ | ⟨-, rfl⟩
    | ⟨-, rfl⟩ | ⟨-, rfl⟩ | ⟨l, r, -, -, rfl⟩ | ⟨l, r, -, hr, hs⟩
  · exact h.reply r
  · exact h.of_invariantPart_eq rfl
  · exact h.of_invariantPart_eq rfl
  · exact (h.setParam (paramInRange_clampParam q v)).reply .ack
  · exact h.of_invariantPart_eq rfl
  · exact h.prepare.reply .ack
  · exact h.clear.reply .ack
  · exact h.restoreDefaults.reply .ack
  · exact h.of_invariantPart_eq rfl
  · exact h.of_invariantPart_eq rfl
  · exact h.samplePrepared hr hs

theorem step (h : Inv s) (hs : step s = .next t) : Inv t := by
  rcases step_cases hs with ⟨-, rfl⟩ | ⟨tr, rest, -, ⟨-, rfl⟩ | ⟨w, k, -, -, rfl⟩ | ⟨i, -, hex⟩⟩
  · exact h
  · exact hardwareReset _
  · exact h.of_invariantPart_eq rfl
  · have hrest : Inv { s with pending := rest } := h.of_invariantPart_eq rfl
    exact hrest.exec hex

end Inv

/-- Settles O47: the invariant is kept by each kind of step. -/
theorem everyStepKeepsTheInvariant : Obligations.EveryStepKeepsTheInvariant := by
  unfold Obligations.EveryStepKeepsTheInvariant
  exact fun s t h hs => h.step hs

/-- Settles O46, by evaluating the invariant at the reset state. -/
theorem resetMeetsTheInvariant : Obligations.ResetMeetsTheInvariant := by
  unfold Obligations.ResetMeetsTheInvariant
  exact ⟨Inv.reset, by decide⟩

/-- Settles O24, field by field. -/
theorem resetStateHoldsTheResetValues : Obligations.ResetStateHoldsTheResetValues := by
  unfold Obligations.ResetStateHoldsTheResetValues
  decide

end Sys2Proof.Machine

/-! ## The STATUS bits: what changes them (10_state.md R24, R27, R28, R41, 60_exceptions.md R286, R287) -/

namespace Sys2Proof.Machine

/-! ### Beats come on the sample port alone -/

theorem readInstr_ne_sample (r : Reg) (a b : F32) : readInstr r ≠ .sample a b := by cases r <;> exact nofun

theorem commandInstr_ne_sample (v : Word) (a b : F32) : commandInstr v ≠ .ok (.sample a b) := by
  unfold commandInstr
  split_ifs <;> exact nofun

theorem writeInstr_ne_sample (r : Reg) (v : Word) (a b : F32) : writeInstr r v ≠ .ok (.sample a b) := by
  cases r with
  | ctrl => exact commandInstr_ne_sample v a b
  | _ => exact nofun

/-- Every legal command word is NOP, a read or a write (30_encoding.md R94). -/
theorem decodeCp_ok_cases {w : PortWord} {i : Instr} (h : decodeCp w = .ok i) :
    i = .nop ∨ (∃ r, i = readInstr r) ∨ ∃ r, writeInstr r (CpWord.data w) = .ok i := by
  unfold decodeCp at h
  split at h
  · exact .inl (Except.ok.inj h).symm
  split at h
  · cases h
  split at h
  · cases h
  split at h
  · cases h
  next r _ =>
    split at h
    · split at h
      · cases h
      · exact .inr (.inl ⟨r, (Except.ok.inj h).symm⟩)
    split at h
    · exact .inr (.inr ⟨r, h⟩)
    split at h <;> cases h

/-- A SAMPLE is a beat: no command word decodes to one (30_encoding.md R93). -/
theorem beat_of_decode_sample {tr : Transaction} {l r : F32} (h : decodeTransaction tr = some (.ok (.sample l r))) :
    ∃ b, tr = .sp b := by
  cases tr with
  | sp b => exact ⟨b, rfl⟩
  | rst => cases h
  | cp w =>
    rcases decodeCp_ok_cases (Option.some.inj h) with h | ⟨q, h⟩ | ⟨q, h⟩
    · cases h
    · exact absurd h.symm (readInstr_ne_sample q l r)
    · exact absurd h (writeInstr_ne_sample q _ l r)

/-! ### STATUS, SR_ACT and C -/

/-- The flags of STATUS, `SR_ACT` and `C` are the same in two states. -/
structure StatusKept (s t : State) : Prop where
  ready : t.ready = s.ready
  errPrep : t.errPrep = s.errPrep
  errNrdy : t.errNrdy = s.errNrdy
  errAcc : t.errAcc = s.errAcc
  srAct : t.srAct = s.srAct
  capacity : t.capacity = s.capacity

theorem StatusKept.reply {s t : State} (h : StatusKept s t) (r : CpReply) : StatusKept s (t.reply r) :=
  ⟨h.ready, h.errPrep, h.errNrdy, h.errAcc, h.srAct, h.capacity⟩

theorem statusKept_setParam (q : Param) (v : F32) (s : State) : StatusKept s (s.setParam q v) := by
  cases q <;> exact ⟨rfl, rfl, rfl, rfl, rfl, rfl⟩

theorem statusKept_clear (s : State) : StatusKept s (clear s) := by constructor <;> simp

theorem statusKept_samplePrepared {l r : F32} {s t : State} (h : samplePrepared params l r s = .ok t) : StatusKept s t := by
  obtain ⟨-, yL, yR, -, -, rfl⟩ := (samplePrepared_ok_iff ..).1 h
  constructor <;> simp [sampleFinish_eq, sampleWritten]

/-- An instruction keeps STATUS, `SR_ACT` and `C`, unless it is PREPARE, ERRCLR or a beat while not ready. -/
theorem exec_status_cases {i : Instr} {s t : State} (h : exec i s = .next t) :
    StatusKept s t
    ∨ (i = .cmdPrepare ∧ t = State.reply .ack (prepare params s))
    ∨ (i = .cmdErrclr ∧ t = State.reply .ack s.clearErrors)
    ∨ ∃ l r, i = .sample l r ∧ s.ready = false ∧ t = sampleBypass l r s := by
  rcases exec_cases h with ⟨-, r, rfl⟩ | ⟨v, -, rfl⟩ | ⟨v, -, rfl⟩ | ⟨q, v, -, rfl⟩ | ⟨v, -, rfl⟩ | hprep | ⟨-, rfl⟩
    | ⟨-, rfl⟩ | hclr | hsmp | ⟨l, r, -, -, hs⟩
  · exact .inl ⟨rfl, rfl, rfl, rfl, rfl, rfl⟩
  · exact .inl ⟨rfl, rfl, rfl, rfl, rfl, rfl⟩
  · exact .inl ⟨rfl, rfl, rfl, rfl, rfl, rfl⟩
  · exact .inl ((statusKept_setParam q _ s).reply .ack)
  · exact .inl ⟨rfl, rfl, rfl, rfl, rfl, rfl⟩
  · exact .inr (.inl hprep)
  · exact .inl ((statusKept_clear s).reply .ack)
  · exact .inl ⟨rfl, rfl, rfl, rfl, rfl, rfl⟩
  · exact .inr (.inr (.inl hclr))
  · exact .inr (.inr (.inr hsmp))
  · exact .inl (statusKept_samplePrepared hs)

/-- Everything a step can do to STATUS, `SR_ACT` and `C`, by the transaction it performs. -/
theorem step_status_cases {s t : State} {tr : Transaction} {rest : List Transaction} (hp : s.pending = tr :: rest)
    (h : step s = .next t) :
    StatusKept s t
    ∨ (tr = .rst ∧ t = hardwareReset { s with pending := rest })
    ∨ (decodeTransaction tr = some (.ok .cmdPrepare) ∧ t = State.reply .ack (prepare params { s with pending := rest }))
    ∨ (decodeTransaction tr = some (.ok .cmdErrclr) ∧ t = State.reply .ack { s with pending := rest }.clearErrors)
    ∨ ((∃ b, tr = .sp b) ∧ s.ready = false ∧ ∃ l r, t = sampleBypass l r { s with pending := rest })
    ∨ ∃ w k, tr = .cp w ∧ decodeCp w = .error k ∧ t = performIllegal w { s with pending := rest } := by
  rcases step_cases h with ⟨h0, -⟩ | ⟨tr', rest', hp', hcase⟩
  · cases h0.symm.trans hp
  cases hp.symm.trans hp'
  rcases hcase with hrst | hill | ⟨i, hd, hex⟩
  · exact .inr (.inl hrst)
  · exact .inr (.inr (.inr (.inr (.inr hill))))
  rcases exec_status_cases hex with hk | ⟨rfl, ht⟩ | ⟨rfl, ht⟩ | ⟨l, r, rfl, hr, ht⟩
  · exact .inl ⟨hk.ready, hk.errPrep, hk.errNrdy, hk.errAcc, hk.srAct, hk.capacity⟩
  · exact .inr (.inr (.inl ⟨hd, ht⟩))
  · exact .inr (.inr (.inr (.inl ⟨hd, ht⟩)))
  · exact .inr (.inr (.inr (.inr (.inl ⟨beat_of_decode_sample hd, hr, l, r, ht⟩))))

/-- PREPARE may set ERR_PREP and leaves the other error bits (44_control.md R241). -/
theorem prepare_errorBits (s : State) :
    (s.errPrep = true → (prepare params s).errPrep = true) ∧ (prepare params s).errNrdy = s.errNrdy
      ∧ (prepare params s).errAcc = s.errAcc := by
  cases hok : prepareOk params s.srate.toNat with
  | true => rw [prepare_of_ok hok]; exact ⟨id, rfl, rfl⟩
  | false => rw [prepare_of_not_ok hok]; exact ⟨fun _ => rfl, rfl, rfl⟩

/-- Settles O51: of the steps that change STATUS only a reset and ERRCLR clear an error bit. -/
theorem errorBitsAreSticky : Obligations.ErrorBitsAreSticky := by
  unfold Obligations.ErrorBitsAreSticky
  intro s t tr rest hp hnot hstep
  obtain ⟨hrst, hclr⟩ := hnot
  rcases step_status_cases hp hstep with hk | ⟨h, -⟩ | ⟨-, rfl⟩ | ⟨hd, -⟩ | ⟨-, -, l, r, rfl⟩ | ⟨w, k, -, -, rfl⟩
  · rw [hk.errPrep, hk.errNrdy, hk.errAcc]
    exact ⟨id, id, id⟩
  · exact absurd h hrst
  · obtain ⟨h1, h2, h3⟩ := prepare_errorBits { s with pending := rest }
    exact ⟨h1, h2.trans, h3.trans⟩
  · exact absurd rfl (hclr _ hd)
  · exact ⟨id, fun _ => rfl, id⟩
  · exact ⟨id, id, fun _ => rfl⟩

/-- Settles O52: of the steps that change STATUS, `SR_ACT` or `C`, those but PREPARE and a reset change error bits alone. -/
theorem onlyPrepareChangesReadiness : Obligations.OnlyPrepareChangesReadiness := by
  unfold Obligations.OnlyPrepareChangesReadiness
  intro s t tr rest hp hnot hstep
  obtain ⟨hrst, hprep⟩ := hnot
  rcases step_status_cases hp hstep with hk | ⟨h, -⟩ | ⟨hd, -⟩ | ⟨-, rfl⟩ | ⟨-, -, l, r, rfl⟩ | ⟨w, k, -, -, rfl⟩
  · exact ⟨hk.ready, hk.srAct, hk.capacity⟩
  · exact absurd h hrst
  · exact absurd rfl (hprep _ hd)
  · exact ⟨rfl, rfl, rfl⟩
  · exact ⟨rfl, rfl, rfl⟩
  · exact ⟨rfl, rfl, rfl⟩

/-- A bit that a step leaves as it was is not raised by it. -/
theorem not_raised {b b' : Bool} {q : Prop} (h : b' = b) (h0 : b = false) (h1 : b' = true) : q := by
  cases h0.symm.trans (h.symm.trans h1)

/-- Settles O53: each of the steps that change STATUS raises its own bit at most. -/
theorem errorsHaveOneCauseEach : Obligations.ErrorsHaveOneCauseEach := by
  unfold Obligations.ErrorsHaveOneCauseEach
  intro s t tr rest hp hstep
  rcases step_status_cases hp hstep with hk | ⟨-, rfl⟩ | ⟨hd, rfl⟩ | ⟨-, rfl⟩ | ⟨hb, hr, l, r, rfl⟩ | ⟨w, k, hw, hd, rfl⟩
  · exact ⟨not_raised hk.errPrep, not_raised hk.errNrdy, not_raised hk.errAcc⟩
  · exact ⟨nofun, nofun, nofun⟩
  · obtain ⟨-, h2, h3⟩ := prepare_errorBits { s with pending := rest }
    exact ⟨fun _ _ => hd, not_raised h2, not_raised h3⟩
  · exact ⟨nofun, nofun, nofun⟩
  · exact ⟨not_raised rfl, fun _ _ => ⟨hr, hb⟩, not_raised rfl⟩
  · exact ⟨not_raised rfl, not_raised rfl, fun _ _ => ⟨w, k, hw, hd⟩⟩

end Sys2Proof.Machine

/-! ## Steps, replies and runs (20_memory.md R64, R70, R71, 70_reset_and_hazards.md R323, R324) -/

namespace Sys2Proof.Machine

/-- Settles O6, transaction by transaction. -/
theorem stepRunsTheDecodedInstruction : Obligations.StepRunsTheDecodedInstruction := by
  unfold Obligations.StepRunsTheDecodedInstruction
  intro s rest
  refine ⟨fun w i hp hd => ?_, fun b hp => ?_, fun w k hp hd => ?_, fun hp => ?_, fun hp => ?_⟩
  · exact step_of_instr hp (congrArg some hd)
  · exact step_of_instr hp rfl
  · exact step_of_illegal hp hd
  · exact step_eq hp
  · exact step_idle hp

/-! ### One reply per transaction -/

/-- The transactions pending and what the ports have returned are the same in two states. -/
structure PortsKept (s t : State) : Prop where
  pending : t.pending = s.pending
  cpOut : t.cpOut = s.cpOut
  spOut : t.spOut = s.spOut

/-- The control port has returned one reply more, and the transactions pending and the output beats are the same. -/
structure RepliesOnce (s t : State) : Prop where
  pending : t.pending = s.pending
  cpOut : ∃ r, t.cpOut = s.cpOut ++ [r]
  spOut : t.spOut = s.spOut

/-- The sample port has returned one beat more, and the transactions pending and the control port's replies are the same. -/
structure EmitsOnce (s t : State) : Prop where
  pending : t.pending = s.pending
  cpOut : t.cpOut = s.cpOut
  spOut : ∃ b, t.spOut = s.spOut ++ [b]

theorem PortsKept.reply {s t : State} (h : PortsKept s t) (r : CpReply) : RepliesOnce s (t.reply r) :=
  ⟨h.pending, ⟨r, congrArg (· ++ [r]) h.cpOut⟩, h.spOut⟩

theorem portsKept_setParam (q : Param) (v : F32) (s : State) : PortsKept s (s.setParam q v) := by
  cases q <;> exact ⟨rfl, rfl, rfl⟩

theorem portsKept_prepare (s : State) : PortsKept s (prepare params s) := by
  cases hok : prepareOk params s.srate.toNat with
  | true => rw [prepare_of_ok hok]; exact ⟨rfl, rfl, rfl⟩
  | false => rw [prepare_of_not_ok hok]; exact ⟨rfl, rfl, rfl⟩

theorem portsKept_clear (s : State) : PortsKept s (clear s) := ⟨clear_pending s, clear_cpOut s, clear_spOut s⟩

theorem emitsOnce_samplePrepared {l r : F32} {s t : State} (h : samplePrepared params l r s = .ok t) : EmitsOnce s t := by
  obtain ⟨-, yL, yR, -, -, rfl⟩ := (samplePrepared_ok_iff ..).1 h
  constructor <;> simp [sampleFinish_eq, sampleWritten]

/-- Every instruction but SAMPLE returns one reply on the control port; SAMPLE returns one output beat (20_memory.md R64). -/
theorem exec_reply_cases {i : Instr} {s t : State} (h : exec i s = .next t) :
    ((∀ l r, i ≠ .sample l r) ∧ RepliesOnce s t) ∨ ((∃ l r, i = .sample l r) ∧ EmitsOnce s t) := by
  rcases exec_cases h with ⟨hq, r, rfl⟩ | ⟨v, rfl, rfl⟩ | ⟨v, rfl, rfl⟩ | ⟨q, v, rfl, rfl⟩ | ⟨v, rfl, rfl⟩ | ⟨rfl, rfl⟩
    | ⟨rfl, rfl⟩ | ⟨rfl, rfl⟩ | ⟨rfl, rfl⟩ | ⟨l, r, rfl, -, rfl⟩ | ⟨l, r, rfl, -, hs⟩
  · refine .inl ⟨?_, rfl, ⟨r, rfl⟩, rfl⟩
    rintro l r rfl
    cases hq
  · exact .inl ⟨nofun, rfl, ⟨_, rfl⟩, rfl⟩
  · exact .inl ⟨nofun, rfl, ⟨_, rfl⟩, rfl⟩
  · exact .inl ⟨by cases q <;> exact nofun, (portsKept_setParam q _ s).reply .ack⟩
  · exact .inl ⟨nofun, rfl, ⟨_, rfl⟩, rfl⟩
  · exact .inl ⟨nofun, (portsKept_prepare s).reply .ack⟩
  · exact .inl ⟨nofun, (portsKept_clear s).reply .ack⟩
  · exact .inl ⟨nofun, rfl, ⟨_, rfl⟩, rfl⟩
  · exact .inl ⟨nofun, rfl, ⟨_, rfl⟩, rfl⟩
  · exact .inr ⟨⟨l, r, rfl⟩, rfl, rfl, ⟨_, rfl⟩⟩
  · exact .inr ⟨⟨l, r, rfl⟩, emitsOnce_samplePrepared hs⟩

/-- Settles O8: a command word is illegal or an instruction other than SAMPLE, and a beat is a SAMPLE. -/
theorem eachTransactionGetsOneReply : Obligations.EachTransactionGetsOneReply := by
  unfold Obligations.EachTransactionGetsOneReply
  intro s t tr rest hp hstep
  rcases step_cases hstep with ⟨h0, -⟩ | ⟨tr', rest', hp', hcase⟩
  · cases h0.symm.trans hp
  cases hp.symm.trans hp'
  rcases hcase with ⟨rfl, rfl⟩ | ⟨w, k, rfl, -, rfl⟩ | ⟨i, hd, hex⟩
  · exact ⟨rfl, rfl, rfl⟩
  · exact ⟨rfl, ⟨_, rfl⟩, rfl⟩
  rcases exec_reply_cases hex with ⟨hne, h⟩ | ⟨⟨l, r, rfl⟩, h⟩
  · cases tr with
    | cp w => exact ⟨h.pending, h.cpOut, h.spOut⟩
    | sp b => cases hd; exact absurd rfl (hne _ _)
    | rst => cases hd
  · obtain ⟨b, rfl⟩ := beat_of_decode_sample hd
    exact ⟨h.pending, h.spOut, h.cpOut⟩

/-! ### The waveform is in `[-1, 1]` (40_numerics.md R131 property 2) -/

theorem sineMag_le (m : Nat) : sineMag m ≤ 2 ^ sineBits := by
  unfold sineMag
  split <;> exact min_le_right _ _

theorem absPat_sineRounded_le (m : Nat) : absPat (sineRounded m) ≤ absPat oneF := by
  have hone : 2 ^ sineBits = magOfPat (absPat oneF) * sineDen := by decide +kernel
  rw [sineRounded, absPat_packF]
  exact (min_le_left _ _).trans (roundPat_le (Nat.two_pow_pos _) (hone ▸ sineMag_le m))

theorem absPat_quadrantSine_le (k : Nat) : absPat (quadrantSine k) ≤ absPat oneF := by
  unfold quadrantSine
  split_ifs
  · exact le_rfl
  · rw [absPat_negF]
  · decide

/-- Each of the four ways the waveform is chosen in `[0, 2]` stays in `[-1, 1]`. -/
theorem absPat_sinCycle_le (p : Config.Params) {t : F32} (h : inSineDomain t = true) : absPat (sinCycle p t) ≤ absPat oneF := by
  unfold sinCycle
  rw [if_pos h]
  split_ifs with hquad hperm
  · exact absPat_quadrantSine_le _
  · rw [sinePermitted, Bool.and_eq_true, decide_eq_true_eq] at hperm
    exact hperm.1
  · exact absPat_sineRounded_le _

theorem valF_two : valF 0x40000000 = 2 * unitF := by decide +kernel

/-- A magnitude of at most 1.0, as a value. -/
theorem valF_of_absPat_le_oneF {a : F32} (h : absPat a ≤ absPat oneF) : isFiniteF a = true ∧ |valF a| ≤ unitF := by
  have hone : (valF oneF).natAbs = unitF := by rw [valF_oneF, Int.natAbs_natCast]
  have hmag : magF a ≤ magF oneF := magOfPat_le_iff.2 h
  rw [← natAbs_valF, ← natAbs_valF, hone] at hmag
  refine ⟨(isFiniteF_iff a).2 (h.trans_lt (by decide)), ?_⟩
  rw [Int.abs_eq_natAbs]
  exact_mod_cast hmag

/-- A number in `[0, 1]`, as a value. -/
theorem valF_of_toNat_le_oneF {a : F32} (h : a.toNat ≤ 0x3F800000) : isFiniteF a = true ∧ 0 ≤ valF a ∧ valF a ≤ unitF := by
  obtain ⟨hs, hp⟩ := nonneg_of_toNat_lt (a := a) (h.trans_lt (by decide))
  obtain ⟨hfin, habs⟩ := valF_of_absPat_le_oneF (hp.trans_le h)
  refine ⟨hfin, ?_, (abs_le.1 habs).2⟩
  rw [valF_of_nonneg hs]
  positivity

/-- A phase and a phase offset add up to a point from 0 to 2 (42_oscillator.md R170). -/
theorem inSineDomain_addF {ph off : F32} (hp : ph.toNat ≤ 0x3F800000) (ho : off.toNat ≤ 0x3F800000) :
    inSineDomain (addF ph off) = true := by
  obtain ⟨hpf, hp0, hp1⟩ := valF_of_toNat_le_oneF hp
  obtain ⟨hof, ho0, ho1⟩ := valF_of_toNat_le_oneF ho
  have htwo := valF_two
  have hzero := valF_posZero
  obtain ⟨hf, h0, h2⟩ := addF_between (lo := posZero) (hi := 0x40000000) hpf hof (by decide) (by decide) (by omega) (by omega)
  rw [inSineDomain, Bool.and_eq_true, leF_iff (by decide) hf, leF_iff hf (by decide)]
  exact ⟨h0, h2⟩

/-! ### The mapped delay is admissible (41_delay_line.md R154, 43_sample_engine.md R192) -/

/-- The scaled LFO value plus one is from 0 to 2. -/
theorem mapSum_bounds {lfo depth : F32} (hl : absPat lfo ≤ absPat oneF) (hd : paramInRange .depth depth) :
    isFiniteF (mapSum lfo depth) = true ∧ 0 ≤ valF (mapSum lfo depth) ∧ valF (mapSum lfo depth) ≤ 2 * unitF := by
  obtain ⟨hlf, hlb⟩ := valF_of_absPat_le_oneF hl
  obtain ⟨hdf, hd0, hd1⟩ := valF_of_toNat_le_oneF hd.2
  have hone := valF_oneF
  have hneg := valF_negF oneF
  have hzero := valF_posZero
  have htwo := valF_two
  have hprod : |valF lfo * valF depth| ≤ (unitF : Int) * unitF := by
    rw [abs_mul, abs_of_nonneg hd0]
    exact mul_le_mul hlb hd1 hd0 (by positivity)
  obtain ⟨hlow, hupp⟩ := abs_le.1 hprod
  unfold mapSum
  split
  · exact ⟨by decide, by omega, by omega⟩
  · obtain ⟨hmf, hm0, hm1⟩ := mulF_between (lo := negF oneF) (hi := oneF) hlf hdf (by decide) (by decide)
      (by rw [hneg, hone, Int.neg_mul]; exact hlow) (by rw [hone]; exact hupp)
    obtain ⟨hf, h0, h2⟩ := addF_between (lo := posZero) (hi := 0x40000000) hmf (by decide : isFiniteF oneF = true)
      (by decide) (by decide) (by omega) (by omega)
    exact ⟨hf, by omega, by omega⟩

/-- The mapped value in seconds is from the topology's low bound to 1/32. -/
theorem mapSeconds_bounds {lfo depth : F32} (hl : absPat lfo ≤ absPat oneF) (hd : paramInRange .depth depth) (m : Mode) :
    isFiniteF (mapSeconds lfo depth m) = true ∧ valF (mapLo m) ≤ valF (mapSeconds lfo depth m)
      ∧ 32 * valF (mapSeconds lfo depth m) ≤ unitF := by
  obtain ⟨hsf, hs0, hs2⟩ := mapSum_bounds hl hd
  have hu : (0 : Int) < unitF := by exact_mod_cast unitF_pos
  have hone := valF_oneF
  have hzero := valF_posZero
  have hhalf := two_mul_valF_halfF
  have hwidth : isFiniteF (mapWidth m) = true ∧ 0 ≤ valF (mapWidth m) := by cases m <;> decide +kernel
  have hlo : isFiniteF (mapLo m) = true := by cases m <;> decide
  have htop : 32 * valF 0x3D000000 = unitF ∧ valF (mapLo m) + valF (mapWidth m) ≤ valF 0x3D000000 := by
    cases m <;> decide +kernel
  obtain ⟨hwf, hw0⟩ := hwidth
  -- half of a sum from 0 to 2 is from 0 to 1
  obtain ⟨haf, ha0, ha1⟩ := mulF_between (lo := posZero) (hi := oneF) hsf (by decide : isFiniteF halfF = true) (by decide)
    (by decide) (by rw [hzero, Int.zero_mul]; exact Int.mul_nonneg hs0 (by omega))
    (by rw [hone, ← hhalf, Int.mul_left_comm, ← Int.mul_assoc]
        exact Int.mul_le_mul_of_nonneg_right (hhalf ▸ hs2) (by omega))
  rw [hzero] at ha0
  rw [hone] at ha1
  -- that part of the width is from 0 to the width
  obtain ⟨hbf, hb0, hb1⟩ := mulF_between (lo := posZero) (hi := mapWidth m) haf hwf (by decide) hwf
    (by rw [hzero, Int.zero_mul]; exact Int.mul_nonneg ha0 hw0)
    (by rw [Int.mul_comm (valF (mapWidth m))]; exact Int.mul_le_mul_of_nonneg_right ha1 hw0)
  obtain ⟨hf, h0, h1⟩ := addF_between (lo := mapLo m) (hi := 0x3D000000) hlo hbf hlo (by decide) (by omega) (by omega)
  exact ⟨hf, h0, by rw [mapSeconds]; omega⟩

/-- At a rate that PREPARE accepts the mapped delay is from 1 to below `C - 1` samples. -/
theorem mapDelay_bounds {lfo depth : F32} {s : State} (hl : absPat lfo ≤ absPat oneF) (hd : paramInRange .depth depth) (m : Mode)
    (hok : prepareOk params s.srAct.toNat = true) :
    isFiniteF (mapDelay lfo depth m s) = true ∧ valF oneF ≤ valF (mapDelay lfo depth m s)
      ∧ valF (mapDelay lfo depth m s) < ((prepareCapacity params s.srAct.toNat : Int) - 1) * unitF := by
  obtain ⟨hsf, hs0, hs1⟩ := mapSeconds_bounds hl hd m
  obtain ⟨hlo, hhi⟩ := (prepareOk_params _).1 hok
  rw [prepareCapacity_params]
  obtain ⟨c, hc⟩ : ∃ c, (s.srAct.toNat + 19) / 20 = c + 2 := ⟨(s.srAct.toNat + 19) / 20 - 2, by omega⟩
  obtain ⟨hrf, -, hrv⟩ := toF32_exact (n := s.srAct.toNat) (by omega)
  obtain ⟨hcf, -, hcv⟩ := toF32_exact (n := c) (by omega)
  have hu : (0 : Int) < unitF := by exact_mod_cast unitF_pos
  have hms : (unitF : Int) ≤ 1000 * valF (mapLo m) := by cases m <;> decide +kernel
  -- a rate of at least 1000 gives at least one sample, and 1/32 of the rate is at most `C - 2`
  have hlow : (unitF : Int) ≤ valF (mapSeconds lfo depth m) * s.srAct.toNat :=
    calc (unitF : Int) ≤ 1000 * valF (mapLo m) := hms
      _ ≤ s.srAct.toNat * valF (mapSeconds lfo depth m) := Int.mul_le_mul (by omega) hs0 (by omega) (by omega)
      _ = valF (mapSeconds lfo depth m) * s.srAct.toNat := Int.mul_comm ..
  have hupp : valF (mapSeconds lfo depth m) * s.srAct.toNat ≤ c * unitF := by
    refine Int.le_of_mul_le_mul_left (a := 32) ?_ (by norm_num)
    calc 32 * (valF (mapSeconds lfo depth m) * s.srAct.toNat)
        = 32 * valF (mapSeconds lfo depth m) * s.srAct.toNat := (Int.mul_assoc ..).symm
      _ ≤ unitF * (32 * c) := Int.mul_le_mul hs1 (by omega) (by omega) hu.le
      _ = 32 * (c * unitF) := by ring
  unfold mapDelay sampleRateF
  obtain ⟨hf, h0, h1⟩ := mulF_between (lo := oneF) (hi := toF32 c) hsf hrf (by decide) hcf
    (by rw [valF_oneF, hrv, ← Int.mul_assoc]; exact Int.mul_le_mul_of_nonneg_right hlow hu.le)
    (by rw [hcv, hrv, ← Int.mul_assoc]; exact Int.mul_le_mul_of_nonneg_right hupp hu.le)
  rw [hcv] at h1
  exact ⟨hf, h0, h1.trans_lt (Int.mul_lt_mul_of_pos_right (by omega) hu)⟩

/-! ### Every step completes (60_exceptions.md R280, 70_reset_and_hazards.md R323) -/

namespace Inv

variable {s : State}

/-- The LFO value of either channel is in `[-1, 1]` (42_oscillator.md R170). -/
theorem absPat_lfoValue_le (h : Inv s) {off : F32} (ho : off = posZero ∨ off = s.phaseOff) :
    absPat (lfoValue params off s) ≤ absPat oneF := by
  obtain ⟨-, -, -, hoff, -⟩ := h.paramsInRange
  refine absPat_sinCycle_le params (inSineDomain_addF h.phaseInRange.le ?_)
  rcases ho with rfl | rfl
  · decide
  · exact hoff.2

/-- Every delay a prepared SAMPLE computes is from 1 to below `C - 1` samples (41_delay_line.md R154). -/
theorem mapDelay_bounds (h : Inv s) (hr : s.ready = true) {off : F32} (ho : off = posZero ∨ off = s.phaseOff) :
    isFiniteF (mapDelay (lfoValue params off s) s.depth s.mode s) = true
      ∧ valF oneF ≤ valF (mapDelay (lfoValue params off s) s.depth s.mode s)
      ∧ valF (mapDelay (lfoValue params off s) s.depth s.mode s) < ((capacityNat s : Int) - 1) * unitF := by
  obtain ⟨-, hdepth, -⟩ := h.paramsInRange
  obtain ⟨hok, hcap, -⟩ := h.readyShape hr
  rw [hcap]
  exact Machine.mapDelay_bounds (h.absPat_lfoValue_le ho) hdepth s.mode hok

theorem channelDelay_bounds (h : Inv s) (hr : s.ready = true) (x : Channel) :
    isFiniteF (channelDelay params (snapshot s) x s) = true
      ∧ valF oneF ≤ valF (channelDelay params (snapshot s) x s)
      ∧ valF (channelDelay params (snapshot s) x s) < ((capacityNat s : Int) - 1) * unitF := by
  cases x
  · exact h.mapDelay_bounds hr (.inl rfl)
  · exact h.mapDelay_bounds hr (.inr rfl)

/-- Both reads of a prepared sample step answer. -/
theorem dlReadInterp_completes (h : Inv s) (hr : s.ready = true) (l r : F32) (x : Channel) :
    ∃ y, dlReadInterp params x (channelDelay params (snapshot s) x s) (Machine.sampleWritten l r s) = .ok y := by
  obtain ⟨-, -, -, hle, hwh⟩ := h.readyShape hr
  obtain ⟨hf, h0, h1⟩ := h.channelDelay_bounds hr x
  have hone := valF_oneF
  have hcap : capacityNat (Machine.sampleWritten l r s) = capacityNat s := by simp [capacityNat]
  refine Machine.dlReadInterp_completes x (by rwa [hcap, sampleWritten_wh]) (by rwa [hcap]) (by decide) hf (by omega) ?_
  rw [hcap]
  rw [Int.sub_mul] at h1
  omega

theorem samplePrepared_completes (h : Inv s) (hr : s.ready = true) (l r : F32) :
    ∃ t, Machine.samplePrepared params l r s = .ok t := by
  obtain ⟨-, -, -, hle, hwh⟩ := h.readyShape hr
  obtain ⟨yL, hL⟩ := h.dlReadInterp_completes hr l r .left
  obtain ⟨yR, hR⟩ := h.dlReadInterp_completes hr l r .right
  exact ⟨_, (samplePrepared_ok_iff ..).2 ⟨⟨hwh.trans_le hle, hwh⟩, yL, yR, hL, hR, rfl⟩⟩

theorem exec_completes (h : Inv s) (i : Instr) : ∃ t, Machine.exec i s = .next t := by
  rcases Instr.usesMemory_cases i with hi | rfl | rfl | ⟨l, r, rfl⟩
  · obtain ⟨f, -, hex⟩ := exec_memoryBlind hi
    exact ⟨f s, hex s⟩
  · exact ⟨_, rfl⟩
  · exact ⟨_, rfl⟩
  · cases hr : s.ready with
    | false => exact ⟨_, exec_sample_notReady hr l r⟩
    | true =>
      obtain ⟨t, ht⟩ := h.samplePrepared_completes hr l r
      exact ⟨t, (exec_sample_ready_iff hr l r).2 ht⟩

theorem step_completes (h : Inv s) : ∃ t, Machine.step s = .next t := by
  cases hp : s.pending with
  | nil => exact ⟨s, step_idle hp⟩
  | cons tr rest =>
    have hrest : Inv { s with pending := rest } := h.of_invariantPart_eq rfl
    cases tr with
    | rst => exact ⟨_, step_eq hp⟩
    | sp b =>
      rw [step_of_instr hp rfl]
      exact hrest.exec_completes (decodeSp b)
    | cp w =>
      cases hd : decodeCp w with
      | error k => exact ⟨_, step_of_illegal hp hd⟩
      | ok i =>
        rw [step_of_instr hp (congrArg some hd)]
        exact hrest.exec_completes i

end Inv

/-! ### Runs -/

/-- What a run over the transactions `ts` gives: all performed, the invariant kept, one reply per command word and one beat per beat. -/
structure RunPerforms (ts : List Transaction) (s t : State) : Prop where
  run : core.run ts.length s = .next t
  pending : t.pending = []
  inv : Inv t
  cpOut : t.cpOut.length = s.cpOut.length + (cpWords ts).length
  spOut : t.spOut.length = s.spOut.length + (spBeats ts).length

/-- A run goes on from the state that its first step gives. -/
theorem run_succ {m : Host.Core} {s u : m.State} (h : m.step s = .next u) (k : Nat) : m.run (k + 1) s = m.run k u := by
  rw [Host.Core.run, h]

theorem cpWords_cons (tr : Transaction) (ts : List Transaction) : cpWords (tr :: ts) = cpWords [tr] ++ cpWords ts := by
  cases tr <;> rfl

theorem spBeats_cons (tr : Transaction) (ts : List Transaction) : spBeats (tr :: ts) = spBeats [tr] ++ spBeats ts := by
  cases tr <;> rfl

/-- A step returns as many replies as its transaction has command words, and as many beats as it has beats (20_memory.md R64). -/
theorem step_reply_count {s u : State} {tr : Transaction} {ts : List Transaction} (hp : s.pending = tr :: ts)
    (hu : step s = .next u) :
    u.cpOut.length = s.cpOut.length + (cpWords [tr]).length ∧ u.spOut.length = s.spOut.length + (spBeats [tr]).length := by
  obtain ⟨-, hone⟩ := eachTransactionGetsOneReply s u tr ts hp hu
  cases tr with
  | cp w =>
    obtain ⟨⟨r, hr⟩, hsp⟩ := hone
    exact ⟨by simp [hr, cpWords], by simp [hsp, spBeats]⟩
  | sp b =>
    obtain ⟨⟨o, ho⟩, hcp⟩ := hone
    exact ⟨by simp [hcp, cpWords], by simp [ho, spBeats]⟩
  | rst =>
    obtain ⟨hcp, hsp⟩ := hone
    exact ⟨by simp [hcp, cpWords], by simp [hsp, spBeats]⟩

/-- One step, then a run over the transactions that are left. -/
theorem RunPerforms.cons {tr : Transaction} {ts : List Transaction} {s u t : State} (hp : s.pending = tr :: ts)
    (hu : step s = .next u) (h : RunPerforms ts u t) : RunPerforms (tr :: ts) s t where
  run := (run_succ (m := core) hu ts.length).trans h.run
  pending := h.pending
  inv := h.inv
  cpOut := by rw [h.cpOut, (step_reply_count hp hu).1, cpWords_cons tr ts, List.length_append, Nat.add_assoc]
  spOut := by rw [h.spOut, (step_reply_count hp hu).2, spBeats_cons tr ts, List.length_append, Nat.add_assoc]

theorem exists_runPerforms (ts : List Transaction) : ∀ {s : State}, Inv s → s.pending = ts → ∃ t, RunPerforms ts s t := by
  induction ts with
  | nil => exact fun {s} h hp => ⟨s, rfl, hp, h, rfl, rfl⟩
  | cons tr ts ih =>
    intro s h hp
    obtain ⟨u, hu⟩ := h.step_completes
    obtain ⟨hrest, -⟩ := eachTransactionGetsOneReply s u tr ts hp hu
    obtain ⟨t, ht⟩ := ih (h.step hu) hrest
    exact ⟨t, ht.cons hp hu⟩

/-- Settles O49, by induction on the transactions pending. -/
theorem runsPerformEveryTransaction : Obligations.RunsPerformEveryTransaction := by
  unfold Obligations.RunsPerformEveryTransaction
  intro s h
  obtain ⟨t, ht⟩ := exists_runPerforms s.pending h rfl
  exact ⟨t, ht.run, ht.pending, ht.inv, ht.cpOut, ht.spOut⟩

end Sys2Proof.Machine

/-! ## Access to a delay word and to a byte of a register (20_memory.md R61 to R63, R66, R69) -/

namespace Sys2Proof.Machine

theorem capacityNat_setWord (x : Channel) (i : Nat) (v : F32) (s : State) : capacityNat (s.setWord x i v) = capacityNat s := by
  cases x <;> rfl

/-- MemRead depends on the capacity and on the word it reads alone (20_memory.md R61). -/
theorem memRead_congr {p : Config.Params} {x : Channel} {i : Nat} {s t : State} (hc : capacityNat s = capacityNat t)
    (hw : wordAt s x i = wordAt t x i) : memRead p x i s = memRead p x i t := by
  simp only [memRead, accessFault, hc, hw]

/-- Settles O43: MemWrite sets one word, and MemRead answers it. -/
theorem memoryReadsBackWhatWasWritten : Obligations.MemoryReadsBackWhatWasWritten := by
  unfold Obligations.MemoryReadsBackWhatWasWritten
  intro p s x i v hwf hi hle
  have hcap := capacityNat_setWord x i v s
  refine ⟨s.setWord x i v, (memWrite_ok_iff ..).2 ⟨hi.trans_le hle, hi, rfl⟩, ?_, memWf_setWord hwf x i v, fun y j hne => ?_⟩
  · refine (memRead_ok_iff ..).2 ⟨hi.trans_le hle, hcap.symm ▸ hi, ?_⟩
    rw [wordAt_setWord hwf, if_pos ⟨rfl, rfl⟩]
  · have hw : wordAt (s.setWord x i v) y j = wordAt s y j := by
      rw [wordAt_setWord hwf, if_neg fun h => hne ⟨h.1.symm, h.2.symm⟩]
    exact ⟨memRead_congr hcap hw, hw⟩

/-! ### The byte view of a bridge -/

theorem regAddr_of_regAt {a : BitVec 8} {r : Reg} (h : regAt a = some r) : regAddr r = a := by
  simpa using List.find?_some h

/-- The word address and the byte number of byte `k` of a register: register addresses are multiples of four (30_encoding.md R96). -/
theorem byteAddress_split (r : Reg) (k : Fin 4) :
    regAddr r + BitVec.ofNat 8 k - ((regAddr r + BitVec.ofNat 8 k) &&& 3) = regAddr r
      ∧ ((regAddr r + BitVec.ofNat 8 k) &&& 3).toNat = k := by
  revert k
  cases r <;> decide

/-- Byte `k` of a register is its bits `8k+7 : 8k` (20_memory.md R66). -/
theorem bridgeByte_regAddr (s : State) (r : Reg) (k : Fin 4) :
    bridgeByte (regAddr r + BitVec.ofNat 8 k) s = some ((regValue r s).extractLsb' (8 * k) 8) := by
  obtain ⟨haddr, hbyte⟩ := byteAddress_split r k
  rw [bridgeByte, haddr, hbyte, regAt_regAddr, Option.map_some]

/-- The word address of a byte is the multiple of four at or below it. -/
theorem toNat_wordAddress (a : BitVec 8) : (a - (a &&& 3)).toNat = a.toNat - a.toNat % 4 := by
  have hand : (a &&& 3).toNat = a.toNat % 4 := by
    rw [BitVec.toNat_and]
    exact Nat.and_two_pow_sub_one_eq_mod a.toNat 2
  rw [BitVec.toNat_sub_of_le (by rw [BitVec.le_def, hand]; exact Nat.mod_le _ _), hand]

/-- A byte at an address in no register's four bytes is none (20_memory.md R69; log 22). -/
theorem bridgeByte_eq_none {a : BitVec 8} (h : ∀ q : Reg, a.toNat < (regAddr q).toNat ∨ (regAddr q).toNat + 4 ≤ a.toNat) (s : State) :
    bridgeByte a s = none := by
  cases hr : regAt (a - (a &&& 3)) with
  | none => rw [bridgeByte, hr, Option.map_none]
  | some q =>
    have hq := h q
    rw [regAddr_of_regAt hr, toNat_wordAddress] at hq
    omega

/-- Settles O58: the four bytes of a register, and the addresses outside every register's four bytes. -/
theorem bridgeIsLittleEndian : Obligations.BridgeIsLittleEndian := by
  unfold Obligations.BridgeIsLittleEndian
  intro s r
  refine ⟨?_, bridgeByte_regAddr s r 1, bridgeByte_regAddr s r 2, bridgeByte_regAddr s r 3, fun a h => bridgeByte_eq_none h s⟩
  simpa using bridgeByte_regAddr s r 0

end Sys2Proof.Machine

/-! ## Decoding and encoding (30_encoding.md R90 to R99) -/

namespace Sys2Proof

open Machine

/-! ### Words built from fields -/

/-- A command word without reserved bits is built from its other fields (30_encoding.md R90). -/
theorem cpWordOf_fields {w : PortWord} (h : CpWord.rsv w = 0) : cpWordOf (CpWord.opc w) (CpWord.addr w) (CpWord.data w) = w := by
  rw [cpWordOf, ← h]
  unfold CpWord.opc CpWord.rsv CpWord.addr CpWord.data
  ext i hi
  simp only [BitVec.getElem_append, BitVec.getElem_extractLsb']
  grind

theorem beatOf_lanes (b : PortWord) : beatOf (b.extractLsb' 0 32) (b.extractLsb' 32 32) = b := by
  unfold beatOf
  ext i hi
  simp only [BitVec.getElem_append, BitVec.getElem_extractLsb']
  grind

theorem cpWordOf_ne_zero {o : BitVec 8} (h : o ≠ 0) (a : BitVec 8) (d : Word) : cpWordOf o a d ≠ 0 := fun h0 =>
  h <| by rw [← opc_cpWordOf o a d, h0]; rfl

theorem regAddr_aligned (r : Reg) : (regAddr r).extractLsb' 0 2 = 0 := by cases r <;> decide

/-! ### What encoded words decode to -/

@[simp] theorem decodeCp_readWord (r : Reg) : decodeCp (readWord r) = .ok (readInstr r) := by
  rw [decodeCp, readWord, if_neg (cpWordOf_ne_zero (by decide) _ _)]
  simp [regAddr_aligned]

@[simp] theorem decodeCp_writeWord (r : Reg) (v : Word) : decodeCp (writeWord r v) = writeInstr r v := by
  rw [decodeCp, writeWord, if_neg (cpWordOf_ne_zero (by decide) _ _)]
  simp [regAddr_aligned]

@[simp] theorem decodeSp_beatOf (l r : F32) : decodeSp (beatOf l r) = .sample l r := by simp [decodeSp]

theorem decodeTransaction_readWord (r : Reg) : decodeTransaction (.cp (readWord r)) = some (.ok (readInstr r)) := by
  rw [decodeTransaction, decodeCp_readWord]

theorem decodeTransaction_writeWord (r : Reg) (v : Word) : decodeTransaction (.cp (writeWord r v)) = some (writeInstr r v) := by
  rw [decodeTransaction, decodeCp_writeWord]

/-- Settles O1: NOP, the reads, the commands and writes, and SAMPLE each decode from their word. -/
theorem decodeEncodeRoundTrip : Obligations.DecodeEncodeRoundTrip := by
  unfold Obligations.DecodeEncodeRoundTrip
  intro i
  cases i with
  | nop => rfl
  | rdId | rdCtrl | rdStatus | rdSrate | rdMaxblk | rdSrAct | rdCapacity | rdDrywet | rdDepth | rdRate | rdPhaseoff | rdFeedback
  | rdMode | rdWhead | rdPhase | rdFbl | rdFbr => exact decodeTransaction_readWord _
  | cmdNone | cmdPrepare | cmdClear | cmdDefaults | cmdErrclr | wrSrate | wrMaxblk | wrDrywet | wrDepth | wrRate | wrPhaseoff
  | wrFeedback | wrMode => exact decodeTransaction_writeWord _ _
  | sample l r => rw [encode, decodeTransaction, decodeSp_beatOf]

/-- Settles O5, by the lanes of a beat. -/
theorem everyBeatIsASampleOfItsLanes : Obligations.EveryBeatIsASampleOfItsLanes := decodeSp_beatOf

/-- Settles O4, by evaluating the decoders. -/
theorem decoderReadsWordsOfEachFamily : Obligations.DecoderReadsWordsOfEachFamily := by
  unfold Obligations.DecoderReadsWordsOfEachFamily
  decide

/-! ### What a legal word encodes -/

theorem encode_readInstr (r : Reg) : encode (readInstr r) = .cp (readWord r) := by cases r <;> rfl

/-- The value written to `CTRL` that selects a command is the command's own (30_encoding.md R94, 44_control.md R240). -/
theorem encode_of_commandInstr {v : Word} {i : Instr} (h : commandInstr v = .ok i) : encode i = .cp (writeWord .ctrl v) := by
  unfold commandInstr at h
  split_ifs at h <;> cases h <;> subst v <;> rfl

theorem encode_of_writeInstr {r : Reg} {v : Word} {i : Instr} (h : writeInstr r v = .ok i) : encode i = .cp (writeWord r v) := by
  cases r with
  | ctrl => exact encode_of_commandInstr h
  | _ => cases h <;> rfl

/-- The legal command words: zero, the read of a register, and the writes that give an instruction (30_encoding.md R94). -/
inductive CpWord.Legal : PortWord → Instr → Prop where
  | nop : Legal 0 .nop
  | read (r : Reg) : Legal (readWord r) (readInstr r)
  | write {r : Reg} {v : Word} {i : Instr} (h : writeInstr r v = .ok i) : Legal (writeWord r v) i

/-- A word decodes to an instruction exactly when it is one of the legal words. -/
theorem decodeCp_ok_iff {w : PortWord} {i : Instr} : decodeCp w = .ok i ↔ CpWord.Legal w i := by
  constructor
  · intro h
    unfold decodeCp at h
    split at h
    case isTrue h0 => cases h; exact h0 ▸ .nop
    split at h
    · cases h
    next hrsv =>
    have hw := cpWordOf_fields (not_not.1 hrsv)
    split at h
    · cases h
    split at h
    · cases h
    next r hr =>
    rw [← regAddr_of_regAt hr] at hw
    split at h
    next hopc =>
      split at h
      · cases h
      next hdata =>
      cases h
      rw [← hw, hopc, not_not.1 hdata]
      exact .read r
    split at h
    next hopc => rw [← hw, hopc]; exact .write h
    split at h <;> cases h
  · rintro (_ | r | h)
    · rfl
    · exact decodeCp_readWord r
    · rw [decodeCp_writeWord, h]

theorem CpWord.Legal.encode_eq {w : PortWord} {i : Instr} (h : CpWord.Legal w i) : encode i = .cp w := by
  cases h with
  | nop => rfl
  | read r => exact encode_readInstr r
  | write h => exact encode_of_writeInstr h

/-- Settles O2: a legal word is the encoding of its instruction, and a beat is built from its lanes. -/
theorem encodeDecodeRoundTrip : Obligations.EncodeDecodeRoundTrip := by
  unfold Obligations.EncodeDecodeRoundTrip
  exact ⟨fun w i h => (decodeCp_ok_iff.1 h).encode_eq, fun b => by rw [decodeSp, encode, beatOf_lanes]⟩

/-! ### The eight kinds of illegal word (30_encoding.md R97) -/

/-- The check of WellFormed.lean that a kind of illegal word names. -/
def IllegalKind.check : IllegalKind → PortWord → Bool
  | .nopWithBits => CpWord.badNop
  | .opcode => CpWord.badOpc
  | .reservedBits => CpWord.badRsv
  | .misaligned => CpWord.misaligned
  | .reservedAddress => CpWord.reservedAddr
  | .readWithData => CpWord.readWithData
  | .writeToReadOnly => CpWord.writeToReadOnly
  | .badCommand => CpWord.badCommand

theorem wf_eq_false_of_check {w : PortWord} {k : IllegalKind} (h : k.check w = true) : CpWord.wf w = false := by
  cases k <;> simp only [IllegalKind.check] at h <;> simp [CpWord.wf, h]

/-- A write that gives an instruction is to a register that is not read-only, and a command if it is to `CTRL`. -/
theorem writable_of_writeInstr_ok {r : Reg} {v : Word} {i : Instr} (h : writeInstr r v = .ok i) :
    regAccess r ≠ .ro ∧ (r = .ctrl → ([0x0, 0x1, 0x2, 0x4, 0x8] : List Word).contains v = true) := by
  cases r with
  | ctrl =>
    simp only [writeInstr, commandInstr] at h
    split_ifs at h <;> subst v <;> decide
  | id | status | srAct | capacity | whead | phase | fbl | fbr => cases h
  | _ => exact ⟨by decide, nofun⟩

/-- A write is refused to a read-only register, and to `CTRL` with a value that is no command. -/
theorem writeInstr_error_cases {r : Reg} {v : Word} {k : IllegalKind} (h : writeInstr r v = .error k) :
    (k = .writeToReadOnly ∧ regAccess r = .ro)
      ∨ (k = .badCommand ∧ r = .ctrl ∧ ([0x0, 0x1, 0x2, 0x4, 0x8] : List Word).contains v = false) := by
  cases r with
  | ctrl =>
    simp only [writeInstr, commandInstr] at h
    split_ifs at h
    cases h
    exact .inr ⟨rfl, rfl, by simp_all⟩
  | id | status | srAct | capacity | whead | phase | fbl | fbr => cases h; exact .inl ⟨rfl, rfl⟩
  | _ => cases h

/-- The kind that the decoder names is one of the word's kinds. -/
theorem check_of_decodeCp_error {w : PortWord} {k : IllegalKind} (h : decodeCp w = .error k) : k.check w = true := by
  unfold decodeCp at h
  split at h
  · cases h
  next h0 =>
  split at h
  next hrsv => cases h; simpa [IllegalKind.check, CpWord.badRsv] using hrsv
  split at h
  next halign => cases h; simpa [IllegalKind.check, CpWord.misaligned] using halign
  split at h
  next hr => cases h; simp [IllegalKind.check, CpWord.reservedAddr, hr]
  next r hr =>
  split at h
  next h1 =>
    split at h
    next hdata => cases h; simpa [IllegalKind.check, CpWord.readWithData, h1] using hdata
    next => cases h
  next h1 =>
  split at h
  next h2 =>
    obtain ⟨rfl, hro⟩ | ⟨rfl, rfl, hv⟩ := writeInstr_error_cases h
    · simp [IllegalKind.check, CpWord.writeToReadOnly, h2, hr, hro]
    · simpa [IllegalKind.check, CpWord.badCommand, h2, hr] using hv
  next h2 =>
  split at h
  next h3 => cases h; simpa [IllegalKind.check, CpWord.badNop, h3] using h0
  next h3 => cases h; simp only [IllegalKind.check, CpWord.badOpc, decide_eq_true_eq]; bv_omega

/-- No check of R97 refuses a legal word. -/
theorem CpWord.Legal.wf {w : PortWord} {i : Instr} (h : CpWord.Legal w i) : CpWord.wf w = true := by
  cases h with
  | nop => rfl
  | read r => cases r <;> rfl
  | @write r v i h =>
    obtain ⟨hro, hcommand⟩ := writable_of_writeInstr_ok h
    simpa [CpWord.wf, writeWord, CpWord.badNop, CpWord.badOpc, CpWord.badRsv, CpWord.misaligned, CpWord.reservedAddr,
      CpWord.readWithData, CpWord.writeToReadOnly, CpWord.badCommand, regAddr_aligned, hro, imp_iff_not_or] using hcommand

/-- The decoder refuses exactly the ill-formed words. -/
theorem decodeCp_error_iff (w : PortWord) : (∃ k, decodeCp w = .error k) ↔ CpWord.wf w = false := by
  constructor
  · rintro ⟨k, h⟩
    exact wf_eq_false_of_check (check_of_decodeCp_error h)
  · intro hw
    cases hd : decodeCp w with
    | error k => exact ⟨k, rfl⟩
    | ok i => rw [(decodeCp_ok_iff.1 hd).wf] at hw; cases hw

/-- Settles O3: the kind the decoder names is one of the eight, and no legal word is of any. -/
theorem illegalWordsAreTheEightKinds : Obligations.IllegalWordsAreTheEightKinds := by
  unfold Obligations.IllegalWordsAreTheEightKinds
  intro w
  rw [decodeCp_error_iff]
  simp only [CpWord.wf, Bool.not_eq_false', Bool.or_eq_true, or_assoc]

end Sys2Proof

/-! ## The assembler (30_encoding.md R99) -/

namespace Sys2Proof.Machine

@[simp] theorem regOfName_regName (r : Reg) : regOfName (regName r).toList = some r := by cases r <;> decide

theorem regOfName_eq_none {name : List Char} (h : ∀ r : Reg, name.map Char.toUpper ≠ (regName r).toList) :
    regOfName name = none :=
  List.find?_eq_none.2 fun r _ => by simpa [nameKey] using (h r).symm

/-- The assembler writes what the decoder reads: a write that gives an instruction assembles to the instruction's word. -/
theorem assembleWrite_of_writeInstr {r : Reg} {v : Word} {i : Instr} (h : writeInstr r v = .ok i) :
    assembleWrite r v = some [encode i] := by
  obtain ⟨hro, hcommand⟩ := writable_of_writeInstr_ok h
  rw [assembleWrite, if_neg hro, if_neg fun hc => hc.2 (hcommand hc.1), encode_of_writeInstr h]

theorem assembleWrite_of_readOnly {r : Reg} (h : regAccess r = .ro) (v : Word) : assembleWrite r v = none := if_pos h

theorem assembleWrite_ctrl_eq_none {v : Word} (h0 : v ≠ 0) (h1 : v ≠ 1) (h2 : v ≠ 2) (h4 : v ≠ 4) (h8 : v ≠ 8) :
    assembleWrite .ctrl v = none := by
  simp_all [assembleWrite, regAccess]

theorem assemble_rd_regName (r : Reg) : assemble (.rd (regName r).toList) = some [encode (readInstr r)] := by
  rw [assemble, regOfName_regName, Option.map_some, encode_readInstr]

@[simp] theorem assemble_wr_regName (r : Reg) (v : Word) : assemble (.wr (regName r).toList v) = assembleWrite r v := by
  rw [assemble, regOfName_regName, Option.bind_some]

@[simp] theorem assemble_wrf_regName (r : Reg) (x : FloatLit) :
    assemble (.wrf (regName r).toList x) = assembleWrite r (litBits x) := by
  rw [assemble, regOfName_regName, Option.bind_some]

theorem assemble_unknown_name {name : List Char} (h : ∀ r : Reg, name.map Char.toUpper ≠ (regName r).toList) (v : Word)
    (x : FloatLit) : assemble (.rd name) = none ∧ assemble (.wr name v) = none ∧ assemble (.wrf name x) = none := by
  simp [assemble, regOfName_eq_none h]

/-- A decimal literal stands for its exact value `num / den`, rounded once (40_numerics.md R121). -/
theorem litBits_decimal_roundsTo (neg : Bool) (num den : Nat) (hd : 0 < den) :
    RoundsTo (signedInt neg (num * unitF)) den (litBits (.decimal neg num den)) :=
  roundF_roundsTo neg (num * unitF) den hd

/-- Settles O59, line by line: a write assembles exactly where the decoder gives it an instruction. -/
theorem assemblerExpandsPseudoInstructions : Obligations.AssemblerExpandsPseudoInstructions := by
  unfold Obligations.AssemblerExpandsPseudoInstructions
  simp only [assemble_wr_regName, assemble_wrf_regName]
  refine ⟨fun _ _ => rfl, rfl, rfl, rfl, rfl, rfl, rfl, fun _ _ => rfl, assemble_rd_regName,
    fun _ _ _ => assembleWrite_of_writeInstr, fun _ _ _ => assembleWrite_of_writeInstr,
    fun _ v x h => ⟨assembleWrite_of_readOnly h v, assembleWrite_of_readOnly h (litBits x)⟩,
    fun _ => assembleWrite_ctrl_eq_none, fun _ => assembleWrite_ctrl_eq_none, fun _ v x h => assemble_unknown_name h v x,
    rfl, fun _ => rfl, by decide, by decide, fun _ => rfl, litBits_decimal_roundsTo⟩

end Sys2Proof.Machine

/-! ## Operations on NaN, infinities and zeros (40_numerics.md R122 to R124, R133) -/

namespace Sys2Proof.Machine

/-! ### The kinds of operand -/

theorem isNaNF_of_isInfF {a : F32} (h : isInfF a = true) : isNaNF a = false := by
  simp_all [isInfF, isNaNF]

theorem isZeroF_of_isInfF {a : F32} (h : isInfF a = true) : isZeroF a = false :=
  decide_eq_false (by rw [of_decide_eq_true h]; decide)

/-- A number is an infinity or finite. -/
theorem isInfF_or_isFiniteF {a : F32} (h : isNaNF a = false) : isInfF a = true ∨ isFiniteF a = true := by
  simp only [isNaNF, isInfF, isFiniteF, decide_eq_true_eq, decide_eq_false_iff_not] at h ⊢
  omega

theorem isFiniteF_of_isZeroF {a : F32} (h : isZeroF a = true) : isFiniteF a = true := by
  simp_all [isZeroF, isFiniteF, infPat]

/-! ### One equation per kind of operands -/

theorem addF_of_isNaNF {a b : F32} (h : isNaNF a = true ∨ isNaNF b = true) : addF a b = canonicalNaN := by
  rw [addF, if_pos (by simpa using h)]

theorem subF_of_isNaNF {a b : F32} (h : isNaNF a = true ∨ isNaNF b = true) : subF a b = canonicalNaN :=
  addF_of_isNaNF (h.imp_right fun hb => (isNaNF_negF b).trans hb)

theorem mulF_of_isNaNF {a b : F32} (h : isNaNF a = true ∨ isNaNF b = true) : mulF a b = canonicalNaN := by
  rw [mulF, if_pos (by simpa using h)]

theorem divF_of_isNaNF {a b : F32} (h : isNaNF a = true ∨ isNaNF b = true) : divF a b = canonicalNaN := by
  rw [divF, if_pos (by simpa using h)]

theorem addF_of_isInfF_left {a b : F32} (ha : isInfF a = true) (hb : isNaNF b = false) :
    addF a b = if isInfF b && signF a != signF b then canonicalNaN else a := by
  simp [addF, ha, hb, isNaNF_of_isInfF ha]

theorem addF_of_isInfF_right {a b : F32} (ha : isFiniteF a = true) (hb : isInfF b = true) : addF a b = b := by
  simp [addF, hb, isInfF_of_finite ha, isNaNF_of_finite ha, isNaNF_of_isInfF hb]

theorem mulF_of_isInfF_left {a b : F32} (ha : isInfF a = true) (hb : isNaNF b = false) :
    mulF a b = if isZeroF b then canonicalNaN else packF (signF a != signF b) infPat := by
  simp [mulF, ha, hb, isNaNF_of_isInfF ha, isZeroF_of_isInfF ha]

theorem mulF_comm (a b : F32) : mulF a b = mulF b a := by
  unfold mulF
  rw [Bool.or_comm (isNaNF a), Bool.or_comm (isInfF a), Bool.or_comm (isZeroF a), bne_comm (a := signF a), Nat.mul_comm (magF a)]

/-! ### NaN results -/

theorem isNaNF_canonicalNaN : isNaNF canonicalNaN = true := by decide

theorem canonical_canonicalNaN : canonical canonicalNaN := fun _ => rfl

theorem canonical_of_isNaNF_eq_false {v : F32} (h : isNaNF v = false) : canonical v := fun hn => by
  rw [h] at hn
  cases hn

/-- A sum is the canonical NaN, an infinite operand, a zero or a rounded number. -/
theorem canonical_addF (a b : F32) : canonical (addF a b) := by
  by_cases hn : isNaNF a = true ∨ isNaNF b = true
  · exact addF_of_isNaNF hn ▸ canonical_canonicalNaN
  obtain ⟨ha, hb⟩ : isNaNF a = false ∧ isNaNF b = false := by simpa using hn
  rcases isInfF_or_isFiniteF ha with hia | hfa
  · rw [addF_of_isInfF_left hia hb]
    split
    · exact canonical_canonicalNaN
    · exact canonical_of_isNaNF_eq_false ha
  rcases isInfF_or_isFiniteF hb with hib | hfb
  · rw [addF_of_isInfF_right hfa hib]
    exact canonical_of_isNaNF_eq_false hb
  · rw [addF_of_finite hfa hfb]
    split_ifs
    · exact canonical_of_isNaNF_eq_false (by decide)
    · exact canonical_of_isNaNF_eq_false (by decide)
    · exact canonical_of_isNaNF_eq_false (isNaNF_roundF ..)

theorem canonical_subF (a b : F32) : canonical (subF a b) := canonical_addF a (negF b)

/-- A product is the canonical NaN or a number packed from its sign. -/
theorem mulF_cases (a b : F32) : mulF a b = canonicalNaN ∨ ∃ n, mulF a b = packF (signF a != signF b) n := by
  unfold mulF
  split_ifs
  · exact .inl rfl
  · exact .inl rfl
  · exact .inr ⟨_, rfl⟩
  · exact .inr ⟨_, roundF_eq_packF ..⟩

/-- A quotient is the canonical NaN or a number packed from its sign. -/
theorem divF_cases (a b : F32) : divF a b = canonicalNaN ∨ ∃ n, divF a b = packF (signF a != signF b) n := by
  unfold divF
  split_ifs
  · exact .inl rfl
  · exact .inl rfl
  · exact .inr ⟨_, rfl⟩
  · exact .inr ⟨_, rfl⟩
  · exact .inl rfl
  · exact .inr ⟨_, rfl⟩
  · exact .inr ⟨_, roundF_eq_packF ..⟩

theorem canonical_mulF (a b : F32) : canonical (mulF a b) := by
  obtain h | ⟨n, h⟩ := mulF_cases a b
  · exact h ▸ canonical_canonicalNaN
  · exact h ▸ canonical_of_isNaNF_eq_false (isNaNF_packF ..)

theorem canonical_divF (a b : F32) : canonical (divF a b) := by
  obtain h | ⟨n, h⟩ := divF_cases a b
  · exact h ▸ canonical_canonicalNaN
  · exact h ▸ canonical_of_isNaNF_eq_false (isNaNF_packF ..)

/-- Settles O38: what an operation answers is the canonical NaN or a number. -/
theorem nanResultsAreCanonical : Obligations.NanResultsAreCanonical := by
  unfold Obligations.NanResultsAreCanonical
  exact fun a b => ⟨canonical_addF a b, canonical_subF a b, canonical_mulF a b, canonical_divF a b,
    fun h => ⟨addF_of_isNaNF h, subF_of_isNaNF h, mulF_of_isNaNF h, divF_of_isNaNF h⟩⟩

theorem isNaNF_mulF {a b : F32} (h : isNaNF a = true ∨ isNaNF b = true) : isNaNF (mulF a b) = true :=
  mulF_of_isNaNF h ▸ isNaNF_canonicalNaN

/-- Settles O57: a NaN factor makes its product NaN, and a NaN term the sum. -/
theorem nanReadsPoisonTheChannel : Obligations.NanReadsPoisonTheChannel := by
  unfold Obligations.NanReadsPoisonTheChannel
  exact fun y h k input dw frac v => ⟨mulF_of_isNaNF (.inl h), addF_of_isNaNF (.inr (isNaNF_mulF (.inl h))),
    addF_of_isNaNF (.inl (isNaNF_mulF (.inr h))), addF_of_isNaNF (.inr (isNaNF_mulF (.inr h)))⟩

/-! ### Infinities -/

theorem packF_infPat (neg : Bool) : packF neg infPat = if neg then 0xFF800000 else 0x7F800000 := by cases neg <;> decide

/-- Settles O39: by the equations for an infinite operand, a difference being the sum with the negated operand. -/
theorem infinitiesFollowTheStandard : Obligations.InfinitiesFollowTheStandard := by
  unfold Obligations.InfinitiesFollowTheStandard
  intro a b ha
  have hna := isNaNF_of_isInfF ha
  refine ⟨fun hb hs => ?_, fun hb hs => ?_, fun hb => ?_, fun hb => ?_, fun hb hz => ?_⟩
  · have hnb := isNaNF_of_isInfF hb
    simp [subF, addF_of_isInfF_left, ha, hb, hna, hnb, hs, hs.symm, canonicalNaN]
  · have hnb := isNaNF_of_isInfF hb
    simp [subF, addF_of_isInfF_left, ha, hb, hnb, hs, canonicalNaN]
  · have hnb := isNaNF_of_finite hb
    simp [subF, addF_of_isInfF_left, addF_of_isInfF_right, ha, hb, hnb, isInfF_of_finite hb]
  · have hab : mulF a b = canonicalNaN := by
      rw [mulF_of_isInfF_left ha (isNaNF_of_finite (isFiniteF_of_isZeroF hb)), if_pos hb]
    exact ⟨hab, (mulF_comm b a).trans hab⟩
  · refine ⟨?_, mulF_comm b a⟩
    rw [mulF_of_isInfF_left ha hb, hz]
    by_cases hs : signF a = signF b
    · simp [hs, packF_infPat]
    · simp [hs, packF_infPat]

/-! ### Signed zeros -/

/-- The sign of a product that is a number is the exclusive-or of the operands' (40_numerics.md R123). -/
theorem signF_mulF {a b : F32} (h : isNaNF (mulF a b) = false) : signF (mulF a b) = (signF a != signF b) := by
  obtain hc | ⟨n, hn⟩ := mulF_cases a b
  · rw [hc, isNaNF_canonicalNaN] at h
    cases h
  · rw [hn, signF_packF]

theorem addF_negF_self {x : F32} (h : isFiniteF x = true) : addF x (negF x) = posZero := by
  rw [addF_of_finite h ((isFiniteF_negF x).trans h), valF_negF, if_pos (Int.add_right_neg _), signF_negF, Bool.and_not_self,
    if_neg Bool.false_ne_true]

/-- Settles O40: exact zero sums by their definition, products by their sign. -/
theorem signedZerosFollowTheStandard : Obligations.SignedZerosFollowTheStandard := by
  unfold Obligations.SignedZerosFollowTheStandard
  exact ⟨fun _ => addF_negF_self, fun _ => addF_negF_self, by decide +kernel, by decide +kernel, by decide +kernel,
    fun _ _ => signF_mulF⟩

/-! ### Stored NaNs (40_numerics.md R124) -/

theorem canonical_posZero : canonical posZero := canonical_of_isNaNF_eq_false (by decide)

/-- A memory whose listed NaNs are canonical keeps them so when a canonical word is written. -/
theorem canonical_mem_write {u : Nat → F32} {m : Memory} {i : Nat} {v : F32} (hv : canonical v)
    (h : ∀ c ∈ m, canonical c.2) : ∀ c ∈ m.write u i v, canonical c.2 := fun c hc => by
  rcases Memory.mem_write hc with rfl | hc
  · exact hv
  · exact h c hc

theorem canonical_mem_zeroBelow {m : Memory} (n : Nat) (h : ∀ c ∈ m, canonical c.2) :
    ∀ c ∈ m.zeroBelow n, canonical c.2 := fun c hc => h c (Memory.mem_zeroBelow hc).2

namespace NaNsCanonical

variable {s t : State}

/-- The claim depends on the feedback registers and the listed words alone. -/
theorem of_eq (h : NaNsCanonical s) (hl : t.fbl = s.fbl) (hr : t.fbr = s.fbr) (hbl : t.bufL = s.bufL) (hbr : t.bufR = s.bufR) :
    NaNsCanonical t := by
  rw [NaNsCanonical, hl, hr, hbl, hbr]
  exact h

theorem hardwareReset (s : State) : NaNsCanonical (hardwareReset s) :=
  ⟨canonical_posZero, canonical_posZero, nofun, nofun⟩

theorem zeroTransient (h : NaNsCanonical s) : NaNsCanonical (zeroTransient s) := by
  obtain ⟨-, -, hbl, hbr⟩ := h
  exact ⟨canonical_posZero, canonical_posZero, hbl, hbr⟩

theorem zeroWords (h : NaNsCanonical s) (n : Nat) : NaNsCanonical (s.zeroWords n) := by
  obtain ⟨hl, hr, hbl, hbr⟩ := h
  exact ⟨hl, hr, canonical_mem_zeroBelow n hbl, canonical_mem_zeroBelow n hbr⟩

theorem clear (h : NaNsCanonical s) : NaNsCanonical (clear s) := by
  rw [clear_eq]
  exact (h.zeroWords _).zeroTransient

theorem prepare (h : NaNsCanonical s) : NaNsCanonical (prepare params s) := by
  have hz := h.zeroTransient
  cases hok : prepareOk params s.srate.toNat with
  | true => rw [prepare_of_ok hok]; exact (hz.zeroWords _).of_eq rfl rfl rfl rfl
  | false => rw [prepare_of_not_ok hok]; exact hz.of_eq rfl rfl rfl rfl

/-- A prepared sample step writes two sums and keeps two products. -/
theorem samplePrepared (h : NaNsCanonical s) {l r : F32} (hs : samplePrepared params l r s = .ok t) : NaNsCanonical t := by
  obtain ⟨-, -, hbl, hbr⟩ := h
  obtain ⟨-, yL, yR, -, -, rfl⟩ := (samplePrepared_ok_iff ..).1 hs
  rw [sampleFinish_eq]
  exact ⟨canonical_mulF yL _, canonical_mulF yR _, canonical_mem_write (canonical_addF l s.fbl) hbl,
    canonical_mem_write (canonical_addF r s.fbr) hbr⟩

theorem exec {i : Instr} (h : NaNsCanonical s) (hs : exec i s = .next t) : NaNsCanonical t := by
  rcases exec_cases hs with ⟨-, r, rfl⟩ | ⟨v, -, rfl⟩ | ⟨v, -, rfl⟩ | ⟨q, v, -, rfl⟩ | ⟨v, -, rfl⟩ | ⟨-, rfl⟩ | ⟨-, rfl⟩
    | ⟨-, rfl⟩ | ⟨-, rfl⟩ | ⟨l, r, -, -, rfl⟩ | ⟨l, r, -, -, hs⟩
  · exact h
  · exact h
  · exact h
  · cases q <;> exact h
  · exact h
  · exact h.prepare
  · exact h.clear
  · exact h
  · exact h
  · exact h
  · exact h.samplePrepared hs

end NaNsCanonical

/-- Settles O50: every stored word and every feedback value is `+0` or the result of an operation. -/
theorem storedNansStayCanonical : Obligations.StoredNansStayCanonical := by
  unfold Obligations.StoredNansStayCanonical
  intro s t h hs
  rcases step_cases hs with ⟨-, rfl⟩ | ⟨tr, rest, -, ⟨-, rfl⟩ | ⟨w, k, -, -, rfl⟩ | ⟨i, -, hex⟩⟩
  · exact h
  · exact NaNsCanonical.hardwareReset _
  · exact h
  · exact NaNsCanonical.exec (s := { s with pending := rest }) h hex

end Sys2Proof.Machine

/-! ## The clamp of a parameter on patterns (40_numerics.md R135) -/

namespace Sys2Proof.Machine

/-- A number with the sign bit is at most zero. -/
theorem valF_nonpos {a : F32} (h : signF a = true) : valF a ≤ 0 := by
  rw [valF_eq, if_pos h]
  omega

/-- Whether a number is at most a number without the sign bit, read off the patterns (40_numerics.md R125). -/
theorem leF_iff_pattern {a b : F32} (ha : isNaNF a = false) (hb : b.toNat < infPat) :
    leF a b = true ↔ 2 ^ 31 ≤ a.toNat ∨ a.toNat ≤ b.toNat := by
  obtain ⟨hbv, hbf⟩ := valF_of_toNat hb
  have hbs : signF b = false := (nonneg_of_toNat_lt (hb.trans (by decide))).1
  have hle : leF a b = true ↔ valF a ≤ valF b := by simp [leF, ha, isNaNF_of_finite hbf]
  rw [hle]
  by_cases hs : 2 ^ 31 ≤ a.toNat
  · exact iff_of_true ((valF_nonpos (decide_eq_true hs)).trans (by rw [hbv]; positivity)) (.inl hs)
  · rw [valF_le_iff_toNat (decide_eq_false hs) hbs, or_iff_right hs]

/-- Whether a number is at least a number without the sign bit that is above zero, read off the patterns. -/
theorem geF_iff_pattern {a b : F32} (ha : isNaNF a = false) (hs : a.toNat < 2 ^ 31) (hb : b.toNat < infPat) :
    geF a b = true ↔ b.toNat ≤ a.toNat := by
  obtain ⟨-, hbf⟩ := valF_of_toNat hb
  have hge : geF a b = true ↔ valF b ≤ valF a := by simp [geF, leF, ha, isNaNF_of_finite hbf]
  rw [hge, valF_le_iff_toNat (nonneg_of_toNat_lt (hb.trans (by decide))).1 (nonneg_of_toNat_lt hs).1]

/-- The clamp decides on patterns what it is defined by comparisons to do. -/
theorem clampParam_eq_clampPattern (q : Param) (v : F32) :
    clampParam q v = clampPattern (paramLo q) (paramHi q) (paramDefault q) v := by
  have hhi := paramHi_lt_infPat q
  have hlo : (paramLo q).toNat < infPat := (paramLo_le_paramHi q).trans_lt hhi
  unfold clampParam clampPattern
  by_cases hn : 0x7F800000 < v.toNat % 2 ^ 31
  · have hnan : isNaNF v = true := decide_eq_true hn
    rw [if_pos hn, if_pos hnan]
  have hnan : isNaNF v = false := decide_eq_false hn
  rw [if_neg hn, hnan, if_neg Bool.false_ne_true]
  by_cases hle : 2 ^ 31 ≤ v.toNat ∨ v.toNat ≤ (paramLo q).toNat
  · rw [if_pos hle, if_pos ((leF_iff_pattern hnan hlo).2 hle)]
  · have hs : v.toNat < 2 ^ 31 := by omega
    rw [if_neg hle, if_neg (mt (leF_iff_pattern hnan hlo).1 hle)]
    simp only [geF_iff_pattern hnan hs hhi]

theorem exec_paramWrite_clampPattern (q : Param) (v : Word) (s : State) : exec (paramWrite q v) s
    = .next (State.reply .ack (s.setParam q (clampPattern (paramLo q) (paramHi q) (paramDefault q) v))) := by
  rw [exec_paramWrite, clampParam_eq_clampPattern]

/-- Settles O14: each word is the write word of its register, and the clamp is the same on patterns. -/
theorem parameterWritesClamp : Obligations.ParameterWritesClamp := by
  unfold Obligations.ParameterWritesClamp
  intro s v
  exact ⟨decodeCp_writeWord .dryWet v, decodeCp_writeWord .depth v, decodeCp_writeWord .rate v, decodeCp_writeWord .phaseOff v,
    decodeCp_writeWord .feedback v, exec_paramWrite_clampPattern .dryWet v s, exec_paramWrite_clampPattern .depth v s,
    exec_paramWrite_clampPattern .rate v s, exec_paramWrite_clampPattern .phaseOff v s,
    exec_paramWrite_clampPattern .feedback v s⟩

end Sys2Proof.Machine

/-! ## Rounding and exactness of the operations (40_numerics.md R121, R129) -/

namespace Sys2Proof.Machine

/-! ### Each operation rounds its exact result -/

theorem magF_pos {a : F32} (h : isZeroF a = false) : 0 < magF a := by
  have hp : absPat a ≠ 0 := of_decide_eq_false h
  have := magOfPat_lt_iff.2 (Nat.pos_of_ne_zero hp)
  rwa [magOfPat_zero] at this

/-- An exact result of zero is rounded correctly to a zero of either sign. -/
theorem roundsTo_zero {den : Nat} (hd : 0 < den) {z : F32} (hz : z = negZero ∨ z = posZero) : RoundsTo 0 den z := by
  have hfacts : ∀ z : F32, z = negZero ∨ z = posZero →
      isNaNF z = false ∧ isFiniteF z = true ∧ valF z = 0 ∧ z.toNat % 2 = 0 := by
    rintro z (rfl | rfl) <;> decide
  obtain ⟨hn, hf, hv, he⟩ := hfacts z hz
  have hpos : 0 < overflowUnits * den := Nat.mul_pos (by decide) hd
  refine ⟨hn, fun _ => ⟨hf, fun f _ => ⟨?_, fun _ => .inr he⟩⟩, fun h => ?_, fun h => ?_, fun h => ?_⟩
  · rw [hv, Int.zero_mul, Int.sub_zero, abs_zero]
    exact abs_nonneg _
  · rw [Int.natAbs_zero] at h
    omega
  · exact absurd h (lt_irrefl 0)
  · exact absurd h (lt_irrefl 0)

theorem addF_roundsTo {a b : F32} (ha : isFiniteF a = true) (hb : isFiniteF b = true) :
    RoundsTo (valF a + valF b) 1 (addF a b) := by
  rw [addF_of_finite ha hb]
  split
  · next h0 =>
    rw [h0]
    exact roundsTo_zero Nat.one_pos (by split <;> simp)
  · have h := roundF_roundsTo (decide (valF a + valF b < 0)) (valF a + valF b).natAbs 1 Nat.one_pos
    rwa [signedInt_natAbs] at h

theorem subF_roundsTo {a b : F32} (ha : isFiniteF a = true) (hb : isFiniteF b = true) :
    RoundsTo (valF a - valF b) 1 (subF a b) := by
  have h := addF_roundsTo ha ((isFiniteF_negF b).trans hb)
  rwa [valF_negF] at h

theorem mulF_roundsTo {a b : F32} (ha : isFiniteF a = true) (hb : isFiniteF b = true) :
    RoundsTo (valF a * valF b) unitF (mulF a b) := by
  rw [mulF_of_finite ha hb, ← signedInt_mul]
  exact roundF_roundsTo _ _ _ unitF_pos

theorem divF_of_finite {a b : F32} (ha : isFiniteF a = true) (hb : isFiniteF b = true) (hz : isZeroF b = false) :
    divF a b = roundF (signF a != signF b) (magF a * unitF) (magF b) := by
  simp [divF, isNaNF_of_finite ha, isNaNF_of_finite hb, isInfF_of_finite ha, isInfF_of_finite hb, hz]

/-- The dividend in units of the quotient, with the quotient's sign. -/
theorem signedInt_div (a b : F32) : signedInt (signF a != signF b) (magF a * unitF)
    = if signF b then -(valF a * unitF) else valF a * unitF := by
  rw [valF_eq, signedInt]
  cases signF a <;> cases signF b <;> simp [magF]

theorem divF_roundsTo {a b : F32} (ha : isFiniteF a = true) (hb : isFiniteF b = true) (hz : isZeroF b = false) :
    RoundsTo (if signF b then -(valF a * unitF) else valF a * unitF) (magF b) (divF a b) := by
  rw [divF_of_finite ha hb hz, ← signedInt_div]
  exact roundF_roundsTo _ _ _ (magF_pos hz)

/-- Settles O37, operation by operation: each rounds its exact result once. -/
theorem operationsRoundCorrectly : Obligations.OperationsRoundCorrectly := by
  unfold Obligations.OperationsRoundCorrectly
  exact fun a b ha hb => ⟨addF_roundsTo ha hb, subF_roundsTo ha hb, mulF_roundsTo ha hb, divF_roundsTo ha hb⟩

/-! ### Results that are binary32 numbers are exact -/

/-- An integer of at most 24 bits times a power of two in range is the magnitude of a finite pattern. -/
theorem exists_magOfPat_eq {n e : Nat} (hn : n < 2 ^ 24) (he : e ≤ 253) : ∃ p, p < infPat ∧ magOfPat p = n * 2 ^ e := by
  rcases Nat.eq_zero_or_pos n with rfl | hpos
  · exact ⟨0, by decide, by simp⟩
  obtain ⟨k, hk⟩ : ∃ k, k = Nat.log 2 n := ⟨_, rfl⟩
  have hlow : 2 ^ k ≤ n := hk ▸ Nat.pow_log_le_self 2 (by omega)
  have hup : n < 2 ^ (k + 1) := hk ▸ Nat.lt_pow_succ_log_self (by norm_num) n
  have hk24 : k < 24 := hk ▸ Nat.log_lt_of_lt_pow (by omega) hn
  have hinf := infPat_split
  by_cases hek : e + k < 23
  · -- below the second binade the pattern is the magnitude
    have hsmall : n * 2 ^ e < 2 ^ 23 :=
      calc n * 2 ^ e < 2 ^ (k + 1) * 2 ^ e := Nat.mul_lt_mul_of_pos_right hup (Nat.two_pow_pos e)
        _ = 2 ^ (k + 1 + e) := (pow_add ..).symm
        _ ≤ 2 ^ 23 := Nat.pow_le_pow_right (by norm_num) (by omega)
    exact ⟨n * 2 ^ e, by omega, magOfPat_small hsmall⟩
  · -- elsewhere the significand is moved up to 24 bits
    have hsum : 2 ^ k * 2 ^ (23 - k) = 2 ^ 23 := by rw [← pow_add]; congr 1; omega
    have hsum' : 2 ^ (k + 1) * 2 ^ (23 - k) = 2 ^ 24 := by rw [← pow_add]; congr 1; omega
    have hr0 : 2 ^ 23 ≤ n * 2 ^ (23 - k) := hsum ▸ Nat.mul_le_mul_right _ hlow
    have hr1 : n * 2 ^ (23 - k) < 2 ^ 24 := hsum' ▸ Nat.mul_lt_mul_of_pos_right hup (Nat.two_pow_pos _)
    refine ⟨(e + k - 23) * 2 ^ 23 + n * 2 ^ (23 - k), by omega, ?_⟩
    rw [magOfPat_parts _ _ hr1.le (.inr hr0), Nat.mul_assoc, ← pow_add]
    congr 2
    omega

/-- Such a magnitude is the value of a finite number. -/
theorem exists_valF_eq {n e : Nat} (hn : n < 2 ^ 24) (he : e ≤ 253) : ∃ c : F32, isFiniteF c = true ∧ valF c = n * 2 ^ e := by
  obtain ⟨p, hp, hm⟩ := exists_magOfPat_eq hn he
  have htop : infPat < 2 ^ 32 := by decide
  have hto : (BitVec.ofNat 32 p).toNat = p := by rw [BitVec.toNat_ofNat, Nat.mod_eq_of_lt (by omega)]
  obtain ⟨hv, hf⟩ := valF_of_toNat (a := BitVec.ofNat 32 p) (by rwa [hto])
  exact ⟨_, hf, by rw [hv, hto, hm]; push_cast; rfl⟩

/-- A difference that is a binary32 number is exact (40_numerics.md R129). -/
theorem valF_subF_of_eq {a b : F32} {n e : Nat} (ha : isFiniteF a = true) (hb : isFiniteF b = true) (hn : n < 2 ^ 24)
    (he : e ≤ 253) (h : valF a - valF b = n * 2 ^ e) : valF (subF a b) = n * 2 ^ e := by
  obtain ⟨c, hc, hv⟩ := exists_valF_eq hn he
  obtain ⟨-, h1, h2⟩ := subF_between ha hb hc hc (hv.trans h.symm).le (hv.trans h.symm).ge
  exact hv ▸ le_antisymm h2 h1

/-- `p ⊖ 1.0` is exact for `1 <= p < 2` (40_numerics.md R129). -/
theorem valF_subF_oneF {p : F32} (h1 : 0x3F800000 ≤ p.toNat) (h2 : p.toNat < 0x40000000) :
    valF (subF p oneF) = valF p - unitF := by
  obtain ⟨hv, hf⟩ := valF_of_toNat (a := p) (h2.trans (by decide))
  obtain ⟨f, hp, hf23⟩ : ∃ f, p.toNat = 126 * 2 ^ 23 + (2 ^ 23 + f) ∧ f < 2 ^ 23 := ⟨p.toNat - 127 * 2 ^ 23, by omega, by omega⟩
  have hunit : unitF = 2 ^ 23 * 2 ^ 126 := by unfold unitF; norm_num
  have hd : valF p - valF oneF = (f : Nat) * 2 ^ 126 := by
    rw [hv, valF_oneF, hp, magOfPat_parts _ _ (by omega) (.inr (by omega)), hunit]
    push_cast
    ring
  rw [valF_subF_of_eq hf (by decide) (by omega) (by norm_num) hd, ← hd, valF_oneF]

/-- An integer number of units that is a binary32 magnitude converts exactly (40_numerics.md R127). -/
theorem toF32_of_magOfPat {n p : Nat} (hp : p < infPat) (h : magOfPat p = n * unitF) :
    isFiniteF (toF32 n) = true ∧ valF (toF32 n) = n * unitF := by
  have hr : roundPat (n * unitF) 1 = p := by rw [← h]; simpa using roundPat_magOfPat p 1 Nat.one_pos
  have hs : signF (toF32 n) = false := signF_roundF ..
  have ha : absPat (toF32 n) = p := by rw [toF32, absPat_roundF, hr]; omega
  refine ⟨by rwa [isFiniteF_iff, ha], ?_⟩
  rw [valF_of_nonneg hs, ha, h]
  push_cast
  rfl

/-- Where floor answers, it answers the whole units of a finite number that is not negative (40_numerics.md R127). -/
theorem of_floorF_eq_some {a : F32} {n : Nat} (h : floorF a = some n) :
    isFiniteF a = true ∧ valF a = magF a ∧ n = magF a / unitF := by
  unfold floorF at h
  split at h
  · next hc =>
    obtain ⟨hf, hs⟩ := Bool.and_eq_true_iff.1 hc
    refine ⟨hf, ?_, (Option.some.inj h).symm⟩
    cases hsign : signF a with
    | false => exact valF_of_nonneg hsign
    | true =>
      have hz : absPat a = 0 := by simpa [hsign, isZeroF] using hs
      simp [valF_eq, magF, hz]
  · cases h

/-- A finite magnitude is its whole units, which convert exactly, and a binary32 number below 1.0: from `2^24` units up it has no fraction, and
below it the fraction is the low bits of the significand. -/
theorem whole_units_add_fraction {r : F32} (hr : isFiniteF r = true) :
    (isFiniteF (toF32 (magF r / unitF)) = true ∧ valF (toF32 (magF r / unitF)) = (magF r / unitF : Nat) * unitF)
      ∧ ∃ f e, f < 2 ^ 24 ∧ e ≤ 253 ∧ f * 2 ^ e < unitF ∧ magF r = magF r / unitF * unitF + f * 2 ^ e := by
  obtain ⟨j, q, hp, hq, hj, hm⟩ := magOfPat_split (absPat r)
  replace hm : magF r = q * 2 ^ j := hm
  have hfin := (isFiniteF_iff r).1 hr
  have hinf := infPat_split
  by_cases h149 : 149 ≤ j
  · have hunit : 2 ^ j = 2 ^ (j - 149) * unitF := by
      rw [unitF, ← pow_add]
      congr 1
      omega
    have hwhole : magF r / unitF * unitF = magF r := Nat.div_mul_cancel ⟨q * 2 ^ (j - 149), by rw [hm, hunit]; ring⟩
    exact ⟨toF32_of_magOfPat hfin hwhole.symm, 0, 0, by norm_num, by norm_num, by simpa using unitF_pos, by omega⟩
  · have hunit : unitF = 2 ^ (149 - j) * 2 ^ j := by
      rw [unitF, ← pow_add]
      congr 1
      omega
    have hn : magF r / unitF = q / 2 ^ (149 - j) := by
      rw [hm, hunit, Nat.mul_div_mul_right _ _ (Nat.two_pow_pos j)]
    have hle : q / 2 ^ (149 - j) ≤ q := Nat.div_le_self ..
    have hmod : q % 2 ^ (149 - j) ≤ q := Nat.mod_le ..
    obtain ⟨htf, -, htv⟩ := toF32_exact (n := q / 2 ^ (149 - j)) (by omega)
    rw [hn]
    refine ⟨⟨htf, htv⟩, q % 2 ^ (149 - j), j, by omega, by omega, ?_, ?_⟩
    · rw [hunit]
      exact Nat.mul_lt_mul_of_pos_right (Nat.mod_lt _ (Nat.two_pow_pos _)) (Nat.two_pow_pos j)
    · rw [hm, hunit, ← Nat.mul_assoc, ← Nat.add_mul, Nat.div_add_mod']

/-- The fraction of a number is exact and below 1.0 (40_numerics.md R129). -/
theorem valF_subF_floor {r : F32} {n : Nat} (h : floorF r = some n) :
    valF (subF r (toF32 n)) = valF r - n * unitF ∧ 0 ≤ valF (subF r (toF32 n)) ∧ valF (subF r (toF32 n)) < unitF := by
  obtain ⟨hr, hv, rfl⟩ := of_floorF_eq_some h
  obtain ⟨⟨htf, htv⟩, f, e, hf, he, hlt, hsum⟩ := whole_units_add_fraction hr
  have hd : valF r - valF (toF32 (magF r / unitF)) = (f : Nat) * 2 ^ e := by
    have hcast : (magF r : Int) = (magF r / unitF : Nat) * unitF + f * 2 ^ e := by exact_mod_cast hsum
    rw [hv, htv]
    omega
  rw [valF_subF_of_eq hr htf hf he hd, ← htv, hd]
  exact ⟨rfl, by positivity, by exact_mod_cast hlt⟩

/-- One binade up doubles the magnitude of a normal number. -/
theorem magOfPat_add_binade {n : Nat} (h : 2 ^ 23 ≤ n) : magOfPat (n + 2 ^ 23) = 2 * magOfPat n := by
  have hd : (n + 2 ^ 23) / 2 ^ 23 - 1 = n / 2 ^ 23 - 1 + 1 := by omega
  have hm : (n + 2 ^ 23) % 2 ^ 23 = n % 2 ^ 23 := by omega
  rw [magOfPat_eq_mul _ (by omega), magOfPat_eq_mul _ h, hd, hm, pow_succ]
  ring

/-- `a ⊗ 0.5` is exact for a normal number with a normal half (40_numerics.md R129). -/
theorem two_mul_valF_mulF_halfF {a : F32} (ha : isFiniteF a = true) (h : 2 ^ 24 ≤ absPat a) :
    2 * valF (mulF a halfF) = valF a := by
  have hfin := (isFiniteF_iff a).1 ha
  obtain ⟨p, hp⟩ : ∃ p, absPat a = p + 2 ^ 23 := ⟨absPat a - 2 ^ 23, by omega⟩
  have hpat : absPat (packF (signF a) p) = p := by rw [absPat_packF]; omega
  have hcf : isFiniteF (packF (signF a) p) = true := by rw [isFiniteF_iff, hpat]; omega
  have hcv : 2 * valF (packF (signF a) p) = valF a := by
    rw [valF_eq, valF_eq, signF_packF, hpat, hp, magOfPat_add_binade (by omega)]
    split <;> push_cast <;> ring
  have hprod : valF (packF (signF a) p) * unitF = valF a * valF halfF := by
    rw [← hcv, ← two_mul_valF_halfF]
    ring
  obtain ⟨-, h1, h2⟩ := mulF_between ha (by decide) hcf hcf hprod.le hprod.ge
  rw [le_antisymm h2 h1, hcv]

theorem absPat_of_isInfF {a : F32} (h : isInfF a = true) : absPat a = infPat := of_decide_eq_true h

/-- A product with 1.0 is the other operand (40_numerics.md R129). -/
theorem mulF_oneF {x : F32} (h : isNaNF x = false) : mulF x oneF = x := by
  have hs : (signF x != signF oneF) = signF x := by rw [show signF oneF = false by decide, Bool.bne_false]
  rcases isInfF_or_isFiniteF h with hi | hf
  · rw [mulF_of_isInfF_left hi (by decide), if_neg (by decide), hs, ← absPat_of_isInfF hi, packF_self h]
  · have hone : magF oneF = unitF := by decide +kernel
    rw [mulF_of_finite hf (by decide), hs, hone, roundF_eq_packF, magF, roundPat_magOfPat _ _ unitF_pos, packF_self h]

/-- Rounding the value of a number that is not zero gives the number. -/
theorem roundF_valF {x : F32} (h : isNaNF x = false) (h0 : valF x ≠ 0) :
    roundF (decide (valF x < 0)) (valF x).natAbs 1 = x := by
  have hs : decide (valF x < 0) = signF x := by
    cases hsign : signF x with
    | false => rw [valF_of_nonneg hsign, decide_eq_false_iff_not]; omega
    | true => exact decide_eq_true ((valF_nonpos hsign).lt_of_ne h0)
  have hr : roundPat (magF x) 1 = absPat x := by simpa [magF] using roundPat_magOfPat (absPat x) 1 Nat.one_pos
  rw [hs, natAbs_valF, roundF_eq_packF, hr, packF_self h]

/-- A sum with `+0` is the other operand, but that `-0` gives `+0` (40_numerics.md R123, R129). -/
theorem addF_posZero {x : F32} (h : isNaNF x = false) : addF x posZero = if x = negZero then posZero else x := by
  rcases isInfF_or_isFiniteF h with hi | hf
  · have hne : x ≠ negZero := by rintro rfl; exact absurd hi (by decide)
    rw [addF_of_isInfF_left hi (by decide), if_neg hne]
    exact if_neg (by simp [show isInfF posZero = false by decide])
  rw [addF_of_finite hf (by decide), valF_posZero, Int.add_zero]
  split
  · next h0 =>
    have hp : absPat x = absPat posZero := absPat_of_valF_eq (h0.trans valF_posZero.symm)
    have hx : x = negZero ∨ x = posZero := by
      cases hs : signF x with
      | true => exact .inl (eq_of_sign_of_absPat (hs.trans (by decide)) (hp.trans (by decide)))
      | false => exact .inr (eq_of_sign_of_absPat (hs.trans (by decide)) hp)
    rcases hx with rfl | rfl <;> decide
  · next h0 =>
    have hne : x ≠ negZero := by rintro rfl; exact h0 (by decide)
    rw [if_neg hne, roundF_valF h h0]

/-- Settles O41, fact by fact. -/
theorem exactnessFacts : Obligations.ExactnessFacts := by
  unfold Obligations.ExactnessFacts
  exact ⟨fun _ => valF_subF_oneF, fun _ _ => valF_subF_floor, fun _ => two_mul_valF_mulF_halfF, fun _ => mulF_oneF,
    fun _ => addF_posZero⟩

end Sys2Proof.Machine

/-! ## The waveform (40_numerics.md R131, R132) -/

namespace Sys2Proof.Machine

/-! ### The quadrant points -/

theorem sinCycle_of_quadrant (p : Config.Params) {t : F32} (h : inSineDomain t = true) (hq : magF t % 2 ^ 147 = 0) :
    sinCycle p t = quadrantSine (magF t / 2 ^ 147) := by
  rw [sinCycle, if_pos h, if_pos hq]

theorem sinCycle_of_permitted {p : Config.Params} {t : F32} (h : inSineDomain t = true) (hq : magF t % 2 ^ 147 ≠ 0)
    (hp : sinePermitted p (magF t) (p.sinChoice t) = true) : sinCycle p t = p.sinChoice t := by
  rw [sinCycle, if_pos h, if_neg hq, if_pos hp]

/-- The nine points `k/4`: in the domain, and `k` quarters of a unit. -/
theorem quadrantPoint_spec (k : Nat) (hk : k ≤ 8) : inSineDomain (divF (toF32 k) (toF32 4)) = true
    ∧ signF (divF (toF32 k) (toF32 4)) = false ∧ magF (divF (toF32 k) (toF32 4)) = k * 2 ^ 147 := by
  revert k
  decide +kernel

theorem quadrantSine_eq (k : Nat) :
    quadrantSine k = if k % 4 = 1 then 0x3F800000 else if k % 4 = 3 then 0xBF800000 else 0x00000000 := rfl

/-- Settles O35: the quadrant points are quarters of a unit, and each of the waveform's cases stays in `[-1, 1]`. -/
theorem sineMeetsItsGuarantees : Obligations.SineMeetsItsGuarantees := by
  unfold Obligations.SineMeetsItsGuarantees
  refine fun p => ⟨fun k hk => ?_, fun t ht => absPat_sinCycle_le p ht⟩
  obtain ⟨hdom, -, hmag⟩ := quadrantPoint_spec k hk
  rw [sinCycle_of_quadrant p hdom (by rw [hmag, Nat.mul_mod_left]), hmag, Nat.mul_div_cancel _ (Nat.two_pow_pos 147),
    quadrantSine_eq]

/-- A point from `+0` to 2.0 with a whole number of quarters is one of the nine points `k/4`. -/
theorem eq_quadrantPoint {t : F32} (ht : t.toNat ≤ 0x40000000) (hq : magF t % 2 ^ 147 = 0) :
    ∃ k ≤ 8, t = divF (toF32 k) (toF32 4) ∧ magF t / 2 ^ 147 = k := by
  obtain ⟨hs, hp⟩ := nonneg_of_toNat_lt (a := t) (ht.trans_lt (by decide))
  have hmag : magF t ≤ 8 * 2 ^ 147 := by
    have htwo : magF 0x40000000 = 8 * 2 ^ 147 := by decide +kernel
    rw [← htwo]
    exact magOfPat_le_iff.2 (hp.trans_le ht)
  have hk : magF t / 2 ^ 147 ≤ 8 := Nat.div_le_of_le_mul (by omega)
  obtain ⟨-, hs', hm'⟩ := quadrantPoint_spec _ hk
  rw [Nat.div_mul_cancel (Nat.dvd_of_mod_eq_zero hq)] at hm'
  exact ⟨_, hk, eq_of_sign_of_absPat (hs.trans hs'.symm) (magOfPat_inj.1 hm'.symm), rfl⟩

/-! ### The fixed-point sine beside the sine -/

/-- The exact sine of `m · 2^-149` cycles. -/
noncomputable def exactSine (m : ℕ) : ℝ := Real.sin (2 * Real.pi * m / 2 ^ 149)

/-- A half cycle further the sine is negated. -/
theorem exactSine_add_half (m : ℕ) : exactSine (m + 2 ^ 148) = -exactSine m := by
  rw [exactSine, exactSine, ← Real.sin_add_pi]
  congr 1
  push_cast
  ring

theorem exactSine_add_cycles (m c : ℕ) : exactSine (m + c * 2 ^ 149) = exactSine m := by
  rw [exactSine, exactSine, ← Real.sin_add_nat_mul_two_pi (2 * Real.pi * m / 2 ^ 149) c]
  congr 1
  push_cast
  ring

/-- The second quarter cycle mirrors the first. -/
theorem exactSine_half_sub {m : ℕ} (h : m ≤ 2 ^ 148) : exactSine (2 ^ 148 - m) = exactSine m := by
  rw [exactSine, exactSine, ← Real.sin_pi_sub]
  congr 1
  rw [Nat.cast_sub h]
  push_cast
  ring

/-- The folded half cycle is as accurate as the quarter cycle. -/
theorem sineMag_error (m : ℕ) : |(sineMag m : ℝ) - 2 ^ 250 * exactSine (m % 2 ^ 148)| ≤ 2 ^ 8 := by
  have hlt : m % 2 ^ 148 < 2 ^ 148 := Nat.mod_lt _ (Nat.two_pow_pos 148)
  unfold sineMag
  split
  · next h => exact quarterSine_error _ h
  · next h =>
    rw [← exactSine_half_sub hlt.le]
    exact quarterSine_error _ (by omega)

/-- A point is a whole number of cycles and a point of the first half cycle, or of the second. -/
theorem exactSine_eq (m : ℕ) : exactSine m = if sineNeg m then -exactSine (m % 2 ^ 148) else exactSine (m % 2 ^ 148) := by
  have hc : m = m % 2 ^ 149 + m / 2 ^ 149 * 2 ^ 149 := by omega
  have hcycle : exactSine m = exactSine (m % 2 ^ 149) := by
    conv_lhs => rw [hc]
    exact exactSine_add_cycles ..
  rw [hcycle]
  by_cases h : 2 ^ 148 ≤ m % 2 ^ 149
  · have hm : m % 2 ^ 149 = m % 2 ^ 148 + 2 ^ 148 := by omega
    have hneg : sineNeg m = true := decide_eq_true h
    rw [if_pos hneg, hm, exactSine_add_half]
  · have hm : m % 2 ^ 149 = m % 2 ^ 148 := by omega
    have hneg : sineNeg m = false := decide_eq_false h
    rw [hneg, if_neg Bool.false_ne_true, hm]

/-- The fixed-point sine is within `2^8` of its last place of the sine. -/
theorem sineFixed_error (m : ℕ) : |(sineFixed m : ℝ) - 2 ^ 250 * exactSine m| ≤ 2 ^ 8 := by
  have h := sineMag_error m
  rw [exactSine_eq, sineFixed]
  split
  · rw [← abs_neg] at h
    convert h using 2
    push_cast
    ring
  · exact_mod_cast h

/-! ### The test of a value beside the rule -/

theorem sineDen_eq : sineDen = 2 ^ 101 := rfl

theorem cast_sineDen : (sineDen : ℝ) = 2 ^ 101 := by rw [sineDen_eq, Nat.cast_pow, Nat.cast_ofNat]

theorem cast_sineSlack : (sineSlack : ℝ) = 2 ^ 20 := by rw [sineSlack, Nat.cast_pow, Nat.cast_ofNat]

theorem sineDen_pos : 0 < sineDen := Nat.two_pow_pos _

/-- The magnitude of the fixed-point sine is within `2^8` of its last place of the sine's, counted in units of `2^-149`. -/
theorem sineMag_near_abs (m : ℕ) : |(sineMag m : ℝ) - |2 ^ 149 * exactSine m| * 2 ^ 101| ≤ 2 ^ 8 := by
  have habs : |(sineFixed m : ℝ)| = sineMag m := by
    unfold sineFixed
    split <;> simp
  have hscale : |2 ^ 149 * exactSine m| * 2 ^ 101 = |2 ^ 250 * exactSine m| := by
    rw [abs_mul, abs_mul, abs_of_pos (show (0 : ℝ) < 2 ^ 149 by positivity), abs_of_pos (show (0 : ℝ) < 2 ^ 250 by positivity)]
    ring
  rw [← habs, hscale]
  exact (abs_abs_sub_abs_le _ _).trans (sineFixed_error m)

/-- The test on the reals. -/
theorem sinePermitted_iff (p : Config.Params) (m : ℕ) (v : F32) :
    sinePermitted p m v = true ↔ absPat v ≤ absPat oneF
      ∧ |(valF v : ℝ) * 2 ^ 101 - sineFixed m| * (p.sinErrDen : ℝ)
        ≤ p.sinErrNum * (2 ^ ulpExp (sineMag m + sineSlack) sineDen * 2 ^ 101) + p.sinErrDen * 2 ^ 20 := by
  have hcast : |(valF v : ℝ) * 2 ^ 101 - sineFixed m| = (((valF v * sineDen - sineFixed m).natAbs : ℕ) : ℝ) := by
    rw [Nat.cast_natAbs, Int.cast_abs, ← cast_sineDen]
    push_cast
    rfl
  rw [sinePermitted, Bool.and_eq_true, decide_eq_true_eq, decide_eq_true_eq, hcast, ← cast_sineDen]
  refine and_congr_right fun _ => ?_
  rw [← Nat.cast_le (α := ℝ), ← cast_sineSlack]
  simp only [Nat.cast_mul, Nat.cast_add, Nat.cast_pow, Nat.cast_ofNat]

/-- The last place that the test allows is at least that of the exact sine. -/
theorem ulpExp_floor_le (m : ℕ) : ulpExp ⌊|2 ^ 149 * exactSine m|⌋₊ 1 ≤ ulpExp (sineMag m + sineSlack) sineDen := by
  refine ulpExp_mono Nat.one_pos sineDen_pos ?_
  have hnear := (abs_le.1 (sineMag_near_abs m)).1
  have hfloor := Nat.floor_le (abs_nonneg (2 ^ 149 * exactSine m))
  have h : (⌊|2 ^ 149 * exactSine m|⌋₊ : ℝ) * sineDen ≤ sineMag m + sineSlack := by
    rw [cast_sineDen, cast_sineSlack]
    linarith
  rw [Nat.mul_one]
  exact_mod_cast h

/-- The last place that the test allows is at most that of a value `2^-80` units above the exact sine. -/
theorem ulpExp_le_floor (m : ℕ) :
    ulpExp (sineMag m + sineSlack) sineDen ≤ ulpExp ⌊|2 ^ 149 * exactSine m| + 1 / 2 ^ 80⌋₊ 1 := by
  have hdiv : ulpExp (sineMag m + sineSlack) sineDen = ulpExp ((sineMag m + sineSlack) / sineDen) 1 := by
    rw [ulpExp, ulpExp, Nat.div_one]
  rw [hdiv]
  refine ulpExp_mono Nat.one_pos Nat.one_pos (Nat.mul_le_mul_right 1 (Nat.le_floor ?_))
  have hnear := (abs_le.1 (sineMag_near_abs m)).2
  have hq := Nat.cast_div_le (α := ℝ) (m := sineMag m + sineSlack) (n := sineDen)
  rw [Nat.cast_add, cast_sineDen, cast_sineSlack] at hq
  have hsmall : (1 / 2 ^ 80 : ℝ) * 2 ^ 101 = 2 ^ 21 := by norm_num
  refine hq.trans ?_
  rw [div_le_iff₀ (by positivity), add_mul, hsmall]
  linarith

/-- A distance in units of `2^-149`, in the last places of the fixed-point sine. -/
theorem distance_mul_sineDen (v : F32) (m : ℕ) :
    |(valF v : ℝ) - 2 ^ 149 * exactSine m| * 2 ^ 101 = |(valF v : ℝ) * 2 ^ 101 - 2 ^ 250 * exactSine m| := by
  rw [← abs_of_pos (show (0 : ℝ) < 2 ^ 101 by positivity), ← abs_mul, abs_of_pos (show (0 : ℝ) < 2 ^ 101 by positivity)]
  congr 1
  ring

/-- What the test permits is as accurate as the rule asks, give or take `2^-80` units. -/
theorem sineWithin_of_sinePermitted {p : Config.Params} {m : ℕ} {v : F32} (h : sinePermitted p m v = true) :
    SineWithin p.sinErrNum p.sinErrDen (1 / 2 ^ 80) m v := by
  obtain ⟨-, h⟩ := (sinePermitted_iff p m v).1 h
  have hplace : (p.sinErrNum : ℝ) * 2 ^ ulpExp (sineMag m + sineSlack) sineDen
      ≤ p.sinErrNum * 2 ^ ulpExp ⌊|2 ^ 149 * exactSine m| + 1 / 2 ^ 80⌋₊ 1 :=
    mul_le_mul_of_nonneg_left (pow_le_pow_right₀ one_le_two (ulpExp_le_floor m)) (Nat.cast_nonneg _)
  have hdist : |(valF v : ℝ) - 2 ^ 149 * exactSine m| * 2 ^ 101 ≤ |(valF v : ℝ) * 2 ^ 101 - sineFixed m| + 2 ^ 8 := by
    rw [distance_mul_sineDen]
    exact (abs_sub_le _ _ _).trans (add_le_add_right (sineFixed_error m) _)
  have hden := mul_le_mul_of_nonneg_right hdist (Nat.cast_nonneg p.sinErrDen)
  show |(valF v : ℝ) - 2 ^ 149 * exactSine m| * (p.sinErrDen : ℝ)
    ≤ p.sinErrNum * 2 ^ ulpExp ⌊|2 ^ 149 * exactSine m| + 1 / 2 ^ 80⌋₊ 1 + 1 / 2 ^ 80 * p.sinErrDen
  refine le_of_mul_le_mul_right (a := (2 : ℝ) ^ 101) ?_ (by positivity)
  have hsmall : (1 / 2 ^ 80 : ℝ) * p.sinErrDen * 2 ^ 101 = 2 ^ 21 * p.sinErrDen := by ring
  rw [add_mul, hsmall]
  generalize ulpExp ⌊|2 ^ 149 * exactSine m| + 1 / 2 ^ 80⌋₊ 1 = e at hplace ⊢
  linarith [Nat.cast_nonneg (α := ℝ) p.sinErrDen]

/-- What the rule allows the test permits. -/
theorem sinePermitted_of_sineWithin {p : Config.Params} {m : ℕ} {v : F32} (hv : absPat v ≤ absPat oneF)
    (h : SineWithin p.sinErrNum p.sinErrDen 0 m v) : sinePermitted p m v = true := by
  replace h : |(valF v : ℝ) - 2 ^ 149 * exactSine m| * (p.sinErrDen : ℝ)
    ≤ p.sinErrNum * 2 ^ ulpExp ⌊|2 ^ 149 * exactSine m| + 0⌋₊ 1 + 0 * p.sinErrDen := h
  rw [add_zero, zero_mul, add_zero] at h
  have hplace : (p.sinErrNum : ℝ) * 2 ^ ulpExp ⌊|2 ^ 149 * exactSine m|⌋₊ 1
      ≤ p.sinErrNum * 2 ^ ulpExp (sineMag m + sineSlack) sineDen :=
    mul_le_mul_of_nonneg_left (pow_le_pow_right₀ one_le_two (ulpExp_floor_le m)) (Nat.cast_nonneg _)
  have hdist : |(valF v : ℝ) * 2 ^ 101 - sineFixed m| ≤ |(valF v : ℝ) - 2 ^ 149 * exactSine m| * 2 ^ 101 + 2 ^ 8 := by
    rw [distance_mul_sineDen]
    exact (abs_sub_le _ _ _).trans (add_le_add_right ((abs_sub_comm _ _).trans_le (sineFixed_error m)) _)
  have hden := mul_le_mul_of_nonneg_right hdist (Nat.cast_nonneg p.sinErrDen)
  refine (sinePermitted_iff p m v).2 ⟨hv, ?_⟩
  linarith [Nat.cast_nonneg (α := ℝ) p.sinErrDen]

/-! ### The waveform is what the test permits -/

/-- At a quadrant point the waveform is the sine. -/
theorem valF_quadrantSine (k : ℕ) : (valF (quadrantSine k) : ℝ) = 2 ^ 149 * exactSine (k * 2 ^ 147) := by
  have hzero : exactSine 0 = 0 := by simp [exactSine]
  have hquarter : exactSine (2 ^ 147) = 1 := by
    rw [← Real.sin_pi_div_two, exactSine]
    congr 1
    push_cast
    ring
  have hone : (valF oneF : ℝ) = 2 ^ 149 := by
    rw [valF_oneF, Int.cast_natCast, unitF, Nat.cast_pow, Nat.cast_ofNat]
  have hzeroF : valF posZero = 0 := valF_posZero
  have hsplit : k * 2 ^ 147 = k % 4 * 2 ^ 147 + k / 4 * 2 ^ 149 := by omega
  have hcycle : exactSine (k * 2 ^ 147) = exactSine (k % 4 * 2 ^ 147) :=
    (congrArg exactSine hsplit).trans (exactSine_add_cycles ..)
  rw [hcycle, quadrantSine]
  have hk : k % 4 < 4 := Nat.mod_lt _ (by norm_num)
  interval_cases k % 4
  · rw [Nat.zero_mul, hzero]
    simp [hzeroF]
  · rw [Nat.one_mul, hquarter]
    simp [hone]
  · rw [show 2 * 2 ^ 147 = 0 + 2 ^ 148 by norm_num, exactSine_add_half, hzero]
    simp [hzeroF]
  · rw [show 3 * 2 ^ 147 = 2 ^ 147 + 2 ^ 148 by norm_num, exactSine_add_half, hquarter]
    simp [hone]

theorem sinePermitted_quadrantSine (p : Config.Params) (k : ℕ) : sinePermitted p (k * 2 ^ 147) (quadrantSine k) = true := by
  refine (sinePermitted_iff ..).2 ⟨absPat_quadrantSine_le k, ?_⟩
  have herr : |(valF (quadrantSine k) : ℝ) * 2 ^ 101 - sineFixed (k * 2 ^ 147)| ≤ 2 ^ 20 := by
    have hscale : 2 ^ 149 * exactSine (k * 2 ^ 147) * 2 ^ 101 = 2 ^ 250 * exactSine (k * 2 ^ 147) := by ring
    rw [valF_quadrantSine, hscale, abs_sub_comm]
    exact (sineFixed_error _).trans (by norm_num)
  have hden := mul_le_mul_of_nonneg_right herr (Nat.cast_nonneg p.sinErrDen)
  have hplace : (0 : ℝ) ≤ p.sinErrNum * (2 ^ ulpExp (sineMag (k * 2 ^ 147) + sineSlack) sineDen * 2 ^ 101) := by positivity
  linarith

/-- A rounded magnitude is within half of its last place of the exact one (40_numerics.md R121). -/
theorem roundPat_error {num den : ℕ} (hd : 0 < den) :
    2 * (magOfPat (roundPat num den) * den - num : ℤ).natAbs ≤ 2 ^ ulpExp num den * den := by
  obtain ⟨h1, h2, -⟩ := roundEven_spec num (den * 2 ^ ulpExp num den) (Nat.mul_pos hd (Nat.two_pow_pos _))
  have hmag : (magOfPat (roundPat num den) * den : ℤ)
      = (roundEven num (den * 2 ^ ulpExp num den) * (den * 2 ^ ulpExp num den) : ℕ) := by
    rw [magOfPat_roundPat num den hd]
    push_cast
    ring
  rw [hmag, Nat.mul_comm (2 ^ _)]
  omega

/-- The rounded sine is within half of a last place of the fixed-point one. -/
theorem sineRounded_error (m : ℕ) :
    2 * (valF (sineRounded m) * sineDen - sineFixed m).natAbs ≤ 2 ^ ulpExp (sineMag m) sineDen * sineDen := by
  have hone : absPat oneF < infPat := by decide
  have hle := absPat_sineRounded_le m
  have hpat : absPat (sineRounded m) = roundPat (sineMag m) sineDen := by
    rw [sineRounded, absPat_packF] at hle ⊢
    omega
  have habs : (valF (sineRounded m) * sineDen - sineFixed m).natAbs
      = (magOfPat (roundPat (sineMag m) sineDen) * sineDen - sineMag m : ℤ).natAbs := by
    rw [valF_eq, hpat, sineRounded, signF_packF, sineFixed]
    split
    · rw [← Int.natAbs_neg]
      congr 1
      ring
    · rfl
  rw [habs]
  exact roundPat_error sineDen_pos

/-- The rounded sine is permitted whenever SIN_ERR is at least one half. -/
theorem sinePermitted_sineRounded {p : Config.Params} (hp : p.sinErrDen ≤ 2 * p.sinErrNum) (m : ℕ) :
    sinePermitted p m (sineRounded m) = true := by
  have herr := sineRounded_error m
  have hplace : ulpExp (sineMag m) sineDen ≤ ulpExp (sineMag m + sineSlack) sineDen :=
    ulpExp_mono sineDen_pos sineDen_pos (Nat.mul_le_mul_right _ (Nat.le_add_right _ _))
  rw [sinePermitted, Bool.and_eq_true, decide_eq_true_eq, decide_eq_true_eq]
  refine ⟨absPat_sineRounded_le m, Nat.le_add_right_of_le ?_⟩
  calc (valF (sineRounded m) * sineDen - sineFixed m).natAbs * p.sinErrDen
      ≤ (valF (sineRounded m) * sineDen - sineFixed m).natAbs * (2 * p.sinErrNum) := Nat.mul_le_mul_left _ hp
    _ = p.sinErrNum * (2 * (valF (sineRounded m) * sineDen - sineFixed m).natAbs) := by ring
    _ ≤ p.sinErrNum * (2 ^ ulpExp (sineMag m) sineDen * sineDen) := Nat.mul_le_mul_left _ herr
    _ ≤ p.sinErrNum * (2 ^ ulpExp (sineMag m + sineSlack) sineDen * sineDen) :=
      Nat.mul_le_mul_left _ (Nat.mul_le_mul_right _ (Nat.pow_le_pow_right (by norm_num) hplace))

theorem sinePermitted_sinCycle {p : Config.Params} (hp : p.sinErrDen ≤ 2 * p.sinErrNum) {t : F32}
    (ht : inSineDomain t = true) : sinePermitted p (magF t) (sinCycle p t) = true := by
  by_cases hq : magF t % 2 ^ 147 = 0
  · obtain ⟨k, hk⟩ := Nat.dvd_of_mod_eq_zero hq
    have h := sinePermitted_quadrantSine p k
    rw [sinCycle_of_quadrant p ht hq, hk, Nat.mul_div_cancel_left _ (Nat.two_pow_pos 147), Nat.mul_comm]
    exact h
  · cases hperm : sinePermitted p (magF t) (p.sinChoice t) with
    | true => rw [sinCycle_of_permitted ht hq hperm, hperm]
    | false =>
      rw [sinCycle, if_pos ht, if_neg hq, hperm, if_neg Bool.false_ne_true]
      exact sinePermitted_sineRounded hp _

/-- Settles O36: the fixed-point sine folds the quarter cycle, whose error is bounded, and what the test permits is accurate. -/
theorem sineStaysWithinItsErrorBound : Obligations.SineStaysWithinItsErrorBound := by
  unfold Obligations.SineStaysWithinItsErrorBound
  refine ⟨fun m => (sineFixed_error m).trans (by norm_num), fun p hp t ht => ?_⟩
  have hperm := sinePermitted_sinCycle hp ht
  exact ⟨hperm, sineWithin_of_sinePermitted hperm⟩

/-- Settles O60: at the quadrant points both are exact, and elsewhere the test permits what the rule allows. -/
theorem sineMayBeAnyFunctionTheRuleAllows : Obligations.SineMayBeAnyFunctionTheRuleAllows := by
  unfold Obligations.SineMayBeAnyFunctionTheRuleAllows
  rintro p f ⟨hquad, hacc⟩ t ht
  have hdom : inSineDomain t = true := by
    rw [inSineDomain, Bool.and_eq_true, leF_iff_toNat (by decide) (ht.trans_lt (by decide)),
      leF_iff_toNat (ht.trans_lt (by decide)) (by decide)]
    exact ⟨Nat.zero_le _, ht⟩
  obtain ⟨hbound, hwithin⟩ := hacc t ht
  by_cases hq : magF t % 2 ^ 147 = 0
  · obtain ⟨k, hk, htk, hdiv⟩ := eq_quadrantPoint ht hq
    rw [sinCycle_of_quadrant _ hdom hq, hdiv, htk, hquad k hk, quadrantSine_eq]
  · exact sinCycle_of_permitted (p := { p with sinChoice := f }) hdom hq (sinePermitted_of_sineWithin hbound hwithin)

end Sys2Proof.Machine

/-! ## The delay line: CLEAR, ages, the interpolated read, the delays (41_delay_line.md R152 to R155, 44_control.md R242) -/

namespace Sys2Proof.Machine

/-- Settles O19: CLEAR zeroes the words below `C`, and its acknowledge touches no word. -/
theorem clearZeroesTheDatapath : Obligations.ClearZeroesTheDatapath := by
  unfold Obligations.ClearZeroesTheDatapath
  refine ⟨by decide, fun s => ⟨State.reply .ack (clear s), rfl, rfl, fun x i => ?_⟩⟩
  rw [(memoryBlind_reply .ack).wordAt]
  exact wordAt_clear s x i

/-! ### Ages of the delay words (41_delay_line.md R153) -/

/-- The index of the word of age `k`, where the write head is at `w` and `c` words are in use. -/
def ageIndex (c w k : Nat) : Nat := (w + c - 1 - k) % c

theorem ageWord_eq (s : State) (x : Channel) (k : Nat) :
    ageWord s x k = wordAt s x (ageIndex (capacityNat s) s.wh.toNat k) := rfl

/-- Ages are counted back from the slot before the write head, past index 0 to the last word in use. -/
theorem ageIndex_eq {c w k : Nat} (hw : w < c) (hk : k < c) : ageIndex c w k = if k < w then w - 1 - k else w + c - 1 - k := by
  unfold ageIndex
  split
  · rw [show w + c - 1 - k = w - 1 - k + c by omega, Nat.add_mod_right, Nat.mod_eq_of_lt (by omega)]
  · exact Nat.mod_eq_of_lt (by omega)

/-- The index after `i`, without the remainder (40_numerics.md R128). -/
theorem nextIndex_eq {s : State} {i : Nat} (hi : i < capacityNat s) :
    nextIndex s i = if i + 1 = capacityNat s then 0 else i + 1 := by
  unfold nextIndex
  split
  · next hend => rw [hend, Nat.mod_self]
  · exact Nat.mod_eq_of_lt (by omega)

theorem nextIndex_lt {s : State} (hc : 1 ≤ capacityNat s) (i : Nat) : nextIndex s i < capacityNat s := Nat.mod_lt _ hc

/-- Once the write head has moved on, the slot it left has age 0. -/
theorem ageIndex_nextIndex_zero {s : State} {w : Nat} (hw : w < capacityNat s) :
    ageIndex (capacityNat s) (nextIndex s w) 0 = w := by
  rw [ageIndex_eq (nextIndex_lt (by omega) w) (by omega), nextIndex_eq hw]
  split_ifs <;> omega

/-- Once the write head has moved on, every other slot is one older. -/
theorem ageIndex_nextIndex_succ {s : State} {w k : Nat} (hw : w < capacityNat s) (hk : k + 1 < capacityNat s) :
    ageIndex (capacityNat s) (nextIndex s w) (k + 1) = ageIndex (capacityNat s) w k := by
  rw [ageIndex_eq (nextIndex_lt (by omega) w) hk, ageIndex_eq hw (by omega), nextIndex_eq hw]
  split_ifs <;> omega

/-- Only the oldest word, of age `C - 1`, stands at the write head. -/
theorem ageIndex_ne_writeHead {c w k : Nat} (hw : w < c) (hk : k + 1 < c) : ageIndex c w k ≠ w := by
  rw [ageIndex_eq hw (by omega)]
  split <;> omega

/-- A prepared sample step leaves the words that its two writes leave, and moves the write head on (43_sample_engine.md R200). -/
theorem samplePrepared_memory {p : Config.Params} {l r : F32} {s t : State} (h : samplePrepared p l r s = .ok t) :
    wordAt t = wordAt (sampleWritten l r s) ∧ capacityNat t = capacityNat s ∧ t.wh.toNat = nextIndex s s.wh.toNat := by
  obtain ⟨⟨-, hwh⟩, yL, yR, -, -, rfl⟩ := (samplePrepared_ok_iff ..).1 h
  have hcap : capacityNat (sampleWritten l r s) = capacityNat s := by simp [capacityNat]
  have hnext : nextIndex s s.wh.toNat < 2 ^ 32 := (nextIndex_lt (by omega) _).trans s.capacity.isLt
  refine ⟨wordAt_sampleFinish .., ?_, ?_⟩
  · rw [capacityNat, (memoryBlind_sampleFinish ..).capacity, sampleWritten_capacity, capacityNat]
  · rw [sampleFinish_eq, BitVec.toNat_ofNat, sampleWritten_wh, nextIndex, hcap, ← nextIndex, Nat.mod_eq_of_lt hnext]

/-- The word of age 0 is at the write head of before, where the step wrote. -/
theorem ageWord_zero_samplePrepared {p : Config.Params} {l r : F32} {s t : State} (h : samplePrepared p l r s = .ok t)
    (x : Channel) : ageWord t x 0 = wordAt (sampleWritten l r s) x s.wh.toNat := by
  obtain ⟨⟨-, hwh⟩, -⟩ := (samplePrepared_ok_iff ..).1 h
  obtain ⟨hword, hcap, hhead⟩ := samplePrepared_memory h
  rw [ageWord_eq, hword, hcap, hhead, ageIndex_nextIndex_zero hwh]

/-- The word that had age `k` has age `k + 1`, and is not the one overwritten. -/
theorem ageWord_succ_samplePrepared {p : Config.Params} {l r : F32} {s t : State} (hwf : memWf s = true)
    (h : samplePrepared p l r s = .ok t) (x : Channel) {k : Nat} (hk : k + 1 < capacityNat s) :
    ageWord t x (k + 1) = ageWord s x k := by
  obtain ⟨⟨-, hwh⟩, -⟩ := (samplePrepared_ok_iff ..).1 h
  obtain ⟨hword, hcap, hhead⟩ := samplePrepared_memory h
  rw [ageWord_eq, hword, hcap, hhead, ageIndex_nextIndex_succ hwh hk, wordAt_sampleWritten hwf,
    if_neg (ageIndex_ne_writeHead hwh hk), ageWord_eq]

/-- Settles O27: the write head moves one slot on from the word written, so every age counted from it grows by one. -/
theorem historyShiftsByOneSample : Obligations.HistoryShiftsByOneSample := by
  unfold Obligations.HistoryShiftsByOneSample
  intro s t l r hinv hready hexec
  obtain ⟨hwf, -⟩ := hinv.memoryShape
  have h := (exec_sample_ready_iff hready l r).1 hexec
  refine ⟨?_, ?_, fun x k hk => ageWord_succ_samplePrepared hwf h x hk⟩
  · rw [ageWord_zero_samplePrepared h, wordAt_sampleWritten hwf, if_pos rfl]
  · rw [ageWord_zero_samplePrepared h, wordAt_sampleWritten hwf, if_pos rfl]

/-! ### The interpolated read (41_delay_line.md R152) -/

/-- The guard for `n = C` keeps the older index among the words in use (90_conflicts.md C5). -/
theorem olderIndex_lt {s : State} {n : Nat} (hc : 1 ≤ capacityNat s) (hn : n ≤ capacityNat s) : olderIndex s n < capacityNat s := by
  unfold olderIndex
  split <;> omega

/-- A read at a position with integer part at most `C` answers the interpolation of its two words. -/
theorem dlReadInterp_of_floor {p : Config.Params} {s : State} {d : F32} {n : Nat} (x : Channel) (hc : 1 ≤ capacityNat s)
    (hp : capacityNat s ≤ p.dlDepth) (hfloor : floorF (readPosition d s) = some n) (hn : n ≤ capacityNat s) :
    dlReadInterp p x d s = .ok (interpolate (subF (readPosition d s) (toF32 n)) (wordAt s x (olderIndex s n))
      (wordAt s x (nextIndex s (olderIndex s n)))) := by
  have ho := olderIndex_lt hc hn
  have hx := nextIndex_lt hc (olderIndex s n)
  exact (dlReadInterp_ok_iff ..).2 ⟨n, hfloor, ⟨ho.trans_le hp, ho⟩, ⟨hx.trans_le hp, hx⟩, rfl⟩

/-- Settles O28: both indices of the read are among the words in use, which the memories hold. -/
theorem readInterpolatesTwoNeighbours : Obligations.ReadInterpolatesTwoNeighbours := by
  unfold Obligations.ReadInterpolatesTwoNeighbours
  intro s x d n hc hle r0 r hfloor hn i frac
  exact dlReadInterp_of_floor x hc hle hfloor hn

/-- Settles O29, with the bounds that let every step complete. -/
theorem mappedDelaysAreAdmissible : Obligations.MappedDelaysAreAdmissible := by
  unfold Obligations.MappedDelaysAreAdmissible
  exact fun s h hr off ho => h.mapDelay_bounds hr ho

end Sys2Proof.Machine

/-! ## The oscillator: the phase stays below 1.0 and never sticks (42_oscillator.md R171 to R174) -/

namespace Sys2Proof.Machine

/-- Settles O33: the increment is at most one half, so that one subtraction of 1.0 brings the phase back. -/
theorem phaseStaysBelowOne : Obligations.PhaseStaysBelowOne := by
  unfold Obligations.PhaseStaysBelowOne
  intro ph rate sr hp hr h1 h2
  obtain ⟨hfin, h0, hhalf⟩ := lfoIncrement_bounds hr h1 h2
  exact nextPhase_lt_one hp hfin h0 hhalf

/-- An integer from 1 to below `2^24` does not convert to a zero (40_numerics.md R127). -/
theorem isZeroF_toF32 {n : Nat} (h0 : 0 < n) (h : n < 2 ^ 24) : isZeroF (toF32 n) = false := by
  obtain ⟨-, hs, hv⟩ := toF32_exact h
  have hpos : 0 < n * unitF := Nat.mul_pos h0 unitF_pos
  refine decide_eq_false fun hp => ?_
  rw [valF_of_nonneg hs, hp, magOfPat_zero] at hv
  omega

/-- The increment lies between any two binary32 numbers that the slowest rate at the highest sample rate and the fastest rate at the
lowest sample rate lie between (42_oscillator.md R171). -/
theorem lfoIncrement_between {rate lo hi : F32} {sr : Nat} (hr : paramInRange .rate rate) (h1 : 1000 ≤ sr) (h2 : sr ≤ 384000)
    (hlo : isFiniteF lo = true) (hhi : isFiniteF hi = true) (hlo0 : 0 ≤ valF lo) (hhi0 : 0 ≤ valF hi)
    (hslow : valF lo * 384000 ≤ valF (paramLo .rate)) (hfast : valF (paramHi .rate) ≤ valF hi * 1000) :
    isFiniteF (divF rate (toF32 sr)) = true ∧ valF lo ≤ valF (divF rate (toF32 sr)) ∧ valF (divF rate (toF32 sr)) ≤ valF hi := by
  obtain ⟨hsf, hss, hsv⟩ := toF32_exact (n := sr) (by omega)
  have hinf : rate.toNat < infPat := hr.2.trans_lt (paramHi_lt_infPat .rate)
  have hrs : signF rate = false := (nonneg_of_toNat_lt (hinf.trans (by decide))).1
  have hr0 : valF (paramLo .rate) ≤ valF rate := (valF_le_iff_toNat (by decide) hrs).2 hr.1
  have hr1 : valF rate ≤ valF (paramHi .rate) := (valF_le_iff_toNat hrs (by decide)).2 hr.2
  have hlow : valF lo * sr ≤ valF rate :=
    ((Int.mul_le_mul_of_nonneg_left (by omega) hlo0).trans hslow).trans hr0
  have hupp : valF rate ≤ valF hi * sr :=
    (hr1.trans hfast).trans (Int.mul_le_mul_of_nonneg_left (by omega) hhi0)
  have hu : (0 : Int) ≤ unitF := by positivity
  obtain ⟨hfin, h0, h1, -⟩ := divF_between (valF_of_toNat hinf).2 hsf hrs hss (isZeroF_toF32 (by omega) (by omega)) hlo hhi
    (by rw [hsv, ← Int.mul_assoc]; exact Int.mul_le_mul_of_nonneg_right hlow hu)
    (by rw [hsv, ← Int.mul_assoc]; exact Int.mul_le_mul_of_nonneg_right hupp hu)
  exact ⟨hfin, h0, h1⟩

/-- The increment is from `2^-24`, the spacing of the numbers just below 1.0, to one quarter (42_oscillator.md R171, R174). -/
theorem lfoIncrement_ge_spacing {rate : F32} {sr : Nat} (hr : paramInRange .rate rate) (h1 : 1000 ≤ sr) (h2 : sr ≤ 384000) :
    isFiniteF (divF rate (toF32 sr)) = true ∧ valF 0x33800000 ≤ valF (divF rate (toF32 sr))
      ∧ valF (divF rate (toF32 sr)) ≤ valF 0x3E800000 :=
  lfoIncrement_between hr h1 h2 (by decide) (by decide) (by decide +kernel) (by decide +kernel) (by decide +kernel)
    (by decide +kernel)

/-- From a number in `[+0, 1.0)` to the next pattern is a step of at most `2^-24`. -/
theorem valF_add_one_bounds {a : F32} (h : a.toNat < 0x3F800000) :
    isFiniteF (a + 1) = true ∧ valF a < valF (a + 1) ∧ valF (a + 1) ≤ valF a + valF 0x33800000 := by
  have hinf : 0x3F800000 < infPat := by decide
  have hspacing : valF 0x33800000 = 2 ^ 125 := by decide +kernel
  have hto : (a + 1).toNat = a.toNat + 1 := by bv_omega
  obtain ⟨hv, -⟩ := valF_of_toNat (a := a) (by omega)
  obtain ⟨hv1, hf1⟩ := valF_of_toNat (a := a + 1) (by omega)
  have hpos : 0 < 2 ^ (a.toNat / 2 ^ 23 - 1) := Nat.two_pow_pos _
  have hstep : 2 ^ (a.toNat / 2 ^ 23 - 1) ≤ 2 ^ 125 := Nat.pow_le_pow_right (by norm_num) (by omega)
  have hsucc := magOfPat_succ a.toNat
  rw [hv, hv1, hto, hspacing]
  exact ⟨hf1, by omega, by omega⟩

/-- An increment of at least the spacing below 1.0 moves the sum past the phase, whatever the rounding (42_oscillator.md R174). -/
theorem valF_lt_addF {ph inc : F32} (hp : ph.toNat < 0x3F800000) (hi : isFiniteF inc = true) (h0 : valF 0x33800000 ≤ valF inc)
    (h1 : valF inc ≤ valF 0x3E800000) : valF ph < valF (addF ph inc) := by
  obtain ⟨hpf, -, hp1⟩ := valF_of_toNat_le_oneF hp.le
  obtain ⟨hnf, hlt, hle⟩ := valF_add_one_bounds hp
  have htop : valF 0x3FA00000 = unitF + valF 0x3E800000 := by decide +kernel
  obtain ⟨-, hsum, -⟩ := addF_between hpf hi hnf (hi := 0x3FA00000) (by decide) (by omega) (by omega)
  omega

/-- Only a phase above one half wraps, and it wraps to at most one quarter (42_oscillator.md R172). -/
theorem valF_wrap_lt {ph inc : F32} (hp : ph.toNat < 0x3F800000) (hi : isFiniteF inc = true) (h0 : 0 ≤ valF inc)
    (h1 : valF inc ≤ valF 0x3E800000) (hw : geF (addF ph inc) oneF = true) : valF (subF (addF ph inc) oneF) < valF ph := by
  obtain ⟨hpf, hp0, hp1⟩ := valF_of_toNat_le_oneF hp.le
  have hone := valF_oneF
  have hzero := valF_posZero
  have hquarter : 4 * valF 0x3E800000 = unitF := by decide +kernel
  have hhalf := two_mul_valF_halfF
  have hthree : valF 0x3F400000 = valF halfF + valF 0x3E800000 := by decide +kernel
  have htop : valF 0x3FA00000 = unitF + valF 0x3E800000 := by decide +kernel
  have hu := unitF_pos
  obtain ⟨hsf, -, hs1⟩ := addF_between (lo := posZero) (hi := 0x3FA00000) hpf hi (by decide) (by decide) (by omega) (by omega)
  rw [geF_iff hsf (by decide)] at hw
  have hph : valF halfF < valF ph := by
    by_contra hcon
    obtain ⟨-, -, hs⟩ := addF_between (lo := posZero) (hi := 0x3F400000) hpf hi (by decide) (by decide) (by omega) (by omega)
    omega
  obtain ⟨-, -, hd1⟩ := subF_between (lo := posZero) (hi := 0x3E800000) hsf (b := oneF) (by decide) (by decide) (by decide)
    (by omega) (by omega)
  omega

/-- Settles O34: without the wrap the phase rises, with it the phase falls. -/
theorem phaseNeverSticks : Obligations.PhaseNeverSticks := by
  unfold Obligations.PhaseNeverSticks
  intro ph rate sr hp hr h1 h2 heq
  obtain ⟨hfin, hlow, hupp⟩ := lfoIncrement_ge_spacing hr h1 h2
  have hspacing : 0 ≤ valF 0x33800000 := by decide +kernel
  unfold nextPhase at heq
  split at heq
  · next hw => exact (valF_wrap_lt hp hfin (hspacing.trans hlow) hupp hw).ne (congrArg valF heq)
  · exact (valF_lt_addF hp hfin hlow hupp).ne' (congrArg valF heq)

end Sys2Proof.Machine

/-! ## The sample engine: the mapper and the mixer (43_sample_engine.md R190 to R195) -/

namespace Sys2Proof.Machine

/-! ### Zeros in products and sums (40_numerics.md R123, R129) -/

theorem eq_zero_of_isZeroF {z : F32} (h : isZeroF z = true) : z = posZero ∨ z = negZero := by
  have hp : absPat z = 0 := of_decide_eq_true h
  cases hs : signF z with
  | false => exact .inl (eq_of_sign_of_absPat hs hp)
  | true => exact .inr (eq_of_sign_of_absPat hs hp)

theorem valF_ne_zero {x : F32} (h : isZeroF x = false) : valF x ≠ 0 := by
  have hpos := magF_pos h
  rw [← natAbs_valF] at hpos
  exact Int.natAbs_pos.1 hpos

/-- A product of a finite number and a zero is a zero. -/
theorem mulF_of_isZeroF {a z : F32} (ha : isFiniteF a = true) (hz : isZeroF z = true) :
    mulF a z = if signF a = signF z then posZero else negZero := by
  have hmag : magF z = 0 := by rw [magF, of_decide_eq_true hz, magOfPat_zero]
  have hround : roundPat 0 unitF = 0 := by simpa using roundPat_magOfPat 0 unitF unitF_pos
  rw [mulF_of_finite ha (isFiniteF_of_isZeroF hz), hmag, Nat.mul_zero, roundF_eq_packF, hround]
  cases signF a <;> cases signF z <;> decide

/-- An operand that is NaN or an infinity makes a product with a zero NaN (40_numerics.md R122). -/
theorem mulF_of_isZeroF_of_not_finite {a z : F32} (ha : isFiniteF a = false) (hz : isZeroF z = true) :
    mulF a z = canonicalNaN := by
  cases hn : isNaNF a with
  | true => exact mulF_of_isNaNF (.inl hn)
  | false =>
    rcases isInfF_or_isFiniteF hn with hi | hf
    · rw [mulF_of_isInfF_left hi (isNaNF_of_finite (isFiniteF_of_isZeroF hz)), if_pos hz]
    · cases ha.symm.trans hf

/-- A sum with `-0` is the other operand. -/
theorem addF_negZero {x : F32} (h : isNaNF x = false) : addF x negZero = x := by
  rcases isInfF_or_isFiniteF h with hi | hf
  · rw [addF_of_isInfF_left hi (by decide)]
    exact if_neg (by simp [show isInfF negZero = false by decide])
  cases hz : isZeroF x with
  | true => rcases eq_zero_of_isZeroF hz with rfl | rfl <;> decide +kernel
  | false =>
    have hv := valF_ne_zero hz
    rw [addF_of_finite hf (by decide), show valF negZero = 0 by decide, Int.add_zero, if_neg hv, roundF_valF h hv]

/-- The order of the operands of a sum does not matter; two infinities that do not cancel are the same one. -/
theorem addF_comm (a b : F32) : addF a b = addF b a := by
  by_cases hn : isNaNF a = true ∨ isNaNF b = true
  · rw [addF_of_isNaNF hn, addF_of_isNaNF hn.symm]
  obtain ⟨ha, hb⟩ : isNaNF a = false ∧ isNaNF b = false := by simpa using hn
  rcases isInfF_or_isFiniteF ha with hia | hfa <;> rcases isInfF_or_isFiniteF hb with hib | hfb
  · rw [addF_of_isInfF_left hia hb, addF_of_isInfF_left hib ha, hia, hib]
    by_cases hs : signF a = signF b
    · rw [eq_of_sign_of_absPat hs ((absPat_of_isInfF hia).trans (absPat_of_isInfF hib).symm)]
    · simp [hs, Ne.symm hs]
  · rw [addF_of_isInfF_right hfb hia, addF_of_isInfF_left hia hb, isInfF_of_finite hfb]
    rfl
  · rw [addF_of_isInfF_right hfa hib, addF_of_isInfF_left hib ha, isInfF_of_finite hfa]
    rfl
  · rw [addF_of_finite hfa hfb, addF_of_finite hfb hfa, Int.add_comm, Bool.and_comm]

/-! ### The mixer at its ends (43_sample_engine.md R195) -/

/-- At `DRYWET` 0 the input is added to the delayed sample times `+0`. -/
theorem mix_zero {input : F32} (y : F32) (h : isNaNF input = false) : mix input y posZero = addF input (mulF y posZero) := by
  rw [mix, show subF oneF posZero = oneF by decide +kernel, mulF_oneF h]

/-- At `DRYWET` 1 the delayed sample is added to the input times `+0`. -/
theorem mix_one (input : F32) {y : F32} (h : isNaNF y = false) : mix input y oneF = addF y (mulF input posZero) := by
  rw [mix, show subF oneF oneF = posZero by decide +kernel, mulF_oneF h, addF_comm]

/-- A sum with a finite number times `+0`: the other operand, but that `-0` gives `+0` where the number is not negative. -/
theorem addF_mulF_posZero {x a : F32} (hx : isNaNF x = false) (ha : isFiniteF a = true) :
    addF x (mulF a posZero) = if x = negZero ∧ signF a = false then posZero else x := by
  rw [mulF_of_isZeroF ha (by decide), show signF posZero = false by decide]
  cases signF a with
  | false => simpa using addF_posZero hx
  | true => simpa using addF_negZero hx

/-- Settles O42: the side of weight zero is a zero added to the other side, or NaN. -/
theorem mixAtTheEndsPassesOneSide : Obligations.MixAtTheEndsPassesOneSide := by
  unfold Obligations.MixAtTheEndsPassesOneSide
  intro input y
  refine ⟨fun hy hin => ?_, fun hy => ?_, fun hin hy => ?_, fun hin => ?_⟩
  · rw [show (0 : F32) = posZero from rfl, mix_zero y hin, addF_mulF_posZero hin hy]
    split
    · next h => exact .inr ⟨h.1, rfl⟩
    · exact .inl rfl
  · have hnan : isNaNF (mulF y posZero) = true := by
      rw [mulF_of_isZeroF_of_not_finite hy (by decide), isNaNF_canonicalNaN]
    exact addF_of_isNaNF (.inr hnan)
  · exact (mix_one input hy).trans (addF_mulF_posZero hy hin)
  · have hnan : isNaNF (mulF input (subF oneF oneF)) = true := by
      rw [mulF_of_isZeroF_of_not_finite hin (by decide +kernel), isNaNF_canonicalNaN]
    exact addF_of_isNaNF (.inl hnan)

/-! ### The mapper's formula (43_sample_engine.md R191, R193) -/

/-- The mapper's sum is the formula's for every finite LFO value: with depth 0 that is 1.0 as well. -/
theorem mapSum_eq {lfo : F32} (depth : F32) (hl : isFiniteF lfo = true) : mapSum lfo depth = addF (mulF lfo depth) oneF := by
  unfold mapSum
  split
  · next hz =>
    rw [mulF_of_isZeroF hl hz]
    split <;> decide +kernel
  · rfl

/-- Settles O30: the sum is the formula's, and so is what the mapper does with it. -/
theorem mapperIsTheStatedFormula : Obligations.MapperIsTheStatedFormula := by
  unfold Obligations.MapperIsTheStatedFormula
  intro lfo depth s hl _
  rw [mapDelay, mapDelay, mapSeconds, mapSeconds, mapSum_eq depth hl]
  exact ⟨rfl, rfl⟩

/-- Settles O32: with depth 0 the sum is 1.0 whatever the LFO value, and what is left is arithmetic on constants. -/
theorem depthZeroFixesTheDelay : Obligations.DepthZeroFixesTheDelay := by
  unfold Obligations.DepthZeroFixesTheDelay
  intro lfo hl
  have hone : mapSum lfo 0 = oneF := if_pos (by decide)
  have hsum : addF (mulF lfo 0) 0x3F800000 = oneF := (mapSum_eq 0 hl).symm.trans hone
  rw [mapSeconds, mapSeconds, hone, hsum]
  decide +kernel

/-! ### The mapper's range (43_sample_engine.md R192) -/

/-- A positive sum, as a pattern. -/
theorem toNat_addF_of_pos {a b : F32} (ha : isFiniteF a = true) (hb : isFiniteF b = true) (h : 0 < valF a + valF b) :
    (addF a b).toNat = min (roundPat (valF a + valF b).natAbs 1) infPat := by
  rw [addF_of_finite ha hb, if_neg h.ne', decide_eq_false h.not_gt, toNat_eq, signF_roundF, absPat_roundF]
  exact Nat.zero_add _

/-- Rounding keeps the order of positive sums. -/
theorem toNat_addF_mono {a b c d : F32} (ha : isFiniteF a = true) (hb : isFiniteF b = true) (hc : isFiniteF c = true)
    (hd : isFiniteF d = true) (h0 : 0 < valF a + valF b) (h : valF a + valF b ≤ valF c + valF d) :
    (addF a b).toNat ≤ (addF c d).toNat := by
  rw [toNat_addF_of_pos ha hb h0, toNat_addF_of_pos hc hd (h0.trans_le h)]
  exact min_le_min_right _ (roundPat_mono Nat.one_pos Nat.one_pos (by omega))

/-- A product with a number from 0 to 1 is from 0 to the other factor. -/
theorem mulF_bounds_of_unit {a w : F32} (haf : isFiniteF a = true) (ha0 : 0 ≤ valF a) (ha1 : valF a ≤ unitF)
    (hwf : isFiniteF w = true) (hw0 : 0 ≤ valF w) :
    isFiniteF (mulF a w) = true ∧ 0 ≤ valF (mulF a w) ∧ valF (mulF a w) ≤ valF w := by
  have hzero := valF_posZero
  obtain ⟨hf, h0, h1⟩ := mulF_between (lo := posZero) (hi := w) haf hwf (by decide) hwf
    (by rw [hzero, Int.zero_mul]; exact Int.mul_nonneg ha0 hw0)
    (by rw [Int.mul_comm (valF w)]; exact Int.mul_le_mul_of_nonneg_right ha1 hw0)
  exact ⟨hf, hzero ▸ h0, h1⟩

/-- Half of the mapper's sum is from 0 to 1. -/
theorem mapSum_half_bounds {lfo depth : F32} (hl : absPat lfo ≤ absPat oneF) (hd : paramInRange .depth depth) :
    isFiniteF (mulF (mapSum lfo depth) halfF) = true ∧ 0 ≤ valF (mulF (mapSum lfo depth) halfF)
      ∧ valF (mulF (mapSum lfo depth) halfF) ≤ unitF := by
  obtain ⟨hsf, hs0, hs2⟩ := mapSum_bounds hl hd
  have hhalf := two_mul_valF_halfF
  have hzero := valF_posZero
  have hone := valF_oneF
  obtain ⟨hf, h0, h1⟩ := mulF_between (lo := posZero) (hi := oneF) hsf (by decide : isFiniteF halfF = true) (by decide)
    (by decide) (by rw [hzero, Int.zero_mul]; exact Int.mul_nonneg hs0 (by omega))
    (by rw [hone, ← hhalf, Int.mul_left_comm, ← Int.mul_assoc]
        exact Int.mul_le_mul_of_nonneg_right (hhalf ▸ hs2) (by omega))
  exact ⟨hf, hzero ▸ h0, hone ▸ h1⟩

/-- The mapped value lies between the low bound and the rounded sum of low bound and width, as patterns. -/
theorem toNat_mapSeconds_bounds {lfo depth : F32} (hl : absPat lfo ≤ absPat oneF) (hd : paramInRange .depth depth) (m : Mode) :
    (addF (mapLo m) posZero).toNat ≤ (mapSeconds lfo depth m).toNat
      ∧ (mapSeconds lfo depth m).toNat ≤ (addF (mapLo m) (mapWidth m)).toNat := by
  obtain ⟨haf, ha0, ha1⟩ := mapSum_half_bounds hl hd
  obtain ⟨hlf, hl0, hwf, hw0⟩ : isFiniteF (mapLo m) = true ∧ 0 < valF (mapLo m) ∧ isFiniteF (mapWidth m) = true
    ∧ 0 ≤ valF (mapWidth m) := by cases m <;> decide +kernel
  obtain ⟨hf, h0, h1⟩ := mulF_bounds_of_unit haf ha0 ha1 hwf hw0
  have hzero := valF_posZero
  exact ⟨toNat_addF_mono hlf (by decide) hlf hf (by omega) (by omega), toNat_addF_mono hlf hf hlf hwf (by omega) (by omega)⟩

/-- Settles O31: the largest value of each topology is its low bound plus its width, rounded. -/
theorem mapperStaysInItsRange : Obligations.MapperStaysInItsRange := by
  unfold Obligations.MapperStaysInItsRange
  intro lfo depth hl hd
  obtain ⟨hc0, hc1⟩ := toNat_mapSeconds_bounds hl hd .chorus
  obtain ⟨hf0, hf1⟩ := toNat_mapSeconds_bounds hl hd .flanger
  have hends : (addF (mapLo .chorus) posZero).toNat = 0x3BA3D70A ∧ (addF (mapLo .chorus) (mapWidth .chorus)).toNat = 0x3CF5C28E
      ∧ (addF (mapLo .flanger) posZero).toNat = 0x3A83126F
      ∧ (addF (mapLo .flanger) (mapWidth .flanger)).toNat = 0x3BA3D70A := by decide +kernel
  omega

end Sys2Proof.Machine

/-! ## The sample engine: SAMPLE, its channels and its parameters (43_sample_engine.md R200 to R204) -/

namespace Sys2Proof.Machine

/-! ### A prepared SAMPLE (43_sample_engine.md R200) -/

/-- What a prepared sample step does, as one record update: its reads are of the memories as written. -/
theorem samplePrepared_cases {p : Config.Params} {l r : F32} {s t : State} (h : samplePrepared p l r s = .ok t) :
    ∃ yL yR, dlReadInterp p .left (channelDelay p (snapshot s) .left s) (sampleWritten l r s) = .ok yL
      ∧ dlReadInterp p .right (channelDelay p (snapshot s) .right s) (sampleWritten l r s) = .ok yR
      ∧ t = { s with
          ph := nextPhase s.ph (lfoInc s.rate s)
          fbl := mulF yL s.feedback, fbr := mulF yR s.feedback
          wh := BitVec.ofNat 32 (nextIndex s s.wh.toNat)
          spOut := s.spOut ++ [mix r yR s.dryWet ++ mix l yL s.dryWet]
          bufL := Memory.write (unlistedWord s .left) s.bufL s.wh.toNat (addF l s.fbl)
          bufR := Memory.write (unlistedWord s .right) s.bufR s.wh.toNat (addF r s.fbr) } := by
  obtain ⟨-, yL, yR, hL, hR, rfl⟩ := (samplePrepared_ok_iff ..).1 h
  refine ⟨yL, yR, hL, hR, ?_⟩
  rw [sampleFinish_eq]
  rfl

/-- Settles O26: the phase advance touches nothing that the writes and the reads depend on. -/
theorem preparedSampleComputesTheStep : Obligations.PreparedSampleComputesTheStep := by
  unfold Obligations.PreparedSampleComputesTheStep
  intro s l r hinv hready
  obtain ⟨hwf, -⟩ := hinv.memoryShape
  obtain ⟨t, ht⟩ := hinv.samplePrepared_completes hready l r
  obtain ⟨hword, -⟩ := samplePrepared_memory ht
  obtain ⟨yL, yR, hL, hR, heq⟩ := samplePrepared_cases ht
  refine ⟨t, _, yL, yR, (exec_sample_ready_iff hready l r).2 ht, rfl, dlReadInterp_congr rfl rfl (fun _ _ => rfl) hL,
    dlReadInterp_congr rfl rfl (fun _ _ => rfl) hR, ?_, fun i => ?_, fun i => ?_⟩
  · rw [heq]
    rfl
  · rw [hword, wordAt_sampleWritten hwf]
  · rw [hword, wordAt_sampleWritten hwf]

/-! ### The two channels (43_sample_engine.md R202) -/

/-- Two reads with the same write head, capacity, words in use and delay answer the same sample, whatever their channels. -/
theorem dlReadInterp_unique {p : Config.Params} {x y : Channel} {d a b : F32} {s t : State} (hw : s.wh = t.wh)
    (hc : s.capacity = t.capacity) (h : ∀ i, i < capacityNat s → wordAt s x i = wordAt t y i)
    (ha : dlReadInterp p x d s = .ok a) (hb : dlReadInterp p y d t = .ok b) : a = b :=
  Except.ok.inj ((dlReadInterp_congr hw hc h ha).symm.trans hb)

/-- The left channel of a prepared step with the right one's input, feedback and memory replaced. -/
theorem samplePrepared_left_of_right_replaced {p : Config.Params} {l r v f : F32} {m : Memory} {s t u : State}
    (ht : samplePrepared p l r s = .ok t) (hu : samplePrepared p l v { s with fbr := f, bufR := m } = .ok u) :
    t.fbl = u.fbl ∧ t.bufL = u.bufL ∧ t.ph = u.ph ∧ t.wh = u.wh
      ∧ ∃ o a b : F32, t.spOut = s.spOut ++ [a ++ o] ∧ u.spOut = s.spOut ++ [b ++ o] := by
  obtain ⟨yL, yR, hy, -, rfl⟩ := samplePrepared_cases ht
  obtain ⟨zL, zR, hz, -, rfl⟩ := samplePrepared_cases hu
  obtain rfl : yL = zL := dlReadInterp_unique rfl rfl (fun _ _ => rfl) hy hz
  exact ⟨rfl, rfl, rfl, rfl, _, _, _, rfl, rfl⟩

/-- The right channel of a prepared step with the left one's input, feedback and memory replaced. -/
theorem samplePrepared_right_of_left_replaced {p : Config.Params} {l r v f : F32} {m : Memory} {s t u : State}
    (ht : samplePrepared p l r s = .ok t) (hu : samplePrepared p v r { s with fbl := f, bufL := m } = .ok u) :
    t.fbr = u.fbr ∧ t.bufR = u.bufR ∧ t.ph = u.ph ∧ t.wh = u.wh
      ∧ ∃ o a b : F32, t.spOut = s.spOut ++ [o ++ a] ∧ u.spOut = s.spOut ++ [o ++ b] := by
  obtain ⟨yL, yR, -, hy, rfl⟩ := samplePrepared_cases ht
  obtain ⟨zL, zR, -, hz, rfl⟩ := samplePrepared_cases hu
  obtain rfl : yR = zR := dlReadInterp_unique rfl rfl (fun _ _ => rfl) hy hz
  exact ⟨rfl, rfl, rfl, rfl, _, _, _, rfl, rfl⟩

/-- Settles O55: a bypassed beat passes each lane, and a prepared step reads and writes each memory for its own channel. -/
theorem channelsAreIndependent : Obligations.ChannelsAreIndependent := by
  unfold Obligations.ChannelsAreIndependent
  intro s t u l r v f m ht
  rcases s.ready.eq_false_or_eq_true with hready | hready
  · have hts := (exec_sample_ready_iff hready l r).1 ht
    exact ⟨
      fun hu => samplePrepared_left_of_right_replaced hts
        ((exec_sample_ready_iff (s := { s with fbr := f, bufR := m }) hready l v).1 hu),
      fun hu => samplePrepared_right_of_left_replaced hts
        ((exec_sample_ready_iff (s := { s with fbl := f, bufL := m }) hready v r).1 hu)⟩
  · cases (exec_sample_notReady hready l r).symm.trans ht
    refine ⟨fun hu => ?_, fun hu => ?_⟩
    · cases (exec_sample_notReady (s := { s with fbr := f, bufR := m }) hready l v).symm.trans hu
      exact ⟨rfl, rfl, rfl, rfl, l, r, v, rfl, rfl⟩
    · cases (exec_sample_notReady (s := { s with fbl := f, bufL := m }) hready v r).symm.trans hu
      exact ⟨rfl, rfl, rfl, rfl, r, l, v, rfl, rfl⟩

/-- Settles O56: equal words are written over equal words, so the two reads, at the same delay, answer the same sample. -/
theorem equalChannelsStayEqual : Obligations.EqualChannelsStayEqual := by
  unfold Obligations.EqualChannelsStayEqual
  intro s t v hwf hoff hfb hwords ht
  cases hready : s.ready with
  | false =>
    cases (exec_sample_notReady hready v v).symm.trans ht
    refine ⟨hfb, ⟨v, rfl⟩, fun i hi => ?_⟩
    rw [(memoryBlind_sampleBypass v v).wordAt]
    exact hwords i hi
  | true =>
    have hts := (exec_sample_ready_iff hready v v).1 ht
    obtain ⟨hword, hcap, -⟩ := samplePrepared_memory hts
    obtain ⟨yL, yR, hL, hR, rfl⟩ := samplePrepared_cases hts
    have hwritten : ∀ i, i < capacityNat s → wordAt (sampleWritten v v s) .left i = wordAt (sampleWritten v v s) .right i := by
      intro i hi
      rw [wordAt_sampleWritten hwf, wordAt_sampleWritten hwf, hfb, hwords i hi]
    have hdelay : channelDelay params (snapshot s) .right s = channelDelay params (snapshot s) .left s := by
      simp only [channelDelay, snapshot, hoff, posZero]
    rw [hdelay] at hR
    obtain rfl : yL = yR := dlReadInterp_unique rfl rfl hwritten hL hR
    refine ⟨rfl, ⟨_, rfl⟩, fun i hi => ?_⟩
    rw [hword]
    exact hwritten i (hcap ▸ hi)

/-! ### Who changes a parameter (43_sample_engine.md R204) -/

/-- The parameter registers, `SRATE` and `MAXBLK` are the same in two states. -/
structure ParamsKept (s t : State) : Prop where
  dryWet : t.dryWet = s.dryWet
  depth : t.depth = s.depth
  rate : t.rate = s.rate
  phaseOff : t.phaseOff = s.phaseOff
  feedback : t.feedback = s.feedback
  mode : t.mode = s.mode
  srate : t.srate = s.srate
  maxblk : t.maxblk = s.maxblk

theorem ParamsKept.reply {s t : State} (h : ParamsKept s t) (r : CpReply) : ParamsKept s (t.reply r) :=
  ⟨h.dryWet, h.depth, h.rate, h.phaseOff, h.feedback, h.mode, h.srate, h.maxblk⟩

theorem paramsKept_prepare (s : State) : ParamsKept s (prepare params s) := by
  cases hok : prepareOk params s.srate.toNat with
  | true => rw [prepare_of_ok hok]; exact ⟨rfl, rfl, rfl, rfl, rfl, rfl, rfl, rfl⟩
  | false => rw [prepare_of_not_ok hok]; exact ⟨rfl, rfl, rfl, rfl, rfl, rfl, rfl, rfl⟩

theorem paramsKept_clear (s : State) : ParamsKept s (clear s) := by constructor <;> simp

theorem paramsKept_samplePrepared {l r : F32} {s t : State} (h : samplePrepared params l r s = .ok t) : ParamsKept s t := by
  obtain ⟨yL, yR, -, -, rfl⟩ := samplePrepared_cases h
  exact ⟨rfl, rfl, rfl, rfl, rfl, rfl, rfl, rfl⟩

/-- An instruction keeps these registers, unless it is a write of one or DEFAULTS. -/
theorem exec_param_cases {i : Instr} {s t : State} (h : exec i s = .next t) :
    ParamsKept s t
    ∨ (i = .cmdDefaults ∧ t = State.reply .ack (restoreDefaults s))
    ∨ (∃ q v, i = paramWrite q v ∧ t = State.reply .ack (s.setParam q (clampParam q v)))
    ∨ (∃ v, i = .wrMode v ∧ t = State.reply .ack { s with mode := modeOf v })
    ∨ (∃ v, i = .wrSrate v ∧ t = State.reply .ack { s with srate := v })
    ∨ (∃ v, i = .wrMaxblk v ∧ t = State.reply .ack { s with maxblk := v }) := by
  rcases exec_cases h with ⟨-, r, rfl⟩ | hsrate | hmaxblk | hparam | hmode | ⟨-, rfl⟩ | ⟨-, rfl⟩ | hdef | ⟨-, rfl⟩
    | ⟨l, r, -, -, rfl⟩ | ⟨l, r, -, -, hs⟩
  · exact .inl ⟨rfl, rfl, rfl, rfl, rfl, rfl, rfl, rfl⟩
  · exact .inr (.inr (.inr (.inr (.inl hsrate))))
  · exact .inr (.inr (.inr (.inr (.inr hmaxblk))))
  · exact .inr (.inr (.inl hparam))
  · exact .inr (.inr (.inr (.inl hmode)))
  · exact .inl ((paramsKept_prepare s).reply .ack)
  · exact .inl ((paramsKept_clear s).reply .ack)
  · exact .inr (.inl hdef)
  · exact .inl ⟨rfl, rfl, rfl, rfl, rfl, rfl, rfl, rfl⟩
  · exact .inl ⟨rfl, rfl, rfl, rfl, rfl, rfl, rfl, rfl⟩
  · exact .inl (paramsKept_samplePrepared hs)

/-- A transaction is not of a kind that it is kept from being. -/
theorem NeitherResetNor.elim {tr : Transaction} {q : Instr → Prop} {i : Instr} {c : Prop} (h : NeitherResetNor tr q)
    (hd : decodeTransaction tr = some (.ok i)) (hq : q i) : c :=
  absurd hq (h.2 i hd)

/-- Settles O54: a reset and each write are excluded for the registers they change, and leave the others. -/
theorem parametersChangeOnlyByTheirWrites : Obligations.ParametersChangeOnlyByTheirWrites := by
  unfold Obligations.ParametersChangeOnlyByTheirWrites
  intro s t tr rest hp hstep
  rcases step_cases hstep with ⟨h0, -⟩ | ⟨tr', rest', hp', hcase⟩
  · cases h0.symm.trans hp
  cases hp.symm.trans hp'
  rcases hcase with ⟨hrst, -⟩ | ⟨w, k, -, -, rfl⟩ | ⟨i, hd, hex⟩
  · refine ⟨?_, ?_, ?_, ?_, ?_, ?_, ?_, ?_⟩ <;> exact fun h => absurd hrst h.1
  · refine ⟨?_, ?_, ?_, ?_, ?_, ?_, ?_, ?_⟩ <;> exact fun _ => rfl
  rcases exec_param_cases hex with hk | ⟨rfl, rfl⟩ | ⟨q, v, rfl, rfl⟩ | ⟨v, rfl, rfl⟩ | ⟨v, rfl, rfl⟩ | ⟨v, rfl, rfl⟩
  · exact ⟨fun _ => hk.dryWet, fun _ => hk.depth, fun _ => hk.rate, fun _ => hk.phaseOff, fun _ => hk.feedback,
      fun _ => hk.mode, fun _ => hk.srate, fun _ => hk.maxblk⟩
  · refine ⟨?_, ?_, ?_, ?_, ?_, ?_, fun _ => rfl, fun _ => rfl⟩ <;> exact fun h => h.elim hd (.inl rfl)
  · generalize clampParam q v = c
    cases q with
    | dryWet => refine ⟨fun h => h.elim hd (.inr ⟨v, rfl⟩), ?_, ?_, ?_, ?_, ?_, ?_, ?_⟩ <;> exact fun _ => rfl
    | depth => refine ⟨?_, fun h => h.elim hd (.inr ⟨v, rfl⟩), ?_, ?_, ?_, ?_, ?_, ?_⟩ <;> exact fun _ => rfl
    | rate => refine ⟨?_, ?_, fun h => h.elim hd (.inr ⟨v, rfl⟩), ?_, ?_, ?_, ?_, ?_⟩ <;> exact fun _ => rfl
    | phaseOff => refine ⟨?_, ?_, ?_, fun h => h.elim hd (.inr ⟨v, rfl⟩), ?_, ?_, ?_, ?_⟩ <;> exact fun _ => rfl
    | feedback => refine ⟨?_, ?_, ?_, ?_, fun h => h.elim hd (.inr ⟨v, rfl⟩), ?_, ?_, ?_⟩ <;> exact fun _ => rfl
  · refine ⟨?_, ?_, ?_, ?_, ?_, fun h => h.elim hd (.inr ⟨v, rfl⟩), ?_, ?_⟩ <;> exact fun _ => rfl
  · refine ⟨?_, ?_, ?_, ?_, ?_, ?_, fun h => h.elim hd ⟨v, rfl⟩, ?_⟩ <;> exact fun _ => rfl
  · refine ⟨?_, ?_, ?_, ?_, ?_, ?_, ?_, fun h => h.elim hd ⟨v, rfl⟩⟩ <;> exact fun _ => rfl

end Sys2Proof.Machine

/-! ## The control port: register reads and writes, NOP and the commands (44_control.md R220 to R253) -/

namespace Sys2Proof.Machine

/-! ### Register reads -/

/-- Settles O9: each word is the read word of its register. -/
theorem readWordsDecode : Obligations.ReadWordsDecode := by
  unfold Obligations.ReadWordsDecode
  exact ⟨decodeCp_readWord .id, decodeCp_readWord .ctrl, decodeCp_readWord .status, decodeCp_readWord .srate,
    decodeCp_readWord .maxblk, decodeCp_readWord .srAct, decodeCp_readWord .capacity, decodeCp_readWord .dryWet,
    decodeCp_readWord .depth, decodeCp_readWord .rate, decodeCp_readWord .phaseOff, decodeCp_readWord .feedback,
    decodeCp_readWord .mode, decodeCp_readWord .whead, decodeCp_readWord .phase, decodeCp_readWord .fbl,
    decodeCp_readWord .fbr⟩

/-- The read of a register answers its value and changes nothing else (44_control.md R220). -/
theorem exec_readInstr (r : Reg) (s : State) : exec (readInstr r) s = .next (s.reply (.resp (regValue r s))) := by
  cases r <;> rfl

theorem modeWord_eq_ite (m : Mode) : modeWord m = if m = .flanger then 1 else 0 := by cases m <;> rfl

/-- Settles O10, register by register; `MODE` reads as 1 for Flanger alone. -/
theorem readsAnswerTheRegister : Obligations.ReadsAnswerTheRegister := by
  unfold Obligations.ReadsAnswerTheRegister
  intro s
  rw [← modeWord_eq_ite]
  exact ⟨exec_readInstr .id s, exec_readInstr .ctrl s, exec_readInstr .srate s, exec_readInstr .maxblk s,
    exec_readInstr .srAct s, exec_readInstr .capacity s, exec_readInstr .dryWet s, exec_readInstr .depth s,
    exec_readInstr .rate s, exec_readInstr .phaseOff s, exec_readInstr .feedback s, exec_readInstr .mode s,
    exec_readInstr .whead s, exec_readInstr .phase s, exec_readInstr .fbl s, exec_readInstr .fbr s⟩

/-- The bits of `STATUS`, from bit 0 up: the four flags, then zeros (10_state.md R24). -/
theorem getLsbD_statusWord (s : State) (k : Nat) :
    (statusWord s).getLsbD k = [s.ready, s.errPrep, s.errNrdy, s.errAcc].getD k false := by
  rw [statusWord, BitVec.getLsbD_append, BitVec.getLsbD_append, BitVec.getLsbD_append, BitVec.getLsbD_append]
  rcases k with _ | _ | _ | _ | k <;> simp

/-- Settles O11: the response is `STATUS`, bit by bit. -/
theorem readStatusComposesTheFlags : Obligations.ReadStatusComposesTheFlags := by
  unfold Obligations.ReadStatusComposesTheFlags
  refine ⟨decodeCp_readWord .status, fun s => ⟨statusWord s, exec_readInstr .status s, getLsbD_statusWord s 0,
    getLsbD_statusWord s 1, getLsbD_statusWord s 2, getLsbD_statusWord s 3, fun k hk => ?_⟩⟩
  rw [getLsbD_statusWord]
  exact List.getD_eq_default _ _ hk

/-! ### NOP and CMD_NONE -/

theorem opc_toNat (w : PortWord) : (CpWord.opc w).toNat = w.toNat / 2 ^ 56 := by
  rw [CpWord.opc, BitVec.extractLsb'_toNat, Nat.shiftRight_eq_div_pow]
  exact Nat.mod_eq_of_lt (by omega)

/-- A word with OPC 0x00 and another bit set is illegal (30_encoding.md R97 kind 1). -/
theorem decodeCp_error_of_opc_zero {w : PortWord} (hopc : w.toNat / 2 ^ 56 = 0) (hw : w ≠ 0) :
    ∃ k, decodeCp w = .error k := by
  have h0 : CpWord.opc w = 0 := BitVec.eq_of_toNat_eq ((opc_toNat w).trans hopc)
  have hbad : IllegalKind.nopWithBits.check w = true := by simpa [IllegalKind.check, CpWord.badNop, h0] using hw
  exact (decodeCp_error_iff w).2 (wf_eq_false_of_check hbad)

/-- Settles O12: NOP is zero, CMD_NONE the write of 0 to `CTRL`, and neither has an update to make. -/
theorem nopAndNoneOnlyAcknowledge : Obligations.NopAndNoneOnlyAcknowledge := by
  unfold Obligations.NopAndNoneOnlyAcknowledge
  exact ⟨rfl, decodeCp_writeWord .ctrl 0, fun _ => decodeCp_error_of_opc_zero, fun _ => ⟨rfl, rfl⟩⟩

/-! ### Register writes -/

/-- Settles O13: each word is the write word of its register, and the update stores the operand. -/
theorem plainWritesStoreTheValue : Obligations.PlainWritesStoreTheValue := by
  unfold Obligations.PlainWritesStoreTheValue
  exact fun s v => ⟨decodeCp_writeWord .srate v, decodeCp_writeWord .maxblk v, rfl, rfl⟩

theorem modeOf_eq_ite (v : Word) : modeOf v = if v.toNat = 1 then .flanger else .chorus := by
  have hv : v = 1 ↔ v.toNat = 1 := BitVec.toNat_inj.symm
  simp only [modeOf, hv]

/-- Settles O15: the word is the write word of `MODE`, and 1 is the one value that selects Flanger. -/
theorem modeWriteSelectsTheTopology : Obligations.ModeWriteSelectsTheTopology := by
  unfold Obligations.ModeWriteSelectsTheTopology
  intro s v
  rw [← modeOf_eq_ite]
  exact ⟨decodeCp_writeWord .mode v, rfl⟩

/-! ### PREPARE -/

theorem exec_cmdPrepare (s : State) : exec .cmdPrepare s = .next (State.reply .ack (prepare params s)) := rfl

/-- Settles O17: the rate passes PREPARE's test, and of the updates only the zeroing touches a word. -/
theorem prepareSucceedsInRange : Obligations.PrepareSucceedsInRange := by
  unfold Obligations.PrepareSucceedsInRange
  refine ⟨decodeCp_writeWord .ctrl 1, fun s hlo hhi => ?_⟩
  have hok : prepareOk params s.srate.toNat = true := (prepareOk_params _).2 ⟨hlo, hhi⟩
  rw [exec_cmdPrepare, prepare_of_ok hok, ← prepareCapacity_params]
  refine ⟨_, rfl, rfl, fun x i => ?_⟩
  rw [(memoryBlind_reply .ack).wordAt, wordAt_prepareSuccess, memoryBlind_zeroTransient.wordAt]
  rfl

/-- Settles O18: the rate fails PREPARE's test. -/
theorem prepareFailsOutOfRange : Obligations.PrepareFailsOutOfRange := by
  unfold Obligations.PrepareFailsOutOfRange
  intro s hout
  have hok : prepareOk params s.srate.toNat = false := by
    rw [Bool.eq_false_iff, Ne, prepareOk_params]
    omega
  rw [exec_cmdPrepare, prepare_of_not_ok hok]
  rfl

/-! ### CLEAR -/

theorem exec_cmdClear (s : State) : exec .cmdClear s = .next (State.reply .ack (clear s)) := rfl

/-- Where `C` is the capacity of `SRATE`, a successful PREPARE is CLEAR and the latching of `SRATE` and READY (44_control.md R241, R242). -/
theorem prepareSuccess_eq_clear {s : State} (hcap : capacityNat s = prepareCapacity params s.srate.toNat) :
    prepareSuccess params (zeroTransient s) = { clear s with srAct := s.srate, ready := true } := by
  have hofNat : BitVec.ofNat 32 (capacityNat s) = s.capacity := by simp [capacityNat]
  rw [prepareSuccess, zeroTransient_srate, ← hcap, hofNat]
  rfl

/-- Settles O20: by the invariant `SR_ACT` passes PREPARE's test and `C` is its capacity, so PREPARE latches what is there. -/
theorem clearEqualsPrepareAtTheSameRate : Obligations.ClearEqualsPrepareAtTheSameRate := by
  unfold Obligations.ClearEqualsPrepareAtTheSameRate
  intro s hinv hready hrate
  obtain ⟨hok, hcap, -⟩ := hinv.readyShape hready
  rw [← hrate] at hok hcap
  rw [exec_cmdClear, exec_cmdPrepare, prepare_of_ok hok, prepareSuccess_eq_clear hcap, hrate, ← hready]
  rfl

/-! ### DEFAULTS and ERRCLR -/

/-- Settles O21: the word writes 4 to `CTRL`, and the update gives each parameter its default. -/
theorem defaultsRestoreTheParameters : Obligations.DefaultsRestoreTheParameters := by
  unfold Obligations.DefaultsRestoreTheParameters
  exact ⟨decodeCp_writeWord .ctrl 4, fun _ => rfl⟩

/-- Settles O22: the word writes 8 to `CTRL`, and the update is of the three error bits. -/
theorem errclrClearsTheErrorBits : Obligations.ErrclrClearsTheErrorBits := by
  unfold Obligations.ErrclrClearsTheErrorBits
  exact ⟨decodeCp_writeWord .ctrl 8, fun _ => rfl⟩

end Sys2Proof.Machine

/-! ## Exceptions: the block never stops, ILLEGAL words and beats while not ready (60_exceptions.md R280 to R284) -/

namespace Sys2Proof.Machine

/-- Settles O48: a reset and an ILLEGAL word always complete, and by the invariant so does every instruction. -/
theorem everyStepCompletes : Obligations.EveryStepCompletes := by
  unfold Obligations.EveryStepCompletes
  exact fun _ hinv => hinv.step_completes

/-- OPC is the top byte of a control word, as a number (30_encoding.md R90). -/
theorem opc_eq_one_iff (w : PortWord) : CpWord.opc w = 0x01 ↔ w.toNat / 2 ^ 56 = 1 := by
  rw [← opc_toNat]
  exact BitVec.toNat_inj.symm

/-- An ILLEGAL word as one record update, its OPC read as a number (60_exceptions.md R283). -/
theorem performIllegal_eq (w : PortWord) (s : State) : performIllegal w s =
    { s with errAcc := true, cpOut := s.cpOut ++ [if w.toNat / 2 ^ 56 = 1 then .resp 0 else .ack] } := by
  simp only [← opc_eq_one_iff]
  rfl

/-- Settles O7: the step performs the ILLEGAL word. -/
theorem illegalWordOnlyRaisesAccessError : Obligations.IllegalWordOnlyRaisesAccessError := by
  unfold Obligations.IllegalWordOnlyRaisesAccessError
  intro s w rest k hp hd
  rw [step_of_illegal hp hd, performIllegal_eq]

/-- Settles O25: while not ready SAMPLE is the bypass, which raises ERR_NRDY and emits its two lanes. -/
theorem sampleBypassesWhileNotReady : Obligations.SampleBypassesWhileNotReady := by
  unfold Obligations.SampleBypassesWhileNotReady
  intro s l r hready
  rw [exec_sample_notReady hready]
  rfl

end Sys2Proof.Machine

/-! ## The hardware reset (70_reset_and_hazards.md R310) -/

namespace Sys2Proof.Machine

/-- Settles O23: the reset takes its transaction from those pending, and its registers are those of R43. -/
theorem hardwareResetSetsEveryRegister : Obligations.HardwareResetSetsEveryRegister := by
  unfold Obligations.HardwareResetSetsEveryRegister
  intro s rest hp
  have hstep : step s = .next (hardwareReset { s with pending := rest }) := step_eq hp
  exact ⟨_, hstep, rfl⟩

end Sys2Proof.Machine
